-- ==== Sys2Proof/Word.lean ====
section
/-! DEFINITION. The machine's words: 00_scope.md R6 and R9 name the widths `u8`, `u32`, `u64` and `s64`. -/

namespace Sys2Proof

/-- `u8` (R9): a byte of blob memory, a HyperLogLog register. -/
abbrev Byte := BitVec 8

/-- `u32` (R9): a host register, a hash, a hash value, a minValue, a permutation parameter, a command word. -/
abbrev Word := BitVec 32

/-- The 64-bit pattern of a MinHash seed, an `s64` (R6, R9). Its signed reading is `BitVec.toInt`. -/
abbrev Seed := BitVec 64

/-- A slot number as a command word's 4-bit field gives it, `zext` of the field (R93). -/
abbrev SlotNo := Fin 16

/-- `MAXU32` (R9). -/
abbrev maxU32 : Word := 0xFFFFFFFF#32

end Sys2Proof
end

