-- ==== Sys2Proof/Config.lean ====
section
/-! DEFINITION. What an implementation fixes and what the spec leaves open: 00_scope.md R6, R7 and
93_implementation_defined.md section 1. -/

namespace Sys2Proof

/-- The parameters of an implementation that the capability registers report (R7, R23).
State carries one value of this type and no step changes it (log 1). -/
structure Params where
  /-- `NSLOT`, the number of sketch slots. -/
  nslot : Nat
  /-- `KMAX`, the largest MinHash `k` a slot holds. -/
  kmax : Nat
  /-- `PMAX`, the largest precision a slot holds. -/
  pmax : Nat
  /-- `BLOB_BYTES`, the size of blob memory. -/
  blobBytes : Nat
  deriving DecidableEq, Repr

/-- The constraints R7 puts on the parameters. -/
abbrev Params.wf (p : Params) : Prop :=
  (2 ≤ p.nslot ∧ p.nslot ≤ 16) ∧ (1 ≤ p.kmax ∧ 12 + 4 * p.kmax ≤ p.blobBytes) ∧
  (4 ≤ p.pmax ∧ p.pmax ≤ 16) ∧ (1 + 2 ^ p.pmax ≤ p.blobBytes ∧ p.blobBytes ≤ 0x80000)

/-- The permutation-parameter generator `Prng` (41_permutation.md R130): two total deterministic functions.
DESIGN CHOICE (log 2): its state is a bit vector of some width, since a hardware block can hold no other. -/
structure Prng where
  /-- The width of `PrngState`. -/
  stateBits : Nat
  /-- `PrngInit : s64 -> PrngState`. -/
  init : Seed → BitVec stateBits
  /-- `PrngNext : PrngState -> u32 × PrngState`. -/
  next : BitVec stateBits → Word × BitVec stateBits

namespace Config

/-- The parameters of the machine `State.reset` describes: the default configuration of 95_test_vectors.md
section 0.1. DESIGN CHOICE (log 1): the spec leaves the four values to the implementation. -/
def params : Params := { nslot := 4, kmax := 8, pmax := 16, blobBytes := 65540 }

/-- The width of the implementation's `PrngState` (R130, I1, log 2). The spec gives no value for it. -/
opaque prngStateBits : Nat

/-- The implementation's `PrngInit` (R130, I1). -/
opaque prngInit : Seed → BitVec prngStateBits

/-- The implementation's `PrngNext` (R130, I1). -/
opaque prngNext : BitVec prngStateBits → Word × BitVec prngStateBits

/-- The implementation's generator (R130): the three open constants together. -/
def prng : Prng := { stateBits := prngStateBits, init := prngInit, next := prngNext }

/-- What a read of RESULT, RESULT_HI or a blob byte returns while BUSY = 1: "any value"
(20_memory.md R71, I4), applied to the counter `State.draws` (log 6). -/
opaque freeWord : Nat → Word

/-- OVR after a CLRSTAT that a write raced with: "any value" (47_control.md R231, I6, log 7). -/
opaque freeBit : Nat → Bool

/-- `p = 2^61 - 1` (R6). -/
def mersennePrime : Nat := 2 ^ 61 - 1

/-- The constant the ID register reads (10_state.md R22). -/
def idValue : Word := 0x534D4501#32

/-- The one-bit cap: `size = min(k, 128)` (R6). -/
def oneBitCap : Nat := 128

/-- `count()` of a sketch whose raw estimate `E` is at least `2^32` (48_host_estimators.md R241, I15). -/
noncomputable opaque largeRangeOverflow : ℝ → ℝ

/-- `Inclusion(a, b)` when `count(a) = 0` and the union is not empty (R246, I14). -/
noncomputable opaque inclusionEmptyA : ℝ

end Config

end Sys2Proof
end

