-- ==== Sys2Proof/Machine/State.lean ====
section
/-! DEFINITION. The state of the block and of its one host: 10_state.md, 00_scope.md R14 to R16, 20_memory.md R60.
Plain data throughout; INVENTORY.md lists every field with its rule and its reset value. -/

namespace Sys2Proof.Machine

/-- The result codes of 60_exceptions.md R270. The codes 5 to 7 and 11 to 15 "are never produced", so they
are no values of this type. -/
inductive ResultCode
  | ok
  | invalidArgument
  | incompatibleSketch
  | bufferTooSmall
  | truncatedBuffer
  | illegalCommand
  | slotKind
  | capacityExceeded
  deriving DecidableEq, Repr

/-- The fields of STATUS that hold anything (10_state.md R26). -/
structure Status where
  busy : Bool
  err : Bool
  sticky : Bool
  ovr : Bool
  code : ResultCode
  deriving DecidableEq, Repr

/-- The operand and result registers (10_state.md R20, R21). -/
structure Regs where
  arg : Word
  hash : Word
  seedLo : Word
  seedHi : Word
  blobLen : Word
  result : Word
  resultHi : Word
  deriving DecidableEq, Repr

/-- A MinHash signature (10_state.md R31): `perm` and `hv` have length `k` in every state a run reaches
(log 13). -/
structure MinHash where
  seed : Seed
  k : Nat
  perm : List (Word × Word)
  hv : List Word
  deriving DecidableEq, Repr

/-- A HyperLogLog sketch (10_state.md R32): `reg` has length `2^p` in every state a run reaches (log 13). -/
structure Hll where
  p : Nat
  reg : List Byte
  deriving DecidableEq, Repr

/-- An HllMinHash sketch (10_state.md R33): `reg` and `minv` have length `2^p` in every state a run reaches
(log 13). -/
structure Hmh where
  p : Nat
  reg : List Byte
  minv : List Word
  deriving DecidableEq, Repr

/-- A one-bit signature (10_state.md R34): `bits` has length `size` in every state a run reaches (log 13). -/
structure OneBit where
  seed : Seed
  size : Nat
  bits : List Bool
  deriving DecidableEq, Repr

/-- What a sketch slot holds (10_state.md R30). -/
inductive Slot
  | empty
  | minhash (m : MinHash)
  | hll (h : Hll)
  | hmh (h : Hmh)
  | onebit (b : OneBit)
  deriving DecidableEq, Repr

/-- Blob memory (10_state.md R38): the bytes written since reset, addresses strictly rising. An address that
is not listed holds `none` (unwritten). -/
abbrev Memory := List Host.Cell

/-- The canonical form: addresses strictly rising. No listed byte equals what an unlisted address reads as,
since that is `none`. -/
def Memory.wf : Memory → Bool
  | [] => true
  | [_] => true
  | a :: b :: rest => decide (a.1 < b.1) && Memory.wf (b :: rest)

/-- The width of a host access: 1, 2 or 4 bytes (20_memory.md R60). -/
inductive Width
  | byte
  | half
  | word
  deriving DecidableEq, Repr

/-- A host access at a 20-bit offset (20_memory.md R60). A write narrower than 4 bytes stores the low bytes
of its data. -/
inductive Access
  | read (off : BitVec 20) (w : Width)
  | write (off : BitVec 20) (w : Width) (data : Word)
  deriving DecidableEq, Repr

/-- The bus's answer (20_memory.md R60, R64): read data, an accepted write, or BUSERR, which carries data 0. -/
inductive Reply
  | data (v : Word)
  | done
  | buserr
  deriving DecidableEq, Repr

/-- One access and its answer. -/
structure Exchange where
  access : Access
  reply : Reply
  deriving DecidableEq, Repr

/-- A line of a host program (30_encoding.md R99): an access, or the loop `poll`. -/
inductive HostOp
  | access (a : Access)
  | poll
  deriving DecidableEq, Repr

/-- The two agents (00_scope.md R14). -/
inductive Agent
  | host
  | engine
  deriving DecidableEq, Repr

/-- The host's side and the interleaving (00_scope.md R14, 20_memory.md R69). The model's own fields (logs 4, 5). -/
structure HostSide where
  /-- The rest of the host's program. -/
  prog : List HostOp
  /-- Which agent takes each of the next steps; used up, the engine moves first (70_reset_and_hazards.md R313). -/
  sched : List Agent
  /-- What the host has sent and got back, newest first. -/
  log : List Exchange
  deriving DecidableEq, Repr

/-- The state of the machine. -/
structure State where
  /-- NSLOT, KMAX, PMAX, BLOB_BYTES: constants that no step changes (00_scope.md R7, R15, log 1). -/
  params : Params
  /-- The operand and result registers (10_state.md R21). -/
  regs : Regs
  /-- STATUS (10_state.md R26). -/
  status : Status
  /-- The pending command (10_state.md R39). -/
  pending : Option Word
  /-- A write has been ignored since the pending command was accepted (the model's own, log 7). -/
  raced : Bool
  /-- The sketch slots (10_state.md R30). -/
  slots : List Slot
  /-- Blob memory (10_state.md R38). -/
  blob : Memory
  /-- How many free values have been drawn (the model's own, log 6). -/
  draws : Nat
  /-- The host (the model's own, logs 4 and 5). -/
  host : HostSide
  deriving DecidableEq, Repr

/-- Why the machine stops. The spec names one cause (00_scope.md R16). -/
inductive Fault
  /-- Raised by a host read through the blob window, MH_DES or HLL_DES, when a byte it reads has not been
  written since reset (20_memory.md R66). Safe: the hardware returns some byte and goes on. -/
  | unwrittenBlobByte
  deriving DecidableEq, Repr

/-- Why an instruction has no meaning. "No command word is refused" (00_scope.md R16), so no step of this
model answers a refusal. -/
inductive Refusal
  /-- Raised by no arm of `exec`: every instruction has its meaning. Safe: the run stops. -/
  | notModelled (mnemonic : String)
  deriving DecidableEq, Repr

/-- The outcome of a step. -/
abbrev StepOutcome := Host.Outcome State Fault Refusal

/-- The state right after reset on an implementation with parameters `p` (10_state.md R40,
70_reset_and_hazards.md R300). The fields that are the model's own start empty, false or 0 (logs 4 to 7). -/
def State.resetWith (p : Params) : State :=
  { params := p
    regs := { arg := 0, hash := 0, seedLo := 0, seedHi := 0, blobLen := 0, result := 0, resultHi := 0 }
    status := { busy := false, err := false, sticky := false, ovr := false, code := .ok }
    pending := none
    raced := false
    slots := List.replicate p.nslot .empty
    blob := []
    draws := 0
    host := { prog := [], sched := [], log := [] } }

/-- The state right after reset, on the parameters log 1 names. -/
def State.reset : State := State.resetWith Config.params

end Sys2Proof.Machine
end

