-- ==== Sys2Proof/Machine/Flags.lean ====
section
/-! DEFINITION. STATUS: the word the host reads, the completion update and the accumulated bits.
10_state.md R24, R26, R27; 60_exceptions.md R270; 70_reset_and_hazards.md R310. -/

namespace Sys2Proof.Machine

/-- The number STATUS.CODE shows (R270). -/
def ResultCode.toNat : ResultCode → Nat
  | .ok => 0
  | .invalidArgument => 1
  | .incompatibleSketch => 2
  | .bufferTooSmall => 3
  | .truncatedBuffer => 4
  | .illegalCommand => 8
  | .slotKind => 9
  | .capacityExceeded => 10

/-- A bit at a position. -/
def bitAt (b : Bool) (n : Nat) : Nat := if b then 2 ^ n else 0

/-- STATUS as the host reads it: the fields at their bits, the reserved bits 0 (R26). -/
def statusWord (st : Status) : Word :=
  BitVec.ofNat 32 (bitAt st.busy 0 + bitAt st.err 1 + bitAt st.sticky 2 + bitAt st.ovr 3 +
    st.code.toNat * 2 ^ 8)

/-- Completion of a command with result code `c` (R27). BUSY and `pending` fall together (R39). -/
def complete (c : ResultCode) (s : State) : State :=
  { s with
    status := { s.status with
      code := c
      err := decide (c ≠ .ok)
      sticky := s.status.sticky || decide (c ≠ .ok)
      busy := false }
    pending := none
    raced := false }

/-- A CMD write the block accepts (R24, R39). -/
def acceptCommand (w : Word) (s : State) : State :=
  { s with status := { s.status with busy := true }, pending := some w, raced := false }

/-- A write ignored because BUSY = 1 (R26, R310). -/
def ignoreWrite (s : State) : State :=
  { s with status := { s.status with ovr := true }, raced := true }

/-- CLRSTAT's own changes, before the completion update (47_control.md R231). OVR is a free bit where a write
raced with the command (I6, log 7). -/
def clearAccumulated (s : State) : State :=
  { s with
    status := { s.status with
      sticky := false
      ovr := if s.raced then Config.freeBit s.draws else false }
    draws := if s.raced then s.draws + 1 else s.draws }

end Sys2Proof.Machine
end

