-- ==== Sys2Proof/Syntax.lean ====
section
/-! DEFINITION. The commands of SME-1: one constructor per row of 30_encoding.md R95, with the operands its
form carries (R92, R93). -/

namespace Sys2Proof

/-- A command. `sa` is slot A and `sb` slot B (R91). -/
inductive Instr
  -- control (47_control.md)
  | nop
  | clrstat
  | free (sa : SlotNo)
  | info (sa : SlotNo)
  -- bit operations (40_bitops.md)
  | lzc32
  | extract (hi lo : BitVec 8)
  | popcnt32
  -- permutations (41_permutation.md)
  | mhPerm (sa : SlotNo)
  | mhRdperm (sa : SlotNo)
  -- MinHash (42_minhash.md)
  | mhNew (sa : SlotNo)
  | mhDigest (sa : SlotNo)
  | mhClear (sa : SlotNo)
  | mhMerge (sa sb : SlotNo)
  | mhAgree (mask : BitVec 16)
  | mhRdval (sa : SlotNo)
  | mhSeed (sa : SlotNo)
  -- one-bit MinHash (43_onebit.md)
  | obExport (sa sb : SlotNo)
  | obXorpop (mask : BitVec 16)
  | obRdword (sa : SlotNo)
  -- HyperLogLog (44_hyperloglog.md)
  | hllNew (sa : SlotNo) (p : BitVec 16)
  | hllDigest (sa : SlotNo)
  | hllClear (sa : SlotNo)
  | hllMerge (sa sb : SlotNo)
  | hllRdreg (sa : SlotNo)
  -- HllMinHash (45_hllminhash.md)
  | hmhNew (sa : SlotNo) (p : BitVec 16)
  | hmhAdd (sa : SlotNo)
  | hmhMerge (sa sb : SlotNo)
  | hmhAgree (sa sb : SlotNo)
  | hmhRdreg (sa : SlotNo)
  | hmhRdmin (sa : SlotNo)
  -- serializer and deserializer (46_serdes.md)
  | mhSer (sa : SlotNo)
  | mhDes (sa : SlotNo)
  | hllSer (sa : SlotNo)
  | hllDes (sa : SlotNo)
  deriving DecidableEq, Repr

end Sys2Proof
end

