-- ==== Sys2Proof/WellFormed.lean ====
section
/-! DEFINITION. When a command is one that a word can decode to on an implementation with `NSLOT` slots:
30_encoding.md R93 and R97. The widths of the fields are already in the types of Syntax.lean. -/

namespace Sys2Proof

/-- "a used SA or SB `>= NSLOT`" is illegal (R97). -/
abbrev slotOk (nslot : Nat) (s : SlotNo) : Prop := s.val < nslot

/-- "a mask bit at or above `NSLOT`" is illegal (R97). -/
abbrev maskOk (nslot : Nat) (mask : BitVec 16) : Prop := mask.toNat < 2 ^ nslot

/-- The operands of a command are legal for `NSLOT` slots (R93, R97). A precision or a bit range is not
checked here: "The range check is the command's own" (R93). -/
def Instr.wellFormed (nslot : Nat) : Instr → Bool
  | .nop => true
  | .clrstat => true
  | .free sa => slotOk nslot sa
  | .info sa => slotOk nslot sa
  | .lzc32 => true
  | .extract _ _ => true
  | .popcnt32 => true
  | .mhPerm sa => slotOk nslot sa
  | .mhRdperm sa => slotOk nslot sa
  | .mhNew sa => slotOk nslot sa
  | .mhDigest sa => slotOk nslot sa
  | .mhClear sa => slotOk nslot sa
  | .mhMerge sa sb => slotOk nslot sa && slotOk nslot sb
  | .mhAgree mask => maskOk nslot mask
  | .mhRdval sa => slotOk nslot sa
  | .mhSeed sa => slotOk nslot sa
  | .obExport sa sb => slotOk nslot sa && slotOk nslot sb
  | .obXorpop mask => maskOk nslot mask
  | .obRdword sa => slotOk nslot sa
  | .hllNew sa _ => slotOk nslot sa
  | .hllDigest sa => slotOk nslot sa
  | .hllClear sa => slotOk nslot sa
  | .hllMerge sa sb => slotOk nslot sa && slotOk nslot sb
  | .hllRdreg sa => slotOk nslot sa
  | .hmhNew sa _ => slotOk nslot sa
  | .hmhAdd sa => slotOk nslot sa
  | .hmhMerge sa sb => slotOk nslot sa && slotOk nslot sb
  | .hmhAgree sa sb => slotOk nslot sa && slotOk nslot sb
  | .hmhRdreg sa => slotOk nslot sa
  | .hmhRdmin sa => slotOk nslot sa
  | .mhSer sa => slotOk nslot sa
  | .mhDes sa => slotOk nslot sa
  | .hllSer sa => slotOk nslot sa
  | .hllDes sa => slotOk nslot sa

end Sys2Proof
end

