-- ==== Sys2Proof/Decode.lean ====
section
/-! DEFINITION. The decoder and the encoder: 30_encoding.md R90 to R98. A command is the 32-bit value written
to CMD (20_memory.md R74), so decoding has no byte order and reads no state (R96). -/

namespace Sys2Proof

/-- Why a word is Illegal (R97). All four reasons complete with the one code IllegalCommand. -/
inductive Illegal
  /-- An OP that R95 does not list. -/
  | reservedOpcode
  /-- RSV, or a field the form does not use, is not zero. -/
  | nonzeroField
  /-- A used SA or SB is at or above NSLOT. -/
  | slotOutOfRange
  /-- A mask bit at or above NSLOT. -/
  | maskOutOfRange
  deriving DecidableEq, Repr

/-- The operand forms (R92). -/
inductive Form
  | z | i | a | ai | ab
  deriving DecidableEq, Repr

/-- The static mask of a form (R92). -/
def Form.staticMask : Form → Word
  | .z => 0xFFFFFFFF#32
  | .i => 0xFFFF0000#32
  | .a => 0xFC3FFFFF#32
  | .ai => 0xFC3F0000#32
  | .ab => 0xFC03FFFF#32

/-- The form uses SA (R92). -/
def Form.usesA : Form → Bool
  | .a => true
  | .ai => true
  | .ab => true
  | .z => false
  | .i => false

/-- The form uses SB (R92). -/
def Form.usesB : Form → Bool
  | .ab => true
  | .z => false
  | .i => false
  | .a => false
  | .ai => false

/-- OP, bits 31:26 (R91). -/
def opField (w : Word) : Nat := w.toNat / 2 ^ 26

/-- SA, bits 25:22 (R91). -/
def saField (w : Word) : SlotNo := Fin.ofNat 16 (w.toNat / 2 ^ 22)

/-- SB, bits 21:18 (R91). -/
def sbField (w : Word) : SlotNo := Fin.ofNat 16 (w.toNat / 2 ^ 18)

/-- IMM16, bits 15:0 (R91). -/
def immField (w : Word) : BitVec 16 := BitVec.ofNat 16 w.toNat

/-- `IMM16[15:8]` (R93). -/
def immHi (imm : BitVec 16) : BitVec 8 := BitVec.ofNat 8 (imm.toNat / 2 ^ 8)

/-- `IMM16[7:0]` (R93). -/
def immLo (imm : BitVec 16) : BitVec 8 := BitVec.ofNat 8 imm.toNat

/-- A row of the opcode map: the form, and the command its fields SA, SB and IMM16 make (R93, R95). -/
structure OpRow where
  form : Form
  make : SlotNo → SlotNo → BitVec 16 → Instr

/-- The opcode map (R95). Every other OP is reserved (R97). -/
def opRow : Nat → Option OpRow
  | 0x00 => some ⟨.z, fun _ _ _ => .nop⟩
  | 0x01 => some ⟨.z, fun _ _ _ => .clrstat⟩
  | 0x02 => some ⟨.a, fun sa _ _ => .free sa⟩
  | 0x03 => some ⟨.a, fun sa _ _ => .info sa⟩
  | 0x04 => some ⟨.z, fun _ _ _ => .lzc32⟩
  | 0x05 => some ⟨.i, fun _ _ imm => .extract (immHi imm) (immLo imm)⟩
  | 0x06 => some ⟨.z, fun _ _ _ => .popcnt32⟩
  | 0x08 => some ⟨.a, fun sa _ _ => .mhPerm sa⟩
  | 0x09 => some ⟨.a, fun sa _ _ => .mhRdperm sa⟩
  | 0x10 => some ⟨.a, fun sa _ _ => .mhNew sa⟩
  | 0x11 => some ⟨.a, fun sa _ _ => .mhDigest sa⟩
  | 0x12 => some ⟨.a, fun sa _ _ => .mhClear sa⟩
  | 0x13 => some ⟨.ab, fun sa sb _ => .mhMerge sa sb⟩
  | 0x14 => some ⟨.i, fun _ _ imm => .mhAgree imm⟩
  | 0x15 => some ⟨.a, fun sa _ _ => .mhRdval sa⟩
  | 0x16 => some ⟨.a, fun sa _ _ => .mhSeed sa⟩
  | 0x18 => some ⟨.ab, fun sa sb _ => .obExport sa sb⟩
  | 0x19 => some ⟨.i, fun _ _ imm => .obXorpop imm⟩
  | 0x1A => some ⟨.a, fun sa _ _ => .obRdword sa⟩
  | 0x20 => some ⟨.ai, fun sa _ imm => .hllNew sa imm⟩
  | 0x21 => some ⟨.a, fun sa _ _ => .hllDigest sa⟩
  | 0x22 => some ⟨.a, fun sa _ _ => .hllClear sa⟩
  | 0x23 => some ⟨.ab, fun sa sb _ => .hllMerge sa sb⟩
  | 0x24 => some ⟨.a, fun sa _ _ => .hllRdreg sa⟩
  | 0x28 => some ⟨.ai, fun sa _ imm => .hmhNew sa imm⟩
  | 0x29 => some ⟨.a, fun sa _ _ => .hmhAdd sa⟩
  | 0x2A => some ⟨.ab, fun sa sb _ => .hmhMerge sa sb⟩
  | 0x2B => some ⟨.ab, fun sa sb _ => .hmhAgree sa sb⟩
  | 0x2C => some ⟨.a, fun sa _ _ => .hmhRdreg sa⟩
  | 0x2D => some ⟨.a, fun sa _ _ => .hmhRdmin sa⟩
  | 0x30 => some ⟨.a, fun sa _ _ => .mhSer sa⟩
  | 0x31 => some ⟨.a, fun sa _ _ => .mhDes sa⟩
  | 0x32 => some ⟨.a, fun sa _ _ => .hllSer sa⟩
  | 0x33 => some ⟨.a, fun sa _ _ => .hllDes sa⟩
  | _ => none

/-- The two opcodes whose IMM16 is a slot mask, MH_AGREE and OB_XORPOP (R93, R96). -/
def takesMask (op : Nat) : Bool := op == 0x14 || op == 0x19

/-- The decoder, check by check in the order of R96. It is total: every word gives a command or a reason. -/
def decode (nslot : Nat) (w : Word) : Except Illegal Instr :=
  let op := opField w
  match opRow op with
  | none => .error .reservedOpcode
  | some row =>
    if (w &&& row.form.staticMask).toNat ≠ op * 2 ^ 26 then .error .nonzeroField
    else if row.form.usesA ∧ ¬ slotOk nslot (saField w) then .error .slotOutOfRange
    else if row.form.usesB ∧ ¬ slotOk nslot (sbField w) then .error .slotOutOfRange
    else if takesMask op ∧ ¬ maskOk nslot (immField w) then .error .maskOutOfRange
    else .ok (row.make (saField w) (sbField w) (immField w))

/-- `word = OP*2^26 + SA*2^22 + SB*2^18 + IMM16` with `RSV = 0` (R91). -/
def assemble (op sa sb imm : Nat) : Word :=
  BitVec.ofNat 32 (op * 2 ^ 26 + sa * 2 ^ 22 + sb * 2 ^ 18 + imm)

/-- The word of a command: form, fields and opcode from R91, R93 and R95. -/
def encode : Instr → Word
  | .nop => assemble 0x00 0 0 0
  | .clrstat => assemble 0x01 0 0 0
  | .free sa => assemble 0x02 sa.val 0 0
  | .info sa => assemble 0x03 sa.val 0 0
  | .lzc32 => assemble 0x04 0 0 0
  | .extract hi lo => assemble 0x05 0 0 (hi.toNat * 2 ^ 8 + lo.toNat)
  | .popcnt32 => assemble 0x06 0 0 0
  | .mhPerm sa => assemble 0x08 sa.val 0 0
  | .mhRdperm sa => assemble 0x09 sa.val 0 0
  | .mhNew sa => assemble 0x10 sa.val 0 0
  | .mhDigest sa => assemble 0x11 sa.val 0 0
  | .mhClear sa => assemble 0x12 sa.val 0 0
  | .mhMerge sa sb => assemble 0x13 sa.val sb.val 0
  | .mhAgree mask => assemble 0x14 0 0 mask.toNat
  | .mhRdval sa => assemble 0x15 sa.val 0 0
  | .mhSeed sa => assemble 0x16 sa.val 0 0
  | .obExport sa sb => assemble 0x18 sa.val sb.val 0
  | .obXorpop mask => assemble 0x19 0 0 mask.toNat
  | .obRdword sa => assemble 0x1A sa.val 0 0
  | .hllNew sa p => assemble 0x20 sa.val 0 p.toNat
  | .hllDigest sa => assemble 0x21 sa.val 0 0
  | .hllClear sa => assemble 0x22 sa.val 0 0
  | .hllMerge sa sb => assemble 0x23 sa.val sb.val 0
  | .hllRdreg sa => assemble 0x24 sa.val 0 0
  | .hmhNew sa p => assemble 0x28 sa.val 0 p.toNat
  | .hmhAdd sa => assemble 0x29 sa.val 0 0
  | .hmhMerge sa sb => assemble 0x2A sa.val sb.val 0
  | .hmhAgree sa sb => assemble 0x2B sa.val sb.val 0
  | .hmhRdreg sa => assemble 0x2C sa.val 0 0
  | .hmhRdmin sa => assemble 0x2D sa.val 0 0
  | .mhSer sa => assemble 0x30 sa.val 0 0
  | .mhDes sa => assemble 0x31 sa.val 0 0
  | .hllSer sa => assemble 0x32 sa.val 0 0
  | .hllDes sa => assemble 0x33 sa.val 0 0

/-- What the decoder reads from a word numbered as spec/opcode_table.json numbers it, on the parameters of
`State.reset` (log 1). Every command is one 32-bit word (R90). -/
def decodeTableWord (nbits w : Nat) : Option Instr :=
  (decode Config.params.nslot (BitVec.ofNat 32 (w % 2 ^ nbits))).toOption

/-- A slot operand in assembler syntax (R98). -/
def asmSlot (s : Nat) : String := "s" ++ toString s

/-- An immediate in assembler syntax (R98). -/
def asmImm (n : Nat) : String := "#" ++ toString n

/-- The slots a mask names, in ascending order (R93). -/
def maskSlots (mask : BitVec 16) : List Nat := (List.range 16).filter fun s => mask.getLsbD s

/-- A slot mask in assembler syntax: the slots it names, in curly brackets (R98). -/
def asmMask (mask : BitVec 16) : String :=
  (Char.ofNat 123).toString ++ String.intercalate ", " ((maskSlots mask).map asmSlot) ++
    (Char.ofNat 125).toString

/-- A command in assembler syntax (R98). -/
def assembler : Instr → String
  | .nop => "NOP"
  | .clrstat => "CLRSTAT"
  | .free sa => "FREE " ++ asmSlot sa.val
  | .info sa => "INFO " ++ asmSlot sa.val
  | .lzc32 => "LZC32"
  | .extract hi lo => "EXTRACT " ++ asmImm hi.toNat ++ ", " ++ asmImm lo.toNat
  | .popcnt32 => "POPCNT32"
  | .mhPerm sa => "MH_PERM " ++ asmSlot sa.val
  | .mhRdperm sa => "MH_RDPERM " ++ asmSlot sa.val
  | .mhNew sa => "MH_NEW " ++ asmSlot sa.val
  | .mhDigest sa => "MH_DIGEST " ++ asmSlot sa.val
  | .mhClear sa => "MH_CLEAR " ++ asmSlot sa.val
  | .mhMerge sa sb => "MH_MERGE " ++ asmSlot sa.val ++ ", " ++ asmSlot sb.val
  | .mhAgree mask => "MH_AGREE " ++ asmMask mask
  | .mhRdval sa => "MH_RDVAL " ++ asmSlot sa.val
  | .mhSeed sa => "MH_SEED " ++ asmSlot sa.val
  | .obExport sa sb => "OB_EXPORT " ++ asmSlot sa.val ++ ", " ++ asmSlot sb.val
  | .obXorpop mask => "OB_XORPOP " ++ asmMask mask
  | .obRdword sa => "OB_RDWORD " ++ asmSlot sa.val
  | .hllNew sa p => "HLL_NEW " ++ asmSlot sa.val ++ ", " ++ asmImm p.toNat
  | .hllDigest sa => "HLL_DIGEST " ++ asmSlot sa.val
  | .hllClear sa => "HLL_CLEAR " ++ asmSlot sa.val
  | .hllMerge sa sb => "HLL_MERGE " ++ asmSlot sa.val ++ ", " ++ asmSlot sb.val
  | .hllRdreg sa => "HLL_RDREG " ++ asmSlot sa.val
  | .hmhNew sa p => "HMH_NEW " ++ asmSlot sa.val ++ ", " ++ asmImm p.toNat
  | .hmhAdd sa => "HMH_ADD " ++ asmSlot sa.val
  | .hmhMerge sa sb => "HMH_MERGE " ++ asmSlot sa.val ++ ", " ++ asmSlot sb.val
  | .hmhAgree sa sb => "HMH_AGREE " ++ asmSlot sa.val ++ ", " ++ asmSlot sb.val
  | .hmhRdreg sa => "HMH_RDREG " ++ asmSlot sa.val
  | .hmhRdmin sa => "HMH_RDMIN " ++ asmSlot sa.val
  | .mhSer sa => "MH_SER " ++ asmSlot sa.val
  | .mhDes sa => "MH_DES " ++ asmSlot sa.val
  | .hllSer sa => "HLL_SER " ++ asmSlot sa.val
  | .hllDes sa => "HLL_DES " ++ asmSlot sa.val

end Sys2Proof
end

