-- ==== Sys2Proof/Machine/Operands.lean ====
section
/-! DEFINITION. Operand forms and the pure arithmetic the commands share: 30_encoding.md R93, 10_state.md R28 and
R29, 40_bitops.md R120 to R122, 41_permutation.md R131 to R134, 44_hyperloglog.md R170 and R171. -/

namespace Sys2Proof.Machine

/-! ### Operands from registers -/

/-- ARG as a `u32` (R29: every command but MH_NEW). -/
def argIndex (s : State) : Nat := s.regs.arg.toNat

/-- `k = sext_32(x[ARG])`, MH_NEW's operand (R29). -/
def kOperand (s : State) : Int := s.regs.arg.toInt

/-- The 64-bit seed operand, SEED_HI the high word (R28, log 14). -/
def seedOperand (s : State) : Seed := s.regs.seedHi ++ s.regs.seedLo

/-- `L = x[BLOB_LEN]` (46_serdes.md R210). -/
def bufferLen (s : State) : Nat := s.regs.blobLen.toNat

/-! ### Bit primitives -/

/-- The zero bits of `x` from bit `n - 1` down to the first 1. -/
def leadingZerosFrom (x : Word) : Nat → Nat
  | 0 => 0
  | n + 1 => if x.getLsbD n then 0 else leadingZerosFrom x n + 1

/-- `lzc32(x)`: "counts zero bits from bit 31 down, and stops at the first 1" (R120). -/
def lzc32 (x : Word) : Nat := leadingZerosFrom x 32

/-- `extractBits(v, hi, lo) = floor(v / 2^lo) mod 2^(hi - lo)` (R121). -/
def extractBits (v : Word) (hi lo : Nat) : Nat := v.toNat / 2 ^ lo % 2 ^ (hi - lo)

/-- The bits of `x` below bit `n` that are 1. -/
def onesBelow (x : Word) : Nat → Nat
  | 0 => 0
  | n + 1 => (if x.getLsbD n then 1 else 0) + onesBelow x n

/-- `popcount32(x)`: the number of bits equal to 1 (R122). -/
def popcount32 (x : Word) : Nat := onesBelow x 32

/-- `min` on unsigned values (R9). -/
def umin {n : Nat} (a b : BitVec n) : BitVec n := if b < a then b else a

/-- `max` on unsigned values (R9). -/
def umax {n : Nat} (a b : BitVec n) : BitVec n := if a < b then b else a

/-! ### Permutations -/

/-- `perm(a, b, x) = ((a * x + b) mod p) mod 2^32` (R133). -/
def perm (a b x : Word) : Word :=
  BitVec.ofNat 32 ((a.toNat * x.toNat + b.toNat) % Config.mersennePrime)

/-- The reduction of a 64-bit `t` modulo `2^61 - 1` by folding its top bits down (R134). -/
def reduceMersenne (t : Nat) : Nat :=
  let folded := t % 2 ^ 61 + t / 2 ^ 61
  if Config.mersennePrime ≤ folded then folded - Config.mersennePrime else folded

/-- The same permutation by 64-bit arithmetic: a 64-bit multiply-add, the folding reduction, and truncation
(R134 says it gives exactly R133). -/
def permBy64 (a b x : Word) : Word :=
  BitVec.ofNat 32
    (reduceMersenne (a.setWidth 64 * x.setWidth 64 + b.setWidth 64 : BitVec 64).toNat)

/-- Draw until a word is nonzero, at most `fuel` times. -/
def drawNonzero (g : Prng) : Nat → BitVec g.stateBits → Option (Word × BitVec g.stateBits)
  | 0, _ => none
  | fuel + 1, st =>
    let (a, st') := g.next st
    if a ≠ 0 then some (a, st') else drawNonzero g fuel st'

/-- The generation loop: for each index, `a` "retried until nonzero", then `b`, index 0 first (R131).
`none` is the hang. As many draws as the generator has states decide it: a generator that has given that many
zeros gives zeros for ever (log 2). -/
def genPerms (g : Prng) : Nat → BitVec g.stateBits → Option (List (Word × Word))
  | 0, _ => some []
  | k + 1, st =>
    match drawNonzero g (2 ^ g.stateBits) st with
    | none => none
    | some (a, st1) =>
      let (b, st2) := g.next st1
      match genPerms g k st2 with
      | none => none
      | some rest => some ((a, b) :: rest)

/-- `PermGen(seed, k)`: a fresh generator per call (R131, R132). -/
def permGen (g : Prng) (seed : Seed) (k : Nat) : Option (List (Word × Word)) := genPerms g k (g.init seed)

/-! ### HyperLogLog -/

/-- `bucket(h, P)`: the top `P` bits of `h` (R170). -/
def bucket (h : Word) (p : Nat) : Nat := extractBits h 32 (32 - p)

/-- `window(h, P) = ((h << P) & 0xFFFFFFFF) | (1 << (P - 1))` (R171). -/
def window (h : Word) (p : Nat) : Word := (h <<< p) ||| (1#32 <<< (p - 1))

/-- `rho(h, P) = lzc32(window(h, P)) + 1`, as the `u8` a register holds (R171). -/
def rho (h : Word) (p : Nat) : Byte := BitVec.ofNat 8 (lzc32 (window h p) + 1)

/-! ### Counting over slots -/

/-- The number of `i < n` at which every list of `vs` holds what `v0` holds (42_minhash.md R144,
45_hllminhash.md R193). -/
def agreeCount (n : Nat) (v0 : List Word) (vs : List (List Word)) : Nat :=
  ((List.range n).filter fun i => vs.all fun v => v[i]? == v0[i]?).length

/-- XOR over the lists of their bit `i` (43_onebit.md R161). -/
def xorAt (vs : List (List Bool)) (i : Nat) : Bool :=
  vs.foldl (fun acc v => acc ^^ v.getD i false) false

/-- The number of `i < n` at which the XOR of the lists is 1 (43_onebit.md R161). -/
def xorPopcount (n : Nat) (vs : List (List Bool)) : Nat :=
  ((List.range n).filter fun i => xorAt vs i).length

/-- A list of bits read with its head as bit 0. -/
def bitsToNat : List Bool → Nat
  | [] => 0
  | b :: rest => (if b then 1 else 0) + 2 * bitsToNat rest

/-- All of the values, or none if one is missing. -/
def collect {α : Type} : List (Option α) → Option (List α)
  | [] => some []
  | none :: _ => none
  | some a :: rest =>
    match collect rest with
    | none => none
    | some as => some (a :: as)

end Sys2Proof.Machine
end

