-- ==== Sys2Proof/Machine/Ops.lean ====
section
/-! DEFINITION. The shared operations over slots, result registers and blob memory, and the ways a command ends:
00_scope.md R10, 10_state.md R30 and R38, 20_memory.md R62 and R66, 60_exceptions.md R270 to R276. -/

namespace Sys2Proof.Machine

/-! ### Blob memory -/

/-- The byte at an address, `none` where nothing has written it since reset (10_state.md R38). -/
def Memory.read : Memory → Nat → Option Byte
  | [], _ => none
  | (x, b) :: rest, a => if a = x then some b else Memory.read rest a

/-- Write one byte, keeping the addresses strictly rising. -/
def Memory.write : Memory → Nat → Byte → Memory
  | [], a, v => [(a, v)]
  | (x, b) :: rest, a, v =>
    if a < x then (a, v) :: (x, b) :: rest
    else if a = x then (a, v) :: rest
    else (x, b) :: Memory.write rest a v

/-- Write bytes at consecutive addresses, the first at `a`. -/
def Memory.writeList : Memory → Nat → List Byte → Memory
  | m, _, [] => m
  | m, a, v :: vs => Memory.writeList (Memory.write m a v) (a + 1) vs

/-- The `n` bytes from address `a` up, if all of them have been written. -/
def Memory.readList (m : Memory) (a : Nat) : Nat → Option (List Byte)
  | 0 => some []
  | n + 1 =>
    match Memory.read m a, Memory.readList m (a + 1) n with
    | some b, some rest => some (b :: rest)
    | _, _ => none

/-- `v[8i+7:8i]` for each `i < n`: the bytes of `v`, the lowest first (R10, R62). -/
def leBytes : Nat → Nat → List Byte
  | 0, _ => []
  | n + 1, v => BitVec.ofNat 8 v :: leBytes n (v / 2 ^ 8)

/-- `sum_{i<n} b_i * 2^(8*i)` (R10, R62). -/
def leValue : List Byte → Nat
  | [] => 0
  | b :: rest => b.toNat + 2 ^ 8 * leValue rest

/-- `MemRead(o, n)` (R10). `none` where a byte is unwritten (R66). -/
def memRead (m : Memory) (o n : Nat) : Option Nat := (Memory.readList m o n).map leValue

/-- `MemWrite(o, n, v)` (R10). -/
def memWrite (m : Memory) (o n v : Nat) : Memory := Memory.writeList m o (leBytes n v)

/-- `n` little-endian `u32` values from address `a` up. -/
def readWords (m : Memory) (a : Nat) : Nat → Option (List Word)
  | 0 => some []
  | n + 1 =>
    match memRead m a 4, readWords m (a + 4) n with
    | some v, some rest => some (BitVec.ofNat 32 v :: rest)
    | _, _ => none

/-! ### Slots and result registers -/

/-- `slot[s]` (R10, R30). -/
def readSlot (n : SlotNo) (s : State) : Slot := s.slots.getD n.val .empty

/-- `slot[s] <- S` (R10, R30). It changes no other slot (R36). -/
def writeSlot (n : SlotNo) (x : Slot) (s : State) : State := { s with slots := s.slots.set n.val x }

/-- `result(v0, v1)` (R10). A command reaches it only where it ends without error. -/
def setResult (v0 v1 : Word) (s : State) : State :=
  { s with regs := { s.regs with result := v0, resultHi := v1 } }

/-- Blob memory after a serializer's writes. -/
def setBlob (m : Memory) (s : State) : State := { s with blob := m }

/-! ### How a command ends

The block has no trap (60_exceptions.md R275): an error is a completion with another code, and the next
command runs normally (R276). -/

/-- `complete(OK)` (R271). -/
def finish (s : State) : StepOutcome := .next (complete .ok s)

/-- `raise E`: the command ends with a code other than OK and only STATUS changes (R10, R272). -/
def raise (c : ResultCode) (s : State) : StepOutcome := .next (complete c s)

/-- The command never completes and STATUS.BUSY stays 1 (41_permutation.md R131, log 3). -/
def hang (s : State) : StepOutcome := .next s

/-- One check of a command's rule: where it fails the command ends with `c`, else it goes on (R271). -/
def require (ok : Bool) (c : ResultCode) (s : State) (k : StepOutcome) : StepOutcome :=
  if ok then k else raise c s

/-- "if S is not minhash: raise SlotKind". -/
def onMinHash (n : SlotNo) (s : State) (k : MinHash → StepOutcome) : StepOutcome :=
  match readSlot n s with
  | .minhash m => k m
  | _ => raise .slotKind s

/-- "if S is not hll: raise SlotKind". -/
def onHll (n : SlotNo) (s : State) (k : Hll → StepOutcome) : StepOutcome :=
  match readSlot n s with
  | .hll h => k h
  | _ => raise .slotKind s

/-- "if S is not hmh: raise SlotKind". -/
def onHmh (n : SlotNo) (s : State) (k : Hmh → StepOutcome) : StepOutcome :=
  match readSlot n s with
  | .hmh h => k h
  | _ => raise .slotKind s

/-- "if S is not onebit: raise SlotKind". -/
def onOneBit (n : SlotNo) (s : State) (k : OneBit → StepOutcome) : StepOutcome :=
  match readSlot n s with
  | .onebit b => k b
  | _ => raise .slotKind s

/-- A deserializer's read: an unwritten byte is the model fault (20_memory.md R66). -/
def onWritten {α : Type} (v : Option α) (k : α → StepOutcome) : StepOutcome :=
  match v with
  | some x => k x
  | none => .fault .unwrittenBlobByte

/-- The reset input: every piece of state takes its reset value, whatever was pending (70_reset_and_hazards.md
R300). It is no move of the host during a program (R316), so no step calls it (log 8). -/
def assertReset (s : State) : State := State.resetWith s.params

end Sys2Proof.Machine
end

