-- ==== Sys2Proof/Machine/BitOps.lean ====
section
/-! DEFINITION. The BitOps family: 40_bitops.md R123 to R125. -/

namespace Sys2Proof.Machine

/-- LZC32 (R123). -/
def execLzc32 (s : State) : StepOutcome :=
  finish (setResult (BitVec.ofNat 32 (lzc32 s.regs.arg)) 0 s)

/-- EXTRACT (R124). -/
def execExtract (hi lo : BitVec 8) (s : State) : StepOutcome :=
  require (decide (hi.toNat ≤ 32) && decide (lo.toNat ≤ hi.toNat)) .invalidArgument s <|
    finish (setResult (BitVec.ofNat 32 (extractBits s.regs.arg hi.toNat lo.toNat)) 0 s)

/-- POPCNT32 (R125). -/
def execPopcnt32 (s : State) : StepOutcome :=
  finish (setResult (BitVec.ofNat 32 (popcount32 s.regs.arg)) 0 s)

end Sys2Proof.Machine
end

