-- ==== Sys2Proof/Machine/Control.lean ====
section
/-! DEFINITION. The control and read-back family: 47_control.md R230 to R233. -/

namespace Sys2Proof.Machine

/-- NOP (R230): only the completion update. -/
def execNop (s : State) : StepOutcome := finish s

/-- CLRSTAT (R231). -/
def execClrstat (s : State) : StepOutcome := finish (clearAccumulated s)

/-- FREE (R232): any kind may be freed, including EMPTY. -/
def execFree (sa : SlotNo) (s : State) : StepOutcome := finish (writeSlot sa .empty s)

/-- The size field and the kind code INFO reports (R233, 10_state.md R30). -/
def slotInfo : Slot → Nat × Nat
  | .empty => (0, 0)
  | .minhash m => (m.k, 1)
  | .hll h => (h.p, 2)
  | .hmh h => (h.p, 3)
  | .onebit b => (b.size, 4)

/-- INFO (R233). -/
def execInfo (sa : SlotNo) (s : State) : StepOutcome :=
  let info := slotInfo (readSlot sa s)
  finish (setResult (BitVec.ofNat 32 info.1) (BitVec.ofNat 32 info.2) s)

end Sys2Proof.Machine
end

