-- ==== Sys2Proof/Machine/HyperLogLog.lean ====
section
/-! DEFINITION. The HyperLogLog family: 44_hyperloglog.md R172 to R176. -/

namespace Sys2Proof.Machine

/-- The precision checks of a creating command, the source's range before the capacity (R172, R190). -/
def requirePrecision (p : Nat) (s : State) (k : StepOutcome) : StepOutcome :=
  require (decide (4 ≤ p) && decide (p ≤ 16)) .invalidArgument s <|
  require (decide (p ≤ s.params.pmax)) .capacityExceeded s k

/-- A sketch of `2^p` zero registers (R172). -/
def freshHll (p : Nat) : Hll := { p := p, reg := List.replicate (2 ^ p) 0 }

/-- HLL_NEW (R172). -/
def execHllNew (sa : SlotNo) (p : BitVec 16) (s : State) : StepOutcome :=
  requirePrecision p.toNat s <| finish (writeSlot sa (.hll (freshHll p.toNat)) s)

/-- The registers after folding in `h`: bucket `j` becomes the larger of itself and `rho` (R173). -/
def digestRegisters (p : Nat) (reg : List Byte) (h : Word) : List Byte :=
  reg.set (bucket h p) (umax (reg.getD (bucket h p) 0) (rho h p))

/-- HLL_DIGEST (R173). -/
def execHllDigest (sa : SlotNo) (s : State) : StepOutcome :=
  onHll sa s fun h =>
    finish (writeSlot sa (.hll { h with reg := digestRegisters h.p h.reg s.regs.hash }) s)

/-- HLL_CLEAR (R174): `P` is kept. -/
def execHllClear (sa : SlotNo) (s : State) : StepOutcome :=
  onHll sa s fun h => finish (writeSlot sa (.hll (freshHll h.p)) s)

/-- HLL_MERGE (R175): slot A receives slot B. -/
def execHllMerge (sa sb : SlotNo) (s : State) : StepOutcome :=
  onHll sa s fun d =>
    onHll sb s fun o =>
      require (d.p == o.p) .incompatibleSketch s <|
        finish (writeSlot sa (.hll { d with reg := List.zipWith umax d.reg o.reg }) s)

/-- HLL_RDREG (R176). -/
def execHllRdreg (sa : SlotNo) (s : State) : StepOutcome :=
  onHll sa s fun h =>
    require (decide (argIndex s < 2 ^ h.p)) .invalidArgument s <|
      finish (setResult ((h.reg.getD (argIndex s) 0).setWidth 32) 0 s)

end Sys2Proof.Machine
end

