-- ==== Sys2Proof/Machine/HllMinHash.lean ====
section
/-! DEFINITION. The HllMinHash family: 45_hllminhash.md R190 to R195. -/

namespace Sys2Proof.Machine

/-- A sketch of `2^p` zero registers and `2^p` minValues of `MAXU32` (R190). -/
def freshHmh (p : Nat) : Hmh :=
  { p := p, reg := List.replicate (2 ^ p) 0, minv := List.replicate (2 ^ p) maxU32 }

/-- HMH_NEW (R190). -/
def execHmhNew (sa : SlotNo) (p : BitVec 16) (s : State) : StepOutcome :=
  requirePrecision p.toNat s <| finish (writeSlot sa (.hmh (freshHmh p.toNat)) s)

/-- A sketch after folding in `h`: both arrays at the one bucket, from the one window (R191). -/
def addHash (x : Hmh) (h : Word) : Hmh :=
  { x with
    reg := digestRegisters x.p x.reg h
    minv := x.minv.set (bucket h x.p) (umin (x.minv.getD (bucket h x.p) 0) (window h x.p)) }

/-- HMH_ADD (R191). -/
def execHmhAdd (sa : SlotNo) (s : State) : StepOutcome :=
  onHmh sa s fun x => finish (writeSlot sa (.hmh (addHash x s.regs.hash)) s)

/-- HMH_MERGE (R192): registers by max, minValues by min, independently. -/
def execHmhMerge (sa sb : SlotNo) (s : State) : StepOutcome :=
  onHmh sa s fun d =>
    onHmh sb s fun o =>
      require (d.p == o.p) .incompatibleSketch s <|
        finish (writeSlot sa (.hmh { d with
          reg := List.zipWith umax d.reg o.reg
          minv := List.zipWith umin d.minv o.minv }) s)

/-- HMH_AGREE (R193): buckets empty in both count as agreeing (R196). -/
def execHmhAgree (sa sb : SlotNo) (s : State) : StepOutcome :=
  onHmh sa s fun a =>
    onHmh sb s fun b =>
      require (a.p == b.p) .incompatibleSketch s <|
        finish (setResult (BitVec.ofNat 32 (agreeCount (2 ^ a.p) a.minv [b.minv]))
          (BitVec.ofNat 32 (2 ^ a.p)) s)

/-- HMH_RDREG (R194). -/
def execHmhRdreg (sa : SlotNo) (s : State) : StepOutcome :=
  onHmh sa s fun x =>
    require (decide (argIndex s < 2 ^ x.p)) .invalidArgument s <|
      finish (setResult ((x.reg.getD (argIndex s) 0).setWidth 32) 0 s)

/-- HMH_RDMIN (R195). -/
def execHmhRdmin (sa : SlotNo) (s : State) : StepOutcome :=
  onHmh sa s fun x =>
    require (decide (argIndex s < 2 ^ x.p)) .invalidArgument s <|
      finish (setResult (x.minv.getD (argIndex s) 0) 0 s)

end Sys2Proof.Machine
end

