-- ==== Sys2Proof/Machine/MinHashOps.lean ====
section
/-! DEFINITION. The MinHash family: 42_minhash.md R140 to R146. -/

namespace Sys2Proof.Machine

/-- A signature with every hash value `MAXU32` (R140, R142). -/
def freshMinHash (seed : Seed) (k : Nat) (perm : List (Word × Word)) : MinHash :=
  { seed := seed, k := k, perm := perm, hv := List.replicate k maxU32 }

/-- MH_NEW under the generator `g` (R140). It hangs where `g` does (41_permutation.md R131). -/
def mhNewWith (g : Prng) (sa : SlotNo) (s : State) : StepOutcome :=
  require (decide (0 < kOperand s)) .invalidArgument s <|
  require (decide (kOperand s ≤ s.params.kmax)) .capacityExceeded s <|
    match permGen g (seedOperand s) (kOperand s).toNat with
    | none => hang s
    | some perm => finish (writeSlot sa (.minhash (freshMinHash (seedOperand s) (kOperand s).toNat perm)) s)

/-- MH_NEW (R140). -/
def execMhNew (sa : SlotNo) (s : State) : StepOutcome := mhNewWith Config.prng sa s

/-- The hash values after folding in `h`: each becomes the smaller of itself and its permutation of `h` (R141). -/
def digestValues (perms : List (Word × Word)) (hv : List Word) (h : Word) : List Word :=
  List.zipWith (fun ab v => umin v (perm ab.1 ab.2 h)) perms hv

/-- MH_DIGEST (R141). -/
def execMhDigest (sa : SlotNo) (s : State) : StepOutcome :=
  onMinHash sa s fun m =>
    finish (writeSlot sa (.minhash { m with hv := digestValues m.perm m.hv s.regs.hash }) s)

/-- MH_CLEAR (R142): seed, k and permutations are retained. -/
def execMhClear (sa : SlotNo) (s : State) : StepOutcome :=
  onMinHash sa s fun m => finish (writeSlot sa (.minhash (freshMinHash m.seed m.k m.perm)) s)

/-- MH_MERGE (R143): slot A receives slot B; seed and k are both checked (90_conflicts.md C1). -/
def execMhMerge (sa sb : SlotNo) (s : State) : StepOutcome :=
  onMinHash sa s fun d =>
    onMinHash sb s fun o =>
      require (d.seed == o.seed && d.k == o.k) .incompatibleSketch s <|
        finish (writeSlot sa (.minhash { d with hv := List.zipWith umin d.hv o.hv }) s)

/-- The signature in a slot, if it holds one. -/
def Slot.minhash? : Slot → Option MinHash
  | .minhash m => some m
  | .empty => none
  | .hll _ => none
  | .hmh _ => none
  | .onebit _ => none

/-- The slots a mask names, in ascending order (30_encoding.md R93, D46). -/
def maskedSlots (mask : BitVec 16) (s : State) : List Slot :=
  (maskSlots mask).map fun i => s.slots.getD i .empty

/-- MH_AGREE (R144): the lowest slot of the mask is the reference. -/
def execMhAgree (mask : BitVec 16) (s : State) : StepOutcome :=
  require (decide (2 ≤ (maskSlots mask).length)) .invalidArgument s <|
    match collect ((maskedSlots mask s).map Slot.minhash?) with
    | none => raise .slotKind s
    | some [] => raise .invalidArgument s
    | some (m0 :: ms) =>
      require (ms.all fun m => m.seed == m0.seed && m.k == m0.k) .incompatibleSketch s <|
        finish (setResult (BitVec.ofNat 32 (agreeCount m0.k m0.hv (ms.map MinHash.hv)))
          (BitVec.ofNat 32 m0.k) s)

/-- MH_RDVAL (R145). -/
def execMhRdval (sa : SlotNo) (s : State) : StepOutcome :=
  onMinHash sa s fun m =>
    require (decide (argIndex s < m.k)) .invalidArgument s <|
      finish (setResult (m.hv.getD (argIndex s) 0) 0 s)

/-- RESULT and RESULT_HI of a seed: its low and high words (R146). -/
def seedResult (seed : Seed) (s : State) : StepOutcome :=
  finish (setResult (seed.extractLsb' 0 32) (seed.extractLsb' 32 32) s)

/-- MH_SEED (R146): a MINHASH or ONEBIT slot. -/
def execMhSeed (sa : SlotNo) (s : State) : StepOutcome :=
  match readSlot sa s with
  | .minhash m => seedResult m.seed s
  | .onebit b => seedResult b.seed s
  | _ => raise .slotKind s

end Sys2Proof.Machine
end

