-- ==== Sys2Proof/Machine/OneBitOps.lean ====
section
/-! DEFINITION. The one-bit MinHash family: 43_onebit.md R160 to R162. -/

namespace Sys2Proof.Machine

/-- The export of a signature: its seed, `min(k, 128)`, and the lowest bit of each hash value (R160). -/
def exportOneBit (m : MinHash) : OneBit :=
  { seed := m.seed
    size := min m.k Config.oneBitCap
    bits := (m.hv.take (min m.k Config.oneBitCap)).map fun v => v.getLsbD 0 }

/-- OB_EXPORT (R160): slot B is read before slot A is written. -/
def execObExport (sa sb : SlotNo) (s : State) : StepOutcome :=
  onMinHash sb s fun m => finish (writeSlot sa (.onebit (exportOneBit m)) s)

/-- The one-bit signature in a slot, if it holds one. -/
def Slot.onebit? : Slot → Option OneBit
  | .onebit b => some b
  | .empty => none
  | .minhash _ => none
  | .hll _ => none
  | .hmh _ => none

/-- OB_XORPOP (R161): the XOR fold, as 90_conflicts.md C3 settles. -/
def execObXorpop (mask : BitVec 16) (s : State) : StepOutcome :=
  require (decide (2 ≤ (maskSlots mask).length)) .invalidArgument s <|
    match collect ((maskedSlots mask s).map Slot.onebit?) with
    | none => raise .slotKind s
    | some [] => raise .invalidArgument s
    | some (b0 :: bs) =>
      require (bs.all fun b => b.seed == b0.seed && b.size == b0.size) .incompatibleSketch s <|
        finish (setResult (BitVec.ofNat 32 (xorPopcount b0.size (b0.bits :: bs.map OneBit.bits)))
          (BitVec.ofNat 32 b0.size) s)

/-- Word `w` of a one-bit signature; positions at or above `size` read 0 (R162). -/
def oneBitWord (b : OneBit) (w : Nat) : Word :=
  BitVec.ofNat 32 (bitsToNat (((b.bits.take b.size).drop (32 * w)).take 32))

/-- OB_RDWORD (R162). -/
def execObRdword (sa : SlotNo) (s : State) : StepOutcome :=
  onOneBit sa s fun b =>
    require (decide (argIndex s ≤ 3)) .invalidArgument s <|
      finish (setResult (oneBitWord b (argIndex s)) 0 s)

end Sys2Proof.Machine
end

