-- ==== Sys2Proof/Machine/Permutation.lean ====
section
/-! DEFINITION. The permutation family: 41_permutation.md R135 and R136. -/

namespace Sys2Proof.Machine

/-- MH_PERM (R135): permutation ARG of slot A at HASH. -/
def execMhPerm (sa : SlotNo) (s : State) : StepOutcome :=
  onMinHash sa s fun m =>
    require (decide (argIndex s < m.k)) .invalidArgument s <|
      let ab := m.perm.getD (argIndex s) (0, 0)
      finish (setResult (perm ab.1 ab.2 s.regs.hash) 0 s)

/-- MH_RDPERM (R136): the parameters of permutation ARG. -/
def execMhRdperm (sa : SlotNo) (s : State) : StepOutcome :=
  onMinHash sa s fun m =>
    require (decide (argIndex s < m.k)) .invalidArgument s <|
      let ab := m.perm.getD (argIndex s) (0, 0)
      finish (setResult ab.1 ab.2 s)

end Sys2Proof.Machine
end

