-- ==== Sys2Proof/Machine/Serdes.lean ====
section
/-! DEFINITION. The serializer and deserializer family: 46_serdes.md R210 to R216. The buffer is blob bytes
`[0, L)` with `L = x[BLOB_LEN]` (R210). -/

namespace Sys2Proof.Machine

/-- The MinHash blob's byte size, `12 + 4k`, computed exactly (R211). -/
def mhBlobSize (k : Nat) : Nat := 12 + 4 * k

/-- The HyperLogLog blob's byte size, `1 + 2^P` (R212). -/
def hllBlobSize (p : Nat) : Nat := 1 + 2 ^ p

/-- The MinHash blob: seed, `k`, hash values, little-endian (R211). -/
def mhBlob (m : MinHash) : List Byte :=
  leBytes 8 m.seed.toNat ++ leBytes 4 m.k ++ m.hv.flatMap fun v => leBytes 4 v.toNat

/-- The HyperLogLog blob: `P`, then the register bytes in order (R212). -/
def hllBlob (h : Hll) : List Byte := leBytes 1 h.p ++ h.reg

/-- The checks of a serializer after the slot's kind, and its effect: the blob's bytes from offset 0 up and
RESULT = its size (R210, R213, R215, 90_conflicts.md C9). -/
def serialize (size : Nat) (bytes : List Byte) (s : State) : StepOutcome :=
  require (decide (bufferLen s ≤ s.params.blobBytes)) .invalidArgument s <|
  require (decide (size ≤ bufferLen s)) .bufferTooSmall s <|
    finish (setResult (BitVec.ofNat 32 size) 0 (setBlob (Memory.writeList s.blob 0 bytes) s))

/-- MH_SER (R213). -/
def execMhSer (sa : SlotNo) (s : State) : StepOutcome :=
  onMinHash sa s fun m => serialize (mhBlobSize m.k) (mhBlob m) s

/-- MH_DES under the generator `g` (R214): the checks in the rule's order, then the seed and the hash values,
then the regenerated permutations. -/
def mhDesWith (g : Prng) (sa : SlotNo) (s : State) : StepOutcome :=
  require (decide (bufferLen s ≤ s.params.blobBytes)) .invalidArgument s <|
  require (decide (12 ≤ bufferLen s)) .truncatedBuffer s <|
  onWritten (memRead s.blob 8 4) fun k =>
  require (decide (k ≠ 0)) .invalidArgument s <|
  require (decide (mhBlobSize k ≤ bufferLen s)) .truncatedBuffer s <|
  require (decide (k ≤ s.params.kmax)) .capacityExceeded s <|
  onWritten (memRead s.blob 0 8) fun seed =>
  onWritten (readWords s.blob 12 k) fun hv =>
    match permGen g (BitVec.ofNat 64 seed) k with
    | none => hang s
    | some perm =>
      finish (setResult (BitVec.ofNat 32 (mhBlobSize k)) 0
        (writeSlot sa (.minhash { seed := BitVec.ofNat 64 seed, k := k, perm := perm, hv := hv }) s))

/-- MH_DES (R214). -/
def execMhDes (sa : SlotNo) (s : State) : StepOutcome := mhDesWith Config.prng sa s

/-- HLL_SER (R215). -/
def execHllSer (sa : SlotNo) (s : State) : StepOutcome :=
  onHll sa s fun h => serialize (hllBlobSize h.p) (hllBlob h) s

/-- HLL_DES (R216): the checks in the rule's order, then the registers as they are. -/
def execHllDes (sa : SlotNo) (s : State) : StepOutcome :=
  require (decide (bufferLen s ≤ s.params.blobBytes)) .invalidArgument s <|
  require (decide (1 ≤ bufferLen s)) .truncatedBuffer s <|
  onWritten (memRead s.blob 0 1) fun p =>
  require (decide (4 ≤ p) && decide (p ≤ 16)) .invalidArgument s <|
  require (decide (hllBlobSize p ≤ bufferLen s)) .truncatedBuffer s <|
  require (decide (p ≤ s.params.pmax)) .capacityExceeded s <|
  onWritten (Memory.readList s.blob 1 (2 ^ p)) fun reg =>
    finish (setResult (BitVec.ofNat 32 (hllBlobSize p)) 0 (writeSlot sa (.hll { p := p, reg := reg }) s))

end Sys2Proof.Machine
end

