-- ==== Sys2Proof/Machine/Dispatch.lean ====
section
/-! DEFINITION. One arm per command of 30_encoding.md R95. -/

namespace Sys2Proof.Machine

def exec (i : Instr) (s : State) : Host.Outcome State Fault Refusal :=
  match i with
  -- control
  | .nop => Sys2Proof.Machine.execNop s
  | .clrstat => Sys2Proof.Machine.execClrstat s
  | .free sa => Sys2Proof.Machine.execFree sa s
  | .info sa => Sys2Proof.Machine.execInfo sa s
  -- bit operations
  | .lzc32 => Sys2Proof.Machine.execLzc32 s
  | .extract hi lo => Sys2Proof.Machine.execExtract hi lo s
  | .popcnt32 => Sys2Proof.Machine.execPopcnt32 s
  -- permutations
  | .mhPerm sa => Sys2Proof.Machine.execMhPerm sa s
  | .mhRdperm sa => Sys2Proof.Machine.execMhRdperm sa s
  -- MinHash
  | .mhNew sa => Sys2Proof.Machine.execMhNew sa s
  | .mhDigest sa => Sys2Proof.Machine.execMhDigest sa s
  | .mhClear sa => Sys2Proof.Machine.execMhClear sa s
  | .mhMerge sa sb => Sys2Proof.Machine.execMhMerge sa sb s
  | .mhAgree mask => Sys2Proof.Machine.execMhAgree mask s
  | .mhRdval sa => Sys2Proof.Machine.execMhRdval sa s
  | .mhSeed sa => Sys2Proof.Machine.execMhSeed sa s
  -- one-bit MinHash
  | .obExport sa sb => Sys2Proof.Machine.execObExport sa sb s
  | .obXorpop mask => Sys2Proof.Machine.execObXorpop mask s
  | .obRdword sa => Sys2Proof.Machine.execObRdword sa s
  -- HyperLogLog
  | .hllNew sa p => Sys2Proof.Machine.execHllNew sa p s
  | .hllDigest sa => Sys2Proof.Machine.execHllDigest sa s
  | .hllClear sa => Sys2Proof.Machine.execHllClear sa s
  | .hllMerge sa sb => Sys2Proof.Machine.execHllMerge sa sb s
  | .hllRdreg sa => Sys2Proof.Machine.execHllRdreg sa s
  -- HllMinHash
  | .hmhNew sa p => Sys2Proof.Machine.execHmhNew sa p s
  | .hmhAdd sa => Sys2Proof.Machine.execHmhAdd sa s
  | .hmhMerge sa sb => Sys2Proof.Machine.execHmhMerge sa sb s
  | .hmhAgree sa sb => Sys2Proof.Machine.execHmhAgree sa sb s
  | .hmhRdreg sa => Sys2Proof.Machine.execHmhRdreg sa s
  | .hmhRdmin sa => Sys2Proof.Machine.execHmhRdmin sa s
  -- serializer and deserializer
  | .mhSer sa => Sys2Proof.Machine.execMhSer sa s
  | .mhDes sa => Sys2Proof.Machine.execMhDes sa s
  | .hllSer sa => Sys2Proof.Machine.execHllSer sa s
  | .hllDes sa => Sys2Proof.Machine.execHllDes sa s

end Sys2Proof.Machine
end

