-- ==== Sys2Proof/Machine/Engine.lean ====
section
/-! DEFINITION. The engine's step: 20_memory.md R70, 60_exceptions.md R271. -/

namespace Sys2Proof.Machine

/-- The engine step for an accepted word (R271): a command runs, an Illegal word completes with
IllegalCommand. -/
def runCommand (w : Word) (s : State) : StepOutcome :=
  match decode s.params.nslot w with
  | .error _ => raise .illegalCommand s
  | .ok i => exec i s

/-- The engine's turn: the pending command's whole step (R70); with nothing pending the block is idle
(60_exceptions.md R284). -/
def engineTurn (s : State) : StepOutcome :=
  match s.pending with
  | none => .next s
  | some w => runCommand w s

end Sys2Proof.Machine
end

