-- ==== Sys2Proof/Machine/HostBus.lean ====
section
/-! DEFINITION. The host's side: 10_state.md R20 to R24, 20_memory.md R60 to R67 and R71, 30_encoding.md R99,
70_reset_and_hazards.md R310. -/

namespace Sys2Proof.Machine

/-! ### Offsets (R20, R61) -/

/-- The first offset of the blob window (R61). -/
def blobBase : Nat := 0x80000

/-- The bytes of an access (R60). -/
def Width.bytes : Width → Nat
  | .byte => 1
  | .half => 2
  | .word => 4

/-- The legal accesses (R63). -/
def legalAccess (off : BitVec 20) (w : Width) : Bool :=
  if off.toNat < blobBase then w == .word && off.toNat % 4 == 0
  else off.toNat % w.bytes == 0

/-! ### Reads -/

/-- A register whose value is open while BUSY = 1 (R71): a free value then, its own value otherwise. -/
def openRead (v : Word) (s : State) : Word × State :=
  if s.status.busy then (Config.freeWord s.draws, { s with draws := s.draws + 1 }) else (v, s)

/-- CAP0: NSLOT in bits 7:0, PMAX in bits 15:8 (R23). -/
def cap0 (p : Params) : Word := BitVec.ofNat 32 (p.nslot + p.pmax * 2 ^ 8)

/-- A 4-byte read below the blob window (R20 to R26, R61, R71). Every offset not listed is reserved and
reads 0. -/
def readRegister (off : Nat) (s : State) : Word × State :=
  match off with
  | 0x000 => (Config.idValue, s)
  | 0x004 => (cap0 s.params, s)
  | 0x008 => (BitVec.ofNat 32 s.params.kmax, s)
  | 0x00C => (BitVec.ofNat 32 s.params.blobBytes, s)
  | 0x010 => (0, s)
  | 0x014 => (statusWord s.status, s)
  | 0x018 => (s.regs.arg, s)
  | 0x01C => (s.regs.hash, s)
  | 0x020 => (s.regs.seedLo, s)
  | 0x024 => (s.regs.seedHi, s)
  | 0x028 => (s.regs.blobLen, s)
  | 0x02C => openRead s.regs.result s
  | 0x030 => openRead s.regs.resultHi s
  | _ => (0, s)

/-- The byte a read of blob address `a` gives, where `open?` is the free byte that stands for it while BUSY = 1:
0 at or above the limit (R63), a fault where nothing has written it (R66, log 9), else the free byte or
the byte itself. -/
def blobByte (s : State) (a : Nat) (open? : Byte) : Option Byte :=
  if s.params.blobBytes ≤ a then some 0
  else match Memory.read s.blob a with
    | none => none
    | some b => some (if s.status.busy then open? else b)

/-- The `n` bytes of a blob-window read from address `a` up. -/
def blobBytesAt (s : State) : Nat → List Byte → Option (List Byte)
  | _, [] => some []
  | a, o :: os =>
    match blobByte s a o, blobBytesAt s (a + 1) os with
    | some b, some rest => some (b :: rest)
    | _, _ => none

/-- A read through the blob window (R61, R62, R63, R66, R71). -/
def readBlob (a n : Nat) (s : State) : Except Fault (Word × State) :=
  match blobBytesAt s a (leBytes n (Config.freeWord s.draws).toNat) with
  | none => .error .unwrittenBlobByte
  | some bytes =>
    .ok (BitVec.ofNat 32 (leValue bytes), if s.status.busy then { s with draws := s.draws + 1 } else s)

/-- A legal read. It has no side effect (R67). -/
def busRead (off : BitVec 20) (w : Width) (s : State) : Except Fault (Word × State) :=
  if off.toNat < blobBase then .ok (readRegister off.toNat s)
  else readBlob (off.toNat - blobBase) w.bytes s

/-! ### Writes -/

/-- A 4-byte write below the blob window while BUSY = 0 (R20, R21, R24, R61): the operand registers store,
CMD issues, read-only registers and reserved offsets ignore it. -/
def writeRegister (off : Nat) (v : Word) (s : State) : State :=
  match off with
  | 0x010 => acceptCommand v s
  | 0x018 => { s with regs := { s.regs with arg := v } }
  | 0x01C => { s with regs := { s.regs with hash := v } }
  | 0x020 => { s with regs := { s.regs with seedLo := v } }
  | 0x024 => { s with regs := { s.regs with seedHi := v } }
  | 0x028 => { s with regs := { s.regs with blobLen := v } }
  | _ => s

/-- A write through the blob window: the bytes below the limit are stored, those at or above it are ignored
(R61, R62, R63). -/
def writeBlob (a n : Nat) (v : Word) (s : State) : State :=
  setBlob (Memory.writeList s.blob a ((leBytes n v.toNat).take (s.params.blobBytes - a))) s

/-- A legal write: while BUSY = 1 it is ignored and sets OVR (R310). -/
def busWrite (off : BitVec 20) (w : Width) (v : Word) (s : State) : State :=
  if s.status.busy then ignoreWrite s
  else if off.toNat < blobBase then writeRegister off.toNat v s
  else writeBlob (off.toNat - blobBase) w.bytes v s

/-! ### The host's turn -/

/-- The data an answer carries: "BUSERR ... returns data 0 for a read" (R64). -/
def Reply.value : Reply → Word
  | .data v => v
  | .done => 0
  | .buserr => 0

/-- The host notes what it sent and got back (R60, R316). -/
def record (a : Access) (r : Reply) (s : State) : State :=
  { s with host := { s.host with log := ⟨a, r⟩ :: s.host.log } }

/-- The rest of the host's program. -/
def setProg (prog : List HostOp) (s : State) : State := { s with host := { s.host with prog := prog } }

/-- A read: an illegal one gives BUSERR and changes nothing (R64). -/
def hostRead (off : BitVec 20) (w : Width) (s : State) : StepOutcome :=
  if legalAccess off w then
    match busRead off w s with
    | .error f => .fault f
    | .ok (v, s') => .next (record (.read off w) (.data v) s')
  else .next (record (.read off w) .buserr s)

/-- A write: an illegal one gives BUSERR and changes nothing, STATUS included (R64, log 12). -/
def hostWrite (off : BitVec 20) (w : Width) (v : Word) (s : State) : StepOutcome :=
  if legalAccess off w then .next (record (.write off w v) .done (busWrite off w v s))
  else .next (record (.write off w v) .buserr s)

/-- The offset of STATUS (R20). -/
def statusOffset : BitVec 20 := 0x014#20

/-- The host's turn: its next access, or one turn of `L: rd STATUS; if bit 0 = 1 goto L` (R99). A host whose
program is over does nothing. -/
def hostTurn (s : State) : StepOutcome :=
  match s.host.prog with
  | [] => .next s
  | .access (.read off w) :: rest => hostRead off w (setProg rest s)
  | .access (.write off w v) :: rest => hostWrite off w v (setProg rest s)
  | .poll :: rest => hostRead statusOffset .word (if s.status.busy then s else setProg rest s)

/-! ### Host program syntax (R99) -/

/-- `wr REG, v`, by the register's offset. -/
def wr (off : BitVec 20) (v : Word) : HostOp := .access (.write off .word v)

/-- `rd REG`, by the register's offset. -/
def rd (off : BitVec 20) : HostOp := .access (.read off .word)

/-- `wrb o, n, v`. -/
def wrb (o : BitVec 19) (n : Width) (v : Word) : HostOp :=
  .access (.write (BitVec.ofNat 20 (blobBase + o.toNat)) n v)

/-- `rdb o, n`. -/
def rdb (o : BitVec 19) (n : Width) : HostOp := .access (.read (BitVec.ofNat 20 (blobBase + o.toNat)) n)

/-- The offset of CMD (R20). -/
def cmdOffset : BitVec 20 := 0x010#20

/-- `issue C`: `wr CMD, enc(C)`. -/
def issueCommand (i : Instr) : List HostOp := [wr cmdOffset (encode i)]

/-- `do C`: `wr CMD, enc(C); poll`. -/
def doCommand (i : Instr) : List HostOp := [wr cmdOffset (encode i), .poll]

end Sys2Proof.Machine
end

