-- ==== Sys2Proof/Machine/Step.lean ====
section
/-! DEFINITION. One step of the machine: one agent's move in the interleaving (20_memory.md R69). -/

namespace Sys2Proof.Machine

/-- The agent that moves: the schedule's next, or, with the schedule used up, the engine where a command is
pending (70_reset_and_hazards.md R313: finitely many host steps come before it) and the host otherwise (log 4). -/
def nextAgent (s : State) : Agent :=
  match s.host.sched with
  | a :: _ => a
  | [] => if s.pending.isSome then .engine else .host

/-- The schedule moves on by one. -/
def popTurn (s : State) : State := { s with host := { s.host with sched := s.host.sched.tail } }

/-- One step (00_scope.md R14): a host access or a whole command. -/
def step (s : State) : Host.Outcome State Fault Refusal :=
  match nextAgent s with
  | .engine => engineTurn (popTurn s)
  | .host => hostTurn (popTurn s)

/-- The state in which the next step runs the command word `w`: CMD has accepted it and the engine moves next
(log 10). A command is 32 bits (30_encoding.md R90). -/
def State.withFetchWord (s : State) (nbits w : Nat) : State :=
  let s' := acceptCommand (BitVec.ofNat 32 (w % 2 ^ nbits)) s
  { s' with host := { s'.host with sched := .engine :: s'.host.sched } }

end Sys2Proof.Machine
end

