-- ==== Sys2Proof/Machine/Estimators.lean ====
section
/-! DEFINITION. The host-side estimators: 48_host_estimators.md R240 to R258. They are not hardware
(00_scope.md R4): no step uses them. Arithmetic is exact, as the file's preamble says (log 11). -/

namespace Sys2Proof.Machine.Estimate

/-- `alpha(m)` (R240). -/
noncomputable def alpha (m : ℕ) : ℝ :=
  if m = 16 then 0.673
  else if m = 32 then 0.697
  else if m = 64 then 0.709
  else 0.7213 / (1 + 1.079 / m)

/-- The raw estimate `E = alpha(M) * M^2 / sum 2^(-reg[i])` (R241). -/
noncomputable def rawEstimate (reg : List Byte) : ℝ :=
  alpha reg.length * (reg.length : ℝ) ^ 2 / (reg.map fun r => ((2 : ℝ) ^ r.toNat)⁻¹).sum

/-- `V`, the number of zero registers (R241). -/
def zeroRegisters (reg : List Byte) : ℕ := reg.countP fun r => r == 0

open Classical in
/-- `countRegs(reg)`, the four regimes in the order R241 gives them. At `E >= 2^32` the value is open (I15). -/
noncomputable def countRegs (reg : List Byte) : ℝ :=
  let m : ℝ := reg.length
  let e := rawEstimate reg
  if e ≤ 2.5 * m ∧ 0 < zeroRegisters reg then m * Real.log (m / zeroRegisters reg)
  else if e ≤ 2.5 * m then e
  else if e < 2 ^ 32 / 30 then e
  else if e < 2 ^ 32 then -(2 ^ 32) * Real.log (1 - e / 2 ^ 32)
  else Config.largeRangeOverflow e

/-- `count(h)` of an HLL sketch (R242). -/
noncomputable def count (h : Hll) : ℝ := countRegs h.reg

/-- The element-wise maximum over all register arrays (R243). -/
def unionRegisters : Hll → List Hll → List Byte
  | h, [] => h.reg
  | h, x :: rest => List.zipWith umax h.reg (unionRegisters x rest)

/-- `unionCount(h_1, ..., h_n)`: fewer than 2 is InvalidArgument, differing precisions IncompatibleSketch
(R243, 90_conflicts.md C4). -/
noncomputable def unionCount : List Hll → Except ResultCode ℝ
  | [] => .error .invalidArgument
  | [_] => .error .invalidArgument
  | h :: x :: rest =>
    if (x :: rest).all fun y => y.p == h.p then .ok (countRegs (unionRegisters h (x :: rest)))
    else .error .incompatibleSketch

/-- `intersectionCount(a, b) = count(a) + count(b) - unionCount(a, b)`, not clamped (R244). -/
noncomputable def intersectionCount (a b : Hll) : Except ResultCode ℝ :=
  (unionCount [a, b]).map fun u => count a + count b - u

open Classical in
/-- HyperLogLog `Jaccard(a, b)`; an empty union yields 1 (R245). -/
noncomputable def jaccard (a b : Hll) : Except ResultCode ℝ :=
  (unionCount [a, b]).map fun u => if u = 0 then 1 else (count a + count b - u) / u

open Classical in
/-- HyperLogLog `Inclusion(a, b)`; an empty union yields 1, and an empty `a` beside a union that is not empty
the open value (R246, I14). -/
noncomputable def inclusion (a b : Hll) : Except ResultCode ℝ :=
  (unionCount [a, b]).map fun u =>
    if u = 0 then 1
    else if count a = 0 then Config.inclusionEmptyA
    else (count a + count b - u) / count a

/-- HllMinHash `count()`: the same estimator over the slot's registers (R247). -/
noncomputable def hmhCount (x : Hmh) : ℝ := countRegs x.reg

/-- MinHash `Jaccard`, from RESULT and RESULT_HI of MH_AGREE (R250). -/
def minhashJaccard (agree k : Word) : ℚ := agree.toNat / k.toNat

/-- `JaccardOneBit`, from RESULT and RESULT_HI of OB_XORPOP (R251). -/
def oneBitJaccard (pc size : Word) : ℚ := 2 * (((size.toNat : ℚ) - pc.toNat) / size.toNat - 1 / 2)

/-- HllMinHash `Jaccard`, from RESULT and RESULT_HI of HMH_AGREE (R258). -/
def hmhJaccard (agree m : Word) : ℚ := agree.toNat / m.toNat

end Sys2Proof.Machine.Estimate
end

