-- ==== Sys2Proof/Safety.lean ====
section
/-! DEFINITION. The terms claims use: the invariant of every reachable state (10_state.md R26, R31 to R34, R38,
R39), the launch premise CleanIdle (70_reset_and_hazards.md R317), whole, and the end of a run (R315). -/

namespace Sys2Proof.Machine

/-- The sizes of a MinHash slot (R31). -/
abbrev MinHash.shaped (p : Params) (m : MinHash) : Prop :=
  (1 ≤ m.k ∧ m.k ≤ p.kmax) ∧ m.perm.length = m.k ∧ m.hv.length = m.k

/-- The sizes of an HLL slot (R32). -/
abbrev Hll.shaped (p : Params) (h : Hll) : Prop := (4 ≤ h.p ∧ h.p ≤ p.pmax) ∧ h.reg.length = 2 ^ h.p

/-- The sizes of an HMH slot (R33). -/
abbrev Hmh.shaped (p : Params) (x : Hmh) : Prop :=
  (4 ≤ x.p ∧ x.p ≤ p.pmax) ∧ x.reg.length = 2 ^ x.p ∧ x.minv.length = 2 ^ x.p

/-- The sizes of a ONEBIT slot (R34). -/
abbrev OneBit.shaped (p : Params) (b : OneBit) : Prop :=
  (1 ≤ b.size ∧ b.size ≤ min p.kmax Config.oneBitCap) ∧ b.bits.length = b.size

/-- Both arrays of an HMH bucket tell the same story: an empty bucket holds 0 and MAXU32, any other bucket's
register is one more than its minimum's leading zeros (45_hllminhash.md R191, R196). -/
abbrev Hmh.coupled (x : Hmh) : Prop :=
  ∀ j < 2 ^ x.p, if x.minv.getD j 0 = maxU32 then x.reg.getD j 0 = 0
    else (x.reg.getD j 0).toNat = lzc32 (x.minv.getD j 0) + 1

/-- The sizes of whatever a slot holds (R31 to R34). -/
def Slot.shaped (p : Params) : Slot → Bool
  | .empty => true
  | .minhash m => decide (m.shaped p)
  | .hll h => decide (h.shaped p)
  | .hmh x => decide (x.shaped p)
  | .onebit b => decide (b.shaped p)

/-- What else a slot keeps: a MinHash slot's permutations are those its seed and `k` generate, none with `a = 0`
(R31), and an HMH slot's arrays agree (R33, R191, R196). -/
def Slot.consistent : Slot → Prop
  | .empty => True
  | .minhash m => (∀ ab ∈ m.perm, ab.1 ≠ 0) ∧ permGen Config.prng m.seed m.k = some m.perm
  | .hll _ => True
  | .hmh x => x.coupled
  | .onebit _ => True

/-- The invariants of STATUS beside the pending command: BUSY exactly while a command is pending (R39), ERR
exactly when CODE is not OK and STICKY with it (R26, R27), and a raced write seen in OVR while BUSY (R310). -/
abbrev State.statusWf (s : State) : Prop :=
  s.status.busy = s.pending.isSome ∧ s.status.err = decide (s.status.code ≠ .ok) ∧
  (s.status.err = true → s.status.sticky = true) ∧
  (s.raced = true → s.status.busy = true ∧ s.status.ovr = true)

/-- The invariants of blob memory: canonical, and no address at or above BLOB_BYTES (R38). -/
abbrev State.blobWf (s : State) : Prop :=
  Memory.wf s.blob = true ∧ ∀ c ∈ s.blob, c.1 < s.params.blobBytes

/-- There are NSLOT slots and each has the sizes of its kind (R30 to R34, R37). -/
abbrev State.slotsShaped (s : State) : Prop :=
  s.slots.length = s.params.nslot ∧ ∀ x ∈ s.slots, x.shaped s.params = true

/-- What holds in every state a run from reset reaches. -/
structure State.Inv (s : State) : Prop where
  params : s.params.wf
  slots : s.slotsShaped
  sketches : ∀ x ∈ s.slots, x.consistent
  blob : s.blobWf
  status : s.statusWf

/-! ### Runs -/

/-- A state in which a run of the host's program may end: the program has made its last access, and that was a
STATUS read that returned BUSY = 0 (R315). -/
def State.final (s : State) : Bool :=
  s.host.prog.isEmpty &&
  match s.host.log with
  | ⟨.read off .word, .data v⟩ :: _ => off == statusOffset && !v.getLsbD 0
  | _ => false

/-- `s` reaches `t` in `n` steps, and no model fault occurred (R315). -/
def runsTo (s : State) (n : Nat) (t : State) : Prop := Sys2Proof.core.run n s = .next t

/-- A finished run from `s` ends in `t` (R315). -/
def endsIn (s t : State) : Prop := t.final = true ∧ ∃ n, runsTo s n t

/-! ### The launch premise (R317) -/

/-- CleanIdle's first clause: BUSY = 0, `pending = none`, STICKY = 0 and OVR = 0 (R317). -/
def State.cleanIdle (s : State) : Bool :=
  !s.status.busy && s.pending.isNone && !s.status.sticky && !s.status.ovr

/-- The slot a creating command creates (10_state.md R30). -/
def createdSlot : Instr → Option SlotNo
  | .mhNew sa => some sa
  | .mhDes sa => some sa
  | .obExport sa _ => some sa
  | .hllNew sa _ => some sa
  | .hllDes sa => some sa
  | .hmhNew sa _ => some sa
  | _ => none

/-- The slots of a mask, as slot numbers (30_encoding.md R93). -/
def maskSlotNos (mask : BitVec 16) : List SlotNo := (maskSlots mask).map (Fin.ofNat 16)

/-- The slots whose content a command reads ("S <- slot[s]" in the rule of each). -/
def slotsRead : Instr → List SlotNo
  | .nop => []
  | .clrstat => []
  | .free _ => []
  | .info sa => [sa]
  | .lzc32 => []
  | .extract _ _ => []
  | .popcnt32 => []
  | .mhPerm sa => [sa]
  | .mhRdperm sa => [sa]
  | .mhNew _ => []
  | .mhDigest sa => [sa]
  | .mhClear sa => [sa]
  | .mhMerge sa sb => [sa, sb]
  | .mhAgree mask => maskSlotNos mask
  | .mhRdval sa => [sa]
  | .mhSeed sa => [sa]
  | .obExport _ sb => [sb]
  | .obXorpop mask => maskSlotNos mask
  | .obRdword sa => [sa]
  | .hllNew _ _ => []
  | .hllDigest sa => [sa]
  | .hllClear sa => [sa]
  | .hllMerge sa sb => [sa, sb]
  | .hllRdreg sa => [sa]
  | .hmhNew _ _ => []
  | .hmhAdd sa => [sa]
  | .hmhMerge sa sb => [sa, sb]
  | .hmhAgree sa sb => [sa, sb]
  | .hmhRdreg sa => [sa]
  | .hmhRdmin sa => [sa]
  | .mhSer sa => [sa]
  | .mhDes _ => []
  | .hllSer sa => [sa]
  | .hllDes _ => []

/-- The blob bytes a command deserializes: the length field once the buffer may hold it, the whole blob once every
check on it has passed (46_serdes.md R214, R216). -/
def bytesDeserialized (i : Instr) (s : State) : List Nat :=
  match i with
  | .mhDes _ =>
    if bufferLen s ≤ s.params.blobBytes ∧ 12 ≤ bufferLen s then
      match memRead s.blob 8 4 with
      | none => List.range' 8 4
      | some k =>
        if k ≠ 0 ∧ mhBlobSize k ≤ bufferLen s ∧ k ≤ s.params.kmax then List.range (mhBlobSize k) else List.range' 8 4
    else []
  | .hllDes _ =>
    if bufferLen s ≤ s.params.blobBytes ∧ 1 ≤ bufferLen s then
      match memRead s.blob 0 1 with
      | none => [0]
      | some p =>
        if (4 ≤ p ∧ p ≤ 16) ∧ hllBlobSize p ≤ bufferLen s ∧ p ≤ s.params.pmax then List.range (hllBlobSize p) else [0]
    else []
  | _ => []

/-- The blob bytes a serializer writes (46_serdes.md R213, R215). -/
def bytesSerialized (i : Instr) (s : State) : List Nat :=
  match i with
  | .mhSer sa =>
    match readSlot sa s with
    | .minhash m => List.range (mhBlob m).length
    | _ => []
  | .hllSer sa =>
    match readSlot sa s with
    | .hll h => List.range (hllBlob h).length
    | _ => []
  | _ => []

/-- The blob bytes the host's next access writes: those of an accepted write through the blob window
(20_memory.md R61, R63). -/
def bytesHostWrites (s : State) : List Nat :=
  match s.host.prog with
  | .access (.write off w _) :: _ =>
    if legalAccess off w && !s.status.busy && decide (blobBase ≤ off.toNat) then
      (List.range' (off.toNat - blobBase) w.bytes).filter fun a => a < s.params.blobBytes
    else []
  | _ => []

/-- The command the next step runs, if it is the engine's and the pending word is legal. -/
def nextCommand (s : State) : Option Instr :=
  match nextAgent s with
  | .host => none
  | .engine => s.pending.bind fun w => (decode s.params.nslot w).toOption

/-- Where a run's data comes from: the slots whose sketch the claim's own commands have created, and the blob bytes
its program has written. A note beside the run, no part of State. -/
structure Provenance where
  created : List SlotNo
  written : List Nat
  deriving DecidableEq, Repr

/-- The slots still the claim's own after a command that completed OK: one it creates becomes the claim's if the claim
lists the command (`own`), and is the claim's no longer if not. -/
def Provenance.claim (v : Provenance) (own : Instr → Bool) (i : Instr) : List SlotNo :=
  match createdSlot i with
  | none => v.created
  | some n => if own i then n :: v.created else v.created.filter fun x => x ≠ n

/-- A command's step ended in `t` with code OK (10_state.md R27). -/
abbrev State.completedOk (t : State) : Prop := t.status.code = .ok ∧ t.pending = none

/-- What one step from `s` to `t` notes: the slot of a creating command that completed OK, and the bytes a serializer
or the host wrote. `own` says which commands the claim lists. -/
def Provenance.advance (own : Instr → Bool) (v : Provenance) (s t : State) : Provenance :=
  match nextAgent s with
  | .host => { v with written := bytesHostWrites s ++ v.written }
  | .engine =>
    match nextCommand s with
    | none => v
    | some i =>
      if t.completedOk then { created := v.claim own i, written := bytesSerialized i s ++ v.written }
      else v

/-- `n` steps, with the provenance beside the state. -/
def traceFrom (own : Instr → Bool) : Nat → State → Provenance → Option (State × Provenance)
  | 0, s, v => some (s, v)
  | n + 1, s, v =>
    match step s with
    | .next t => traceFrom own n t (v.advance own s t)
    | .fault _ => none
    | .refused _ => none

/-- What a claim says beside its program: the commands it lists as run before it, and the slots whose content it speaks
of at the launch and at the end of a run. -/
structure ClaimTerms where
  listed : List Instr
  atLaunch : List SlotNo
  atEnd : List SlotNo
  deriving DecidableEq, Repr

/-- `s` comes from a run, of any host from any state, in which the commands `listed` created the slots `created`: they
ran, completed OK, and what each of these slots holds is the sketch so made, or what later commands have made of it.
Then the claim's host took over. -/
def State.createdBefore (s : State) (listed : List Instr) (created : List SlotNo) : Prop :=
  ∃ (r : State) (n : Nat) (t : State) (v : Provenance),
    traceFrom (fun i => decide (i ∈ listed)) n r ⟨[], []⟩ = some (t, v) ∧ v.created = created ∧
      { t with host := s.host } = s

/-- What slot `n` holds is the claim's own. An EMPTY slot holds no sketch (log 17). -/
def Provenance.owns (v : Provenance) (n : SlotNo) (s : State) : Prop := readSlot n s = .empty ∨ n ∈ v.created

/-- Every sketch that the next step reads is the claim's own, and every blob byte that it deserializes was written by
the program. An unwritten byte is the fault of R66 (log 17). -/
def Provenance.covers (v : Provenance) (s : State) : Prop :=
  (∀ n ∈ ((nextCommand s).map slotsRead).getD [], v.owns n s) ∧
  (∀ a ∈ ((nextCommand s).map fun i => bytesDeserialized i s).getD [], Memory.read s.blob a = none ∨ a ∈ v.written)

/-- The whole launch premise CleanIdle (R317) of a claim whose host program and schedule stand in `s`: its first
clause holds, the run that led to `s` shows which slots the listed commands created, and all that the claim reads, at
the launch, along the run and at its end, is its own. The commands of the program are the claim's own as well. -/
structure State.launch (c : ClaimTerms) (s : State) : Prop where
  idle : s.cleanIdle = true
  sourced : ∃ created, s.createdBefore c.listed created ∧
    (∀ n ∈ c.atLaunch, (⟨created, []⟩ : Provenance).owns n s) ∧
    ∀ n t v, traceFrom (fun _ => true) n s ⟨created, []⟩ = some (t, v) →
      v.covers t ∧ (t.final = true → ∀ n ∈ c.atEnd, v.owns n t)

/-! ### The generator -/

/-- Draw number `n` (from 0) of the generator from state `st`, and the state it leaves. -/
def drawAt (g : Prng) : Nat → BitVec g.stateBits → Word × BitVec g.stateBits
  | 0, st => g.next st
  | n + 1, st => drawAt g n (g.next st).2

/-- From every state, some later draw is nonzero: the named property `PrngNonzeroEventually`
(41_permutation.md R131). -/
def prngNonzeroEventually (g : Prng) : Prop := ∀ st, ∃ n, (drawAt g n st).1 ≠ 0

end Sys2Proof.Machine
end

