-- ==== Sys2Proof/Certificates/Slice0/Obligations.lean ====
section
/-! DEFINITION. The statements for the provers. Each docstring names the rule of spec/ it formalises. -/

namespace Sys2Proof.Claim

open Sys2Proof.Machine

/-! ### Terms of the statements, written from the spec -/

/-- Bits `lo .. lo + n - 1` of a word, as a number. -/
def bits (w : Word) (lo n : Nat) : Nat := (w.extractLsb' lo n).toNat

/-- The OP values 30_encoding.md R97 lists as illegal. -/
def reservedOps : List Nat :=
  [0x07, 0x0A, 0x0B, 0x0C, 0x0D, 0x0E, 0x0F, 0x17, 0x1B, 0x1C, 0x1D, 0x1E, 0x1F, 0x25, 0x26, 0x27, 0x2E, 0x2F,
    0x34, 0x35, 0x36, 0x37, 0x38, 0x39, 0x3A, 0x3B, 0x3C, 0x3D, 0x3E, 0x3F]

/-- The OP values of the forms Z and I, which do not use SA (R92, R95). -/
def opsWithoutSA : List Nat := [0x00, 0x01, 0x04, 0x05, 0x06, 0x14, 0x19]

/-- The OP values of form AB (R92, R95). -/
def opsWithSB : List Nat := [0x13, 0x18, 0x23, 0x2A, 0x2B]

/-- The OP values of the forms I and AI (R92, R95). -/
def opsWithImm : List Nat := [0x05, 0x14, 0x19, 0x20, 0x28]

/-- What R97 calls illegal, by the bits of the word (R91). -/
def illegalWord (nslot : Nat) (w : Word) : Prop :=
  let op := bits w 26 6
  op ∈ reservedOps ∨ bits w 16 2 ≠ 0 ∨
  (op ∈ opsWithoutSA ∧ bits w 22 4 ≠ 0) ∨ (op ∉ opsWithSB ∧ bits w 18 4 ≠ 0) ∨
  (op ∉ opsWithImm ∧ bits w 0 16 ≠ 0) ∨
  (op ∉ opsWithoutSA ∧ nslot ≤ bits w 22 4) ∨ (op ∈ opsWithSB ∧ nslot ≤ bits w 18 4) ∨
  ((op = 0x14 ∨ op = 0x19) ∧ 2 ^ nslot ≤ bits w 0 16)

/-- The word the "Encoding" line of each command's rule gives (R123 to R233). The fields do not overlap, so its `|`
is written `+`. -/
def ruleWord : Instr → Nat
  | .nop => 0x00000000
  | .clrstat => 0x04000000
  | .free sa => 0x08000000 + sa.val * 2 ^ 22
  | .info sa => 0x0C000000 + sa.val * 2 ^ 22
  | .lzc32 => 0x10000000
  | .extract hi lo => 0x14000000 + hi.toNat * 2 ^ 8 + lo.toNat
  | .popcnt32 => 0x18000000
  | .mhPerm sa => 0x20000000 + sa.val * 2 ^ 22
  | .mhRdperm sa => 0x24000000 + sa.val * 2 ^ 22
  | .mhNew sa => 0x40000000 + sa.val * 2 ^ 22
  | .mhDigest sa => 0x44000000 + sa.val * 2 ^ 22
  | .mhClear sa => 0x48000000 + sa.val * 2 ^ 22
  | .mhMerge sa sb => 0x4C000000 + sa.val * 2 ^ 22 + sb.val * 2 ^ 18
  | .mhAgree mask => 0x50000000 + mask.toNat
  | .mhRdval sa => 0x54000000 + sa.val * 2 ^ 22
  | .mhSeed sa => 0x58000000 + sa.val * 2 ^ 22
  | .obExport sa sb => 0x60000000 + sa.val * 2 ^ 22 + sb.val * 2 ^ 18
  | .obXorpop mask => 0x64000000 + mask.toNat
  | .obRdword sa => 0x68000000 + sa.val * 2 ^ 22
  | .hllNew sa p => 0x80000000 + sa.val * 2 ^ 22 + p.toNat
  | .hllDigest sa => 0x84000000 + sa.val * 2 ^ 22
  | .hllClear sa => 0x88000000 + sa.val * 2 ^ 22
  | .hllMerge sa sb => 0x8C000000 + sa.val * 2 ^ 22 + sb.val * 2 ^ 18
  | .hllRdreg sa => 0x90000000 + sa.val * 2 ^ 22
  | .hmhNew sa p => 0xA0000000 + sa.val * 2 ^ 22 + p.toNat
  | .hmhAdd sa => 0xA4000000 + sa.val * 2 ^ 22
  | .hmhMerge sa sb => 0xA8000000 + sa.val * 2 ^ 22 + sb.val * 2 ^ 18
  | .hmhAgree sa sb => 0xAC000000 + sa.val * 2 ^ 22 + sb.val * 2 ^ 18
  | .hmhRdreg sa => 0xB0000000 + sa.val * 2 ^ 22
  | .hmhRdmin sa => 0xB4000000 + sa.val * 2 ^ 22
  | .mhSer sa => 0xC0000000 + sa.val * 2 ^ 22
  | .mhDes sa => 0xC4000000 + sa.val * 2 ^ 22
  | .hllSer sa => 0xC8000000 + sa.val * 2 ^ 22
  | .hllDes sa => 0xCC000000 + sa.val * 2 ^ 22

/-- The slot a command writes, if it writes one ("Flags written" of each rule). -/
def destSlot : Instr → Option SlotNo
  | .free sa => some sa
  | .mhNew sa => some sa
  | .mhDigest sa => some sa
  | .mhClear sa => some sa
  | .mhMerge sa _ => some sa
  | .obExport sa _ => some sa
  | .hllNew sa _ => some sa
  | .hllDigest sa => some sa
  | .hllClear sa => some sa
  | .hllMerge sa _ => some sa
  | .hmhNew sa _ => some sa
  | .hmhAdd sa => some sa
  | .hmhMerge sa _ => some sa
  | .mhDes sa => some sa
  | .hllDes sa => some sa
  | .nop => none
  | .clrstat => none
  | .info _ => none
  | .lzc32 => none
  | .extract _ _ => none
  | .popcnt32 => none
  | .mhPerm _ => none
  | .mhRdperm _ => none
  | .mhAgree _ => none
  | .mhRdval _ => none
  | .mhSeed _ => none
  | .obXorpop _ => none
  | .obRdword _ => none
  | .hllRdreg _ => none
  | .hmhAgree _ _ => none
  | .hmhRdreg _ => none
  | .hmhRdmin _ => none
  | .mhSer _ => none
  | .hllSer _ => none

/-- The commands that replace or release slot A, or clear its hash values: those R147 says raise or remove
values, and the other creating commands of 10_state.md R30. -/
def replacesSlot : Instr → Bool
  | .free _ => true
  | .mhNew _ => true
  | .mhClear _ => true
  | .mhDes _ => true
  | .obExport _ _ => true
  | .hllNew _ _ => true
  | .hllDes _ => true
  | .hmhNew _ _ => true
  | _ => false

/-- The commands whose pseudocode calls `result` (00_scope.md R10 and each rule). -/
def writesResult : Instr → Bool
  | .info _ => true
  | .lzc32 => true
  | .extract _ _ => true
  | .popcnt32 => true
  | .mhPerm _ => true
  | .mhRdperm _ => true
  | .mhAgree _ => true
  | .mhRdval _ => true
  | .mhSeed _ => true
  | .obXorpop _ => true
  | .obRdword _ => true
  | .hllRdreg _ => true
  | .hmhAgree _ _ => true
  | .hmhRdreg _ => true
  | .hmhRdmin _ => true
  | .mhSer _ => true
  | .mhDes _ => true
  | .hllSer _ => true
  | .hllDes _ => true
  | _ => false

/-- `perm(a, b, x)` as the formula of 41_permutation.md R133. -/
def permFormula (a b x : Word) : Nat := (a.toNat * x.toNat + b.toNat) % (2 ^ 61 - 1) % 2 ^ 32

/-- The number of slots a mask names (42_minhash.md R144). -/
def maskSize (mask : BitVec 16) : Nat := ((Finset.range 16).filter fun n => mask.getLsbD n = true).card

/-- What slot number `n` holds. -/
def slotAt (s : State) (n : Nat) : Slot := s.slots.getD n .empty

/-- `n` is the lowest slot a mask names. -/
def lowestOf (mask : BitVec 16) (n : Nat) : Prop :=
  n < 16 ∧ mask.getLsbD n = true ∧ ∀ x < n, mask.getLsbD x = false

/-- The host writes each hash to HASH in turn and lets the command `i` run on it (R141, R173). -/
def feed (i : Instr) : List Word → State → StepOutcome
  | [], s => .next s
  | h :: hs, s =>
    match exec i { s with regs := { s.regs with hash := h } } with
    | .next t => feed i hs t
    | .fault f => .fault f
    | .refused r => .refused r

/-- The outcome with its next state mapped. -/
def mapNext (f : State → State) : StepOutcome → StepOutcome
  | .next s => .next (f s)
  | .fault r => .fault r
  | .refused r => .refused r

/-- Legal accesses, from the words of 20_memory.md R63. -/
def legal (off : BitVec 20) (w : Width) : Prop :=
  (off.toNat < 0x80000 ∧ w = .word ∧ off.toNat % 4 = 0) ∨
  (0x80000 ≤ off.toNat ∧ off.toNat % w.bytes = 0)

/-- The HLL slot's registers after folding in `h` at bucket `j`, one by one (44_hyperloglog.md R170, R171, R173):
register `j` is the maximum of itself and the leading zeros of the window plus one. -/
def foldedRegister (p : Nat) (h : Word) (old : Nat) (j : Nat) : Nat :=
  if j = h.toNat / 2 ^ (32 - p) then max old (lzc32 (window h p) + 1) else old

/-- `alpha(2^P)` (48_host_estimators.md R240): the constants at `M` = 16, 32 and 64, the formula beyond. -/
noncomputable def alphaOf (p : Nat) : ℝ :=
  if p = 4 then 0.673 else if p = 5 then 0.697 else if p = 6 then 0.709 else 0.7213 / (1 + 1.079 / 2 ^ p)

/-- The raw estimate `E` of a sketch (R241). -/
noncomputable def rawOf (h : Hll) : ℝ :=
  alphaOf h.p * (2 ^ h.p) ^ 2 / ∑ j ∈ Finset.range (2 ^ h.p), 1 / (2 : ℝ) ^ (h.reg.getD j 0).toNat

/-- `V`, the number of zero registers of a sketch (R241). -/
def zerosOf (h : Hll) : Nat := ((Finset.range (2 ^ h.p)).filter fun j => h.reg.getD j 0 = 0).card

end Sys2Proof.Claim

open Sys2Proof Sys2Proof.Machine Sys2Proof.Claim

/-! ### Encoding -/

/-- 30_encoding.md R91, R92, R93, R95, R96 and the "Encoding" line of every command's rule: the word the rule gives
for a well-formed command decodes to it, for every command and every operand, and is the word the encoder gives. -/
def Obligations.DecodeOfEncodeIsTheCommand : Prop :=
  ∀ (nslot : Nat) (i : Instr), i.wellFormed nslot = true →
    decode nslot (encode i) = .ok i ∧ (encode i).toNat = ruleWord i ∧
      decode nslot (BitVec.ofNat 32 (ruleWord i)) = .ok i

/-- R91, R95, R96: each legal word has one meaning: a word that decodes is the word of what it decodes to, which
is well formed. -/
def Obligations.EncodeOfDecodeIsTheWord : Prop :=
  ∀ (nslot : Nat) (w : Word) (i : Instr), decode nslot w = .ok i →
    encode i = w ∧ i.wellFormed nslot = true

/-- R97: exactly the encodings it lists are illegal, and each completes with IllegalCommand. -/
def Obligations.IllegalEncodingsGiveIllegalCommand : Prop :=
  ∀ (s : State) (w : Word),
    ((∃ e, decode s.params.nslot w = .error e) ↔ illegalWord s.params.nslot w) ∧
    (illegalWord s.params.nslot w → runCommand w s = .next (complete .illegalCommand s))

/-- Words that 30_encoding.md R98, 47_control.md R232 (FREE s3) and 95_test_vectors.md print decode to the commands
the spec says. -/
def Obligations.SpecWordsDecodeToTheirCommands : Prop :=
  decode 4 0x10000000#32 = .ok .lzc32 ∧ decode 4 0x14002010#32 = .ok (.extract 32 16) ∧
  decode 4 0x50000003#32 = .ok (.mhAgree 3) ∧ decode 4 0x84000000#32 = .ok (.hllDigest 0) ∧
  decode 4 0x80400010#32 = .ok (.hllNew 1 16) ∧ decode 4 0x4C400000#32 = .ok (.mhMerge 1 0) ∧
  decode 4 0x08C00000#32 = .ok (.free 3) ∧ decode 4 0x24000000#32 = .ok (.mhRdperm 0) ∧
  decode 4 0x600C0000#32 = .ok (.obExport 0 3) ∧ decode 4 0xAC8C0000#32 = .ok (.hmhAgree 2 3) ∧
  decode 4 0xC4400000#32 = .ok (.mhDes 1)

/-! ### The step -/

/-- 20_memory.md R70, 60_exceptions.md R271: where the engine moves, the step is the pending command's meaning, or
the completion with IllegalCommand, in the state whose schedule has moved on by one; and a word placed as accepted
(log 10) runs in the very next step. -/
def Obligations.StepRunsTheDecodedCommand : Prop :=
  (∀ (s : State) (w : Word), s.pending = some w → nextAgent s = .engine →
    (∀ i, decode s.params.nslot w = .ok i →
      step s = exec i { s with host := { s.host with sched := s.host.sched.tail } }) ∧
    (∀ e, decode s.params.nslot w = .error e →
      step s = .next (complete .illegalCommand { s with host := { s.host with sched := s.host.sched.tail } }))) ∧
  (∀ (s : State) (w : Nat) (i : Instr), decode s.params.nslot (BitVec.ofNat 32 (w % 2 ^ 32)) = .ok i →
    step (s.withFetchWord 32 w) =
      exec i { s with
        status := { s.status with busy := true }
        pending := some (BitVec.ofNat 32 (w % 2 ^ 32))
        raced := false })

/-- 20_memory.md R60, R69, 30_encoding.md R99: where the host moves, the step is its next access, one turn of its
poll loop, or nothing where its program is over; the engine without a command does nothing (logs 4, 5). With the
schedule used up the engine moves exactly where a command is pending. -/
def Obligations.StepTakesTheHostsNextAccess : Prop :=
  ∀ s : State,
    let s0 := { s with host := { s.host with sched := s.host.sched.tail } }
    let advance := fun rest : List HostOp => { s0 with host := { s0.host with prog := rest } }
    (nextAgent s = .host → s.host.prog = [] → step s = .next s0) ∧
    (nextAgent s = .engine → s.pending = none → step s = .next s0) ∧
    (nextAgent s = .host → ∀ off w rest, s.host.prog = .access (.read off w) :: rest →
      step s = hostRead off w (advance rest)) ∧
    (nextAgent s = .host → ∀ off w v rest, s.host.prog = .access (.write off w v) :: rest →
      step s = hostWrite off w v (advance rest)) ∧
    (nextAgent s = .host → ∀ rest, s.host.prog = .poll :: rest →
      step s = .next (record (.read 0x014 .word) (.data (statusWord s.status))
        (if (statusWord s.status).getLsbD 0 then s0 else advance rest))) ∧
    (s.host.sched = [] → (nextAgent s = .engine ↔ s.pending ≠ none)) ∧
    (∀ a rest, s.host.sched = a :: rest → nextAgent s = a)

/-! ### The host's accesses -/

/-- 10_state.md R22, R23: ID and the capability registers read their constants in every state, and a write to one
changes no register. -/
def Obligations.IdAndCapabilitiesAreConstant : Prop :=
  ∀ s : State, s.params.wf →
    hostRead 0x000 .word s = .next (record (.read 0x000 .word) (.data 0x534D4501#32) s) ∧
    (∃ v, hostRead 0x004 .word s = .next (record (.read 0x004 .word) (.data v) s) ∧
      bits v 0 8 = s.params.nslot ∧ bits v 8 8 = s.params.pmax ∧ bits v 16 16 = 0) ∧
    (∃ v, hostRead 0x008 .word s = .next (record (.read 0x008 .word) (.data v) s) ∧ v.toNat = s.params.kmax) ∧
    (∃ v, hostRead 0x00C .word s = .next (record (.read 0x00C .word) (.data v) s) ∧
      v.toNat = s.params.blobBytes) ∧
    (∀ off : BitVec 20, off = 0x000 ∨ off = 0x004 ∨ off = 0x008 ∨ off = 0x00C → ∀ (v : Word) (t : State),
      hostWrite off .word v s = .next t → t.params = s.params ∧ t.regs = s.regs)

/-- R20, R21, R26: the operand registers store what an idle write gives them and read it back; an idle write to a
read-only register or a reserved offset is ignored (CMD at 0x010 is R24's, CmdWriteIssuesACommand); STATUS, RESULT
and RESULT_HI read their values and a reserved offset reads 0. -/
def Obligations.RegisterWindowReadsAndWrites : Prop :=
  ∀ (s : State) (v : Word), s.status.busy = false →
    (hostWrite 0x018 .word v s =
      .next (record (.write 0x018 .word v) .done { s with regs := { s.regs with arg := v } })) ∧
    (hostWrite 0x01C .word v s =
      .next (record (.write 0x01C .word v) .done { s with regs := { s.regs with hash := v } })) ∧
    (hostWrite 0x020 .word v s =
      .next (record (.write 0x020 .word v) .done { s with regs := { s.regs with seedLo := v } })) ∧
    (hostWrite 0x024 .word v s =
      .next (record (.write 0x024 .word v) .done { s with regs := { s.regs with seedHi := v } })) ∧
    (hostWrite 0x028 .word v s =
      .next (record (.write 0x028 .word v) .done { s with regs := { s.regs with blobLen := v } })) ∧
    (hostRead 0x018 .word s = .next (record (.read 0x018 .word) (.data s.regs.arg) s)) ∧
    (hostRead 0x01C .word s = .next (record (.read 0x01C .word) (.data s.regs.hash) s)) ∧
    (hostRead 0x020 .word s = .next (record (.read 0x020 .word) (.data s.regs.seedLo) s)) ∧
    (hostRead 0x024 .word s = .next (record (.read 0x024 .word) (.data s.regs.seedHi) s)) ∧
    (hostRead 0x028 .word s = .next (record (.read 0x028 .word) (.data s.regs.blobLen) s)) ∧
    (hostRead 0x014 .word s = .next (record (.read 0x014 .word) (.data (statusWord s.status)) s)) ∧
    (hostRead 0x02C .word s = .next (record (.read 0x02C .word) (.data s.regs.result) s)) ∧
    (hostRead 0x030 .word s = .next (record (.read 0x030 .word) (.data s.regs.resultHi) s)) ∧
    (∀ off : BitVec 20, off.toNat < 0x80000 → off.toNat % 4 = 0 →
      (off ≤ 0x00C ∨ off = 0x014 ∨ 0x02C ≤ off) →
        hostWrite off .word v s = .next (record (.write off .word v) .done s)) ∧
    (∀ off : BitVec 20, 0x034 ≤ off.toNat → off.toNat < 0x80000 → off.toNat % 4 = 0 →
      hostRead off .word s = .next (record (.read off .word) (.data 0) s))

/-- R24: an idle CMD write issues its word as a command, a busy one is ignored and sets OVR, and CMD reads 0. -/
def Obligations.CmdWriteIssuesACommand : Prop :=
  ∀ (s : State) (w : Word),
    (s.status.busy = false → hostWrite 0x010 .word w s =
      .next (record (.write 0x010 .word w) .done
        { s with status := { s.status with busy := true }, pending := some w, raced := false })) ∧
    (s.status.busy = true → hostWrite 0x010 .word w s =
      .next (record (.write 0x010 .word w) .done
        { s with status := { s.status with ovr := true }, raced := true })) ∧
    hostRead 0x010 .word s = .next (record (.read 0x010 .word) (.data 0) s)

/-- 70_reset_and_hazards.md R310, 20_memory.md R63 and R71, 10_state.md R20 to R26: while BUSY = 1 every legal write
is ignored and sets OVR; ID, the capability registers, CMD, STATUS, the operand registers and the reserved offsets
read their values; RESULT, RESULT_HI and each written blob byte below BLOB_BYTES give a free value, whatever it is,
and the blob bytes at or above BLOB_BYTES read 0 (the free value's form and the counter beside it: log 6; a narrow read's place in the word: log 16). -/
def Obligations.BusyHazard : Prop :=
  ∀ s : State, s.status.busy = true →
    let reads := fun (off : BitVec 20) (v : Word) =>
      hostRead off .word s = .next (record (.read off .word) (.data v) s)
    (∀ (off : BitVec 20) (w : Width) (v : Word), legal off w →
      hostWrite off w v s = .next (record (.write off w v) .done
        { s with status := { s.status with ovr := true }, raced := true })) ∧
    (reads 0x000 0x534D4501#32 ∧ reads 0x004 (BitVec.ofNat 32 (s.params.nslot + s.params.pmax * 2 ^ 8)) ∧
      reads 0x008 (BitVec.ofNat 32 s.params.kmax) ∧ reads 0x00C (BitVec.ofNat 32 s.params.blobBytes) ∧
      reads 0x010 0 ∧ reads 0x014 (statusWord s.status) ∧ reads 0x018 s.regs.arg ∧ reads 0x01C s.regs.hash ∧
      reads 0x020 s.regs.seedLo ∧ reads 0x024 s.regs.seedHi ∧ reads 0x028 s.regs.blobLen) ∧
    (∀ off : BitVec 20, 0x034 ≤ off.toNat → off.toNat < 0x80000 → off.toNat % 4 = 0 → reads off 0) ∧
    (∀ off : BitVec 20, off = 0x02C ∨ off = 0x030 →
      hostRead off .word s = .next (record (.read off .word) (.data (Config.freeWord s.draws))
        { s with draws := s.draws + 1 })) ∧
    (∀ (off : BitVec 20) (w : Width), legal off w → 0x80000 ≤ off.toNat →
      let o := off.toNat - 0x80000
      let kept := min w.bytes (s.params.blobBytes - o)
      (∀ n < kept, (Memory.read s.blob (o + n)).isSome = true) →
        hostRead off w s = .next (record (.read off w)
          (.data (BitVec.ofNat 32 ((Config.freeWord s.draws).toNat % 2 ^ (8 * kept))))
          { s with draws := s.draws + 1 }))

/-- 20_memory.md R64 with R63: an illegal access answers BUSERR, carries data 0 and changes nothing but the host's
own record of it; a legal one never answers BUSERR. That an illegal write while BUSY = 1 leaves OVR is the model's
choice of R64 over R310 (log 12). -/
def Obligations.IllegalAccessIsBusErr : Prop :=
  ∀ (s : State) (off : BitVec 20) (w : Width) (v : Word),
    (¬ legal off w →
      hostRead off w s = .next (record (.read off w) .buserr s) ∧
      hostWrite off w v s = .next (record (.write off w v) .buserr s) ∧ Reply.value .buserr = 0) ∧
    (legal off w →
      hostRead off w s ≠ .next (record (.read off w) .buserr s) ∧
      hostWrite off w v s = .next (record (.write off w v) .done (busWrite off w v s)))

/-- R67: no read has a side effect: nothing changes but the host's record and the model's counter of free
values. -/
def Obligations.ReadsHaveNoSideEffect : Prop :=
  ∀ (s t : State) (off : BitVec 20) (w : Width), hostRead off w s = .next t →
    ∃ r, t = { s with draws := t.draws, host := { s.host with log := ⟨.read off w, r⟩ :: s.host.log } } ∧
      (s.status.busy = false → t.draws = s.draws)

/-- R61, R62, R63: an idle write through the blob window stores its low bytes, the lowest at the lowest address,
those at or above BLOB_BYTES dropped; the same read gives them back, with 0 above the limit; every other blob
byte and the rest of the machine stay. (That a narrow access moves the low part of the data word is log 16.) -/
def Obligations.BlobWindowReadsWhatWasWritten : Prop :=
  ∀ (s : State) (off : BitVec 20) (w : Width) (v : Word), s.status.busy = false → legal off w →
    0x80000 ≤ off.toNat →
    let o := off.toNat - 0x80000
    let kept := min w.bytes (s.params.blobBytes - o)
    ∃ blob : Memory,
      let t := record (.write off w v) .done { s with blob := blob }
      hostWrite off w v s = .next t ∧
      hostRead off w t = .next (record (.read off w) (.data (BitVec.ofNat 32 (v.toNat % 2 ^ (8 * kept)))) t) ∧
      (∀ n < kept, Memory.read blob (o + n) = some (BitVec.ofNat 8 (v.toNat / 2 ^ (8 * n)))) ∧
      (∀ a, ¬ (o ≤ a ∧ a < o + kept) → Memory.read blob a = Memory.read s.blob a)

/-- R66: a read of a blob byte that nothing has written since reset is a model fault, for a host read and for the
reads of MH_DES and HLL_DES that pass their checks. Two clauses are the model's choice: the fault of a host read
while BUSY = 1, where R71 speaks too (log 9), and that of MH_DES where the generator would hang (log 15). -/
def Obligations.UnwrittenBlobByteFaults : Prop :=
  (∀ (s : State) (off : BitVec 20) (w : Width) (n : Nat), legal off w → 0x80000 ≤ off.toNat → n < w.bytes →
    off.toNat - 0x80000 + n < s.params.blobBytes → Memory.read s.blob (off.toNat - 0x80000 + n) = none →
    hostRead off w s = .fault .unwrittenBlobByte) ∧
  (∀ (s : State) (sa : SlotNo) (a : Nat), bufferLen s ≤ s.params.blobBytes → 12 ≤ bufferLen s →
    Memory.read s.blob a = none →
    (8 ≤ a ∧ a < 12 ∨ ∃ k, memRead s.blob 8 4 = some k ∧ k ≠ 0 ∧ 12 + 4 * k ≤ bufferLen s ∧
      k ≤ s.params.kmax ∧ a < 12 + 4 * k) →
    exec (.mhDes sa) s = .fault .unwrittenBlobByte) ∧
  (∀ (s : State) (sa : SlotNo) (a : Nat), bufferLen s ≤ s.params.blobBytes → 1 ≤ bufferLen s →
    Memory.read s.blob a = none →
    (a = 0 ∨ ∃ p, memRead s.blob 0 1 = some p ∧ 4 ≤ p ∧ p ≤ 16 ∧ 1 + 2 ^ p ≤ bufferLen s ∧
      p ≤ s.params.pmax ∧ a < 1 + 2 ^ p) →
    exec (.hllDes sa) s = .fault .unwrittenBlobByte)

/-! ### What every command keeps -/

/-- 10_state.md R26, 60_exceptions.md R270: the fields of STATUS stand at their bits, the reserved bits read 0, and
the codes 5 to 7 and 11 to 15 are never shown. -/
def Obligations.StatusWordLayout : Prop :=
  ∀ st : Status,
    (statusWord st).getLsbD 0 = st.busy ∧ (statusWord st).getLsbD 1 = st.err ∧
    (statusWord st).getLsbD 2 = st.sticky ∧ (statusWord st).getLsbD 3 = st.ovr ∧
    bits (statusWord st) 4 4 = 0 ∧ bits (statusWord st) 12 20 = 0 ∧
    bits (statusWord st) 8 4 = (match st.code with
      | .ok => 0 | .invalidArgument => 1 | .incompatibleSketch => 2 | .bufferTooSmall => 3
      | .truncatedBuffer => 4 | .illegalCommand => 8 | .slotKind => 9 | .capacityExceeded => 10)

/-- R27: a command's step either is the hang, which changes nothing (41_permutation.md R131), or ends with some
code `c` and completes with it: CODE is `c`, ERR says whether it is an error, STICKY gathers it, BUSY falls.
STICKY and OVR are kept otherwise, but for CLRSTAT. -/
def Obligations.CompletionUpdatesStatus : Prop :=
  ∀ (s t : State) (i : Instr), exec i s = .next t →
    ((∃ sa, i = .mhNew sa ∨ i = .mhDes sa) ∧ t = s) ∨
    (t.status.busy = false ∧ t.pending = none ∧ t.status.err = decide (t.status.code ≠ .ok) ∧
      (i ≠ .clrstat → t.status.sticky = (s.status.sticky || decide (t.status.code ≠ .ok)) ∧
        t.status.ovr = s.status.ovr))

/-- 60_exceptions.md R272: a command that ends with an error changes STATUS alone, an Illegal word included. -/
def Obligations.ErrorsChangeOnlyStatus : Prop :=
  ∀ (s t : State) (w : Word), runCommand w s = .next t → t.status.code ≠ .ok →
    t = { s with status := t.status, pending := t.pending, raced := t.raced }

/-- 10_state.md R21, R23, 20_memory.md R70: the engine writes no operand register and no capability register, and
nothing of the host's side. -/
def Obligations.EngineKeepsOperandsAndParameters : Prop :=
  ∀ (s t : State) (w : Word), runCommand w s = .next t →
    t.regs = { s.regs with result := t.regs.result, resultHi := t.regs.resultHi } ∧
    t.params = s.params ∧ t.host = s.host

/-- 10_state.md R36: a command changes no slot but the one its rule says it writes. -/
def Obligations.CommandsWriteAtMostTheirSlot : Prop :=
  ∀ (s t : State) (i : Instr) (n : SlotNo), exec i s = .next t → destSlot i ≠ some n →
    readSlot n t = readSlot n s

/-- 10_state.md R38, 46_serdes.md R210: no command but the two serializers changes a blob byte, and they change
only the bytes below the size they report. -/
def Obligations.OnlySerializersWriteTheBlob : Prop :=
  ∀ (s t : State) (i : Instr) (a : Nat), s.slotsShaped → s.params.wf → exec i s = .next t →
    Memory.read t.blob a = Memory.read s.blob a ∨
    ((∃ sa, i = .mhSer sa ∨ i = .hllSer sa) ∧ t.status.code = .ok ∧ a < t.regs.result.toNat)

/-- 00_scope.md R10: a command that does not call `result` leaves both result registers unchanged. -/
def Obligations.CommandsWithoutResultKeepIt : Prop :=
  ∀ (s t : State) (i : Instr), exec i s = .next t → writesResult i = false → t.regs = s.regs

/-- 20_memory.md R70, 60_exceptions.md R271: a command depends on nothing of the host's side: with another program,
schedule and record it does the same and leaves them as they are. -/
def Obligations.CommandsIgnoreTheHostSide : Prop :=
  ∀ (s : State) (w : Word) (h : HostSide),
    runCommand w { s with host := h } = mapNext (fun t => { t with host := h }) (runCommand w s)

/-! ### Runs -/

/-- 10_state.md R31 to R39, R26: the invariant of Safety.lean is kept by every step. -/
def Obligations.EveryStepKeepsTheInvariant : Prop :=
  ∀ s t : State, s.Inv → step s = .next t → t.Inv

/-- 10_state.md R40 and 70_reset_and_hazards.md R317: right after reset, on every implementation's parameters, the
invariant holds, and so does the whole launch premise CleanIdle, for every host program, every schedule and every
claim. (CleanIdle's clauses on slots and blob bytes are read as log 17 says.) -/
def Obligations.ResetMeetsTheInvariant : Prop :=
  ∀ p : Params, p.wf → (State.resetWith p).Inv ∧
    ∀ (host : HostSide) (c : ClaimTerms), ({ State.resetWith p with host := host } : State).launch c

/-- 10_state.md R40: what reset leaves, from every state: the constants stay, the registers and STATUS are 0,
nothing is pending, every slot is empty and no blob byte is written. -/
def Obligations.ResetValues : Prop :=
  ∀ s : State,
    (assertReset s).params = s.params ∧
    (assertReset s).regs = { arg := 0, hash := 0, seedLo := 0, seedHi := 0, blobLen := 0, result := 0, resultHi := 0 } ∧
    statusWord (assertReset s).status = 0 ∧ (assertReset s).pending = none ∧
    (assertReset s).slots.length = s.params.nslot ∧ (∀ n, readSlot n (assertReset s) = .empty) ∧
    (∀ a, Memory.read (assertReset s).blob a = none) ∧
    State.reset = assertReset State.reset

/-- 00_scope.md R16, 20_memory.md R66: no step refuses, and a step faults only on a read of an unwritten blob
byte, by the host's next access or by a deserializer within its buffer. -/
def Obligations.OnlyUnwrittenBytesStopTheMachine : Prop :=
  ∀ s : State, (∀ r, step s ≠ .refused r) ∧
    (∀ f, step s = .fault f → ∃ a, a < s.params.blobBytes ∧ Memory.read s.blob a = none ∧
      ((nextAgent s = .host ∧ ∃ off w rest, s.host.prog = .access (.read off w) :: rest ∧
          0x80000 + a ∈ List.range' off.toNat w.bytes) ∨
        (nextAgent s = .engine ∧ a < bufferLen s ∧ ∃ w sa, s.pending = some w ∧
          (decode s.params.nslot w = .ok (.mhDes sa) ∨ decode s.params.nslot w = .ok (.hllDes sa)))))

/-- 70_reset_and_hazards.md R313: a pending command's engine step comes after finitely many host steps, and until
then no register, slot or blob byte changes (R310): the first `n` steps are the host's and the next is the engine's.
(The finite schedule is the model's form of R313: log 4.) -/
def Obligations.PendingCommandGetsItsStep : Prop :=
  ∀ (s : State) (w : Word), s.pending = some w → s.status.busy = true →
    ∃ n ≤ s.host.sched.length,
      (∀ m < n, ∀ u, Sys2Proof.core.run m s = .next u → nextAgent u = .host) ∧
      ∀ t, Sys2Proof.core.run n s = .next t →
        nextAgent t = .engine ∧ t.pending = some w ∧ t.status.busy = true ∧
        t.regs = s.regs ∧ t.slots = s.slots ∧ t.blob = s.blob ∧ t.params = s.params

/-- R310, 20_memory.md R69, R70: a host that writes a command to CMD and polls sees it as if it ran at its CMD
write: under every schedule the poll ends in the state the command's step gives. That the run reaches the end of
the poll is R313's liveness in the model's form (log 4): the schedule is finite, and once it is used up the engine
moves before the host. -/
def Obligations.PolledCommandRunsAtItsWrite : Prop :=
  ∀ (s t : State) (w : Word) (rest : List HostOp), s.pending = none → s.status.busy = false →
    s.host.prog = .access (.write 0x010 .word w) :: .poll :: rest →
    runCommand w { s with status := { s.status with busy := true }, pending := some w, raced := false } = .next t →
    t.status.busy = false →
    ∃ n t', runsTo s n t' ∧ t'.host.prog = rest ∧ { t' with host := t.host } = t ∧
      t'.host.log.head? = some ⟨.read 0x014 .word, .data (statusWord t.status)⟩

/-! ### Bit operations -/

/-- 40_bitops.md R120, R123: LZC32 gives 32 for 0 and `31 - floor(log2 x)` otherwise, with RESULT_HI 0. -/
def Obligations.LeadingZeroCount : Prop :=
  ∀ s : State, exec .lzc32 s = .next (complete .ok (setResult
    (BitVec.ofNat 32 (if s.regs.arg = 0 then 32 else 31 - Nat.log2 s.regs.arg.toNat)) 0 s))

/-- R121, R124: EXTRACT gives the bits `[lo, hi)` of ARG shifted down, and InvalidArgument outside its range. -/
def Obligations.ExtractedField : Prop :=
  ∀ (s : State) (hi lo : BitVec 8),
    (32 < hi.toNat ∨ hi.toNat < lo.toNat → exec (.extract hi lo) s = .next (complete .invalidArgument s)) ∧
    (hi.toNat ≤ 32 → lo.toNat ≤ hi.toNat → ∃ v : Word,
      exec (.extract hi lo) s = .next (complete .ok (setResult v 0 s)) ∧
      v.toNat = s.regs.arg.toNat / 2 ^ lo.toNat % 2 ^ (hi.toNat - lo.toNat) ∧
      ∀ j < 32, v.getLsbD j = (decide (lo.toNat + j < hi.toNat) && s.regs.arg.getLsbD (lo.toNat + j)))

/-- R122, R125: POPCNT32 gives the number of bits of ARG equal to 1. -/
def Obligations.PopulationCount : Prop :=
  ∀ s : State, exec .popcnt32 s = .next (complete .ok (setResult
    (BitVec.ofNat 32 ((Finset.range 32).filter fun j => s.regs.arg.getLsbD j = true).card) 0 s))

/-! ### Permutations -/

/-- 41_permutation.md R134: the product fits 64 bits, the 64-bit multiply-add with the folding reduction gives the
formula of R133, and the result is not the plain 32-bit sum. -/
def Obligations.SixtyFourBitArithmeticIsExact : Prop :=
  (∀ a b x : Word, a.toNat * x.toNat + b.toNat ≤ 2 ^ 64 - 2 ^ 32 ∧
    permBy64 a b x = perm a b x ∧ (perm a b x).toNat = permFormula a b x) ∧
  (∀ t < 2 ^ 64, reduceMersenne t = t % (2 ^ 61 - 1)) ∧
  perm maxU32 maxU32 maxU32 = 7 ∧ BitVec.ofNat 32 (maxU32.toNat * maxU32.toNat + maxU32.toNat) = (0 : Word)

/-- R135, R136: MH_PERM evaluates and MH_RDPERM reads permutation ARG; an index at or above `k` is InvalidArgument,
another kind of slot SlotKind. -/
def Obligations.PermutationReads : Prop :=
  ∀ (s : State) (sa : SlotNo),
    ((∀ m, readSlot sa s ≠ .minhash m) → exec (.mhPerm sa) s = .next (complete .slotKind s) ∧
      exec (.mhRdperm sa) s = .next (complete .slotKind s)) ∧
    (∀ m, readSlot sa s = .minhash m →
      (m.k ≤ s.regs.arg.toNat → exec (.mhPerm sa) s = .next (complete .invalidArgument s) ∧
        exec (.mhRdperm sa) s = .next (complete .invalidArgument s)) ∧
      (s.regs.arg.toNat < m.k → ∀ a b, m.perm[s.regs.arg.toNat]? = some (a, b) →
        exec (.mhPerm sa) s = .next (complete .ok
          (setResult (BitVec.ofNat 32 (permFormula a b s.regs.hash)) 0 s)) ∧
        exec (.mhRdperm sa) s = .next (complete .ok (setResult a b s))))

/-- R131, R132: generated permutations are `k` pairs with `a` nonzero, a shorter generation is a prefix, and they are
the generator's draws in order, index 0 first: `a` of index `i` is the first nonzero draw after those index `i - 1`
used, and `b` is the very next draw. -/
def Obligations.GeneratedPermutations : Prop :=
  ∀ (g : Prng) (seed : Seed) (k : Nat) (ps : List (Word × Word)), permGen g seed k = some ps →
    ps.length = k ∧ (∀ ab ∈ ps, ab.1 ≠ 0) ∧ (∀ j ≤ k, permGen g seed j = some (ps.take j)) ∧
    ∃ aDraw : Nat → Nat, ∀ i < k,
      let first := if i = 0 then 0 else aDraw (i - 1) + 2
      first ≤ aDraw i ∧
      (∀ j, first ≤ j → j < aDraw i → (drawAt g j (g.init seed)).1 = 0) ∧
      (drawAt g (aDraw i) (g.init seed)).1 ≠ 0 ∧
      ps[i]? = some ((drawAt g (aDraw i) (g.init seed)).1, (drawAt g (aDraw i + 1) (g.init seed)).1)

/-- R131: drawing `a` gives the first nonzero draw, and hangs exactly where every draw is zero; the generation goes
index by index, the first nonzero draw, then the very next draw, then the other indices from the state these leave,
and hangs where an index does; so it ends under PrngNonzeroEventually. (That as many draws as the generator has
states decide it rests on log 2.) -/
def Obligations.GenerationHangsExactlyOnZeros : Prop :=
  ∀ g : Prng,
    (∀ st, drawNonzero g (2 ^ g.stateBits) st = none ↔ ∀ n, (drawAt g n st).1 = 0) ∧
    (∀ st n, (drawAt g n st).1 ≠ 0 → (∀ j < n, (drawAt g j st).1 = 0) →
      drawNonzero g (2 ^ g.stateBits) st = some (drawAt g n st)) ∧
    (∀ seed k, permGen g seed k = genPerms g k (g.init seed)) ∧
    (∀ st, genPerms g 0 st = some []) ∧
    (∀ st k n, (drawAt g n st).1 ≠ 0 → (∀ j < n, (drawAt g j st).1 = 0) →
      genPerms g (k + 1) st = (genPerms g k (drawAt g (n + 1) st).2).map fun rest =>
        ((drawAt g n st).1, (drawAt g (n + 1) st).1) :: rest) ∧
    (∀ st k, (∀ n, (drawAt g n st).1 = 0) → genPerms g (k + 1) st = none) ∧
    (prngNonzeroEventually g → ∀ seed k, (permGen g seed k).isSome = true)

/-! ### MinHash -/

/-- 42_minhash.md R140: MH_NEW checks `k` in order and creates a fresh signature with the generated permutations;
where the generator hangs the command stays pending (log 3). RESULT is unchanged. -/
def Obligations.MhNewCreatesASignature : Prop :=
  ∀ (s : State) (sa : SlotNo),
    (s.regs.arg = 0 ∨ s.regs.arg.getLsbD 31 = true →
      exec (.mhNew sa) s = .next (complete .invalidArgument s)) ∧
    (s.regs.arg ≠ 0 → s.regs.arg.getLsbD 31 = false → s.params.kmax < s.regs.arg.toNat →
      exec (.mhNew sa) s = .next (complete .capacityExceeded s)) ∧
    (s.regs.arg ≠ 0 → s.regs.arg.getLsbD 31 = false → s.regs.arg.toNat ≤ s.params.kmax →
      exec (.mhNew sa) s = .next
        (match permGen Config.prng (BitVec.ofNat 64 (s.regs.seedHi.toNat * 2 ^ 32 + s.regs.seedLo.toNat))
            s.regs.arg.toNat with
        | none => s
        | some ps => complete .ok (writeSlot sa (.minhash
            { seed := BitVec.ofNat 64 (s.regs.seedHi.toNat * 2 ^ 32 + s.regs.seedLo.toNat)
              k := s.regs.arg.toNat
              perm := ps
              hv := List.replicate s.regs.arg.toNat 0xFFFFFFFF#32 }) s)))

/-- R141: MH_DIGEST replaces each hash value by its permutation of HASH where that is smaller, and nothing else. -/
def Obligations.MhDigestTakesSmallerValues : Prop :=
  ∀ (s : State) (sa : SlotNo),
    ((∀ m, readSlot sa s ≠ .minhash m) → exec (.mhDigest sa) s = .next (complete .slotKind s)) ∧
    (∀ m, readSlot sa s = .minhash m → m.shaped s.params →
      ∃ hv : List Word, exec (.mhDigest sa) s = .next (complete .ok (writeSlot sa (.minhash { m with hv := hv }) s)) ∧
        hv.length = m.k ∧
        ∀ i < m.k, ∀ a b, m.perm[i]? = some (a, b) →
          (hv.getD i 0).toNat =
            if permFormula a b s.regs.hash < (m.hv.getD i 0).toNat then permFormula a b s.regs.hash
            else (m.hv.getD i 0).toNat)

/-- R143: MH_MERGE checks slot A's kind, slot B's, then seed and `k`, and takes the smaller value at each index
into slot A. -/
def Obligations.MhMergeTakesMinima : Prop :=
  ∀ (s : State) (sa sb : SlotNo),
    ((∀ m, readSlot sa s ≠ .minhash m) ∨ (∀ m, readSlot sb s ≠ .minhash m) →
      exec (.mhMerge sa sb) s = .next (complete .slotKind s)) ∧
    (∀ d o, readSlot sa s = .minhash d → readSlot sb s = .minhash o →
      (d.seed ≠ o.seed ∨ d.k ≠ o.k → exec (.mhMerge sa sb) s = .next (complete .incompatibleSketch s)) ∧
      (d.seed = o.seed → d.k = o.k → d.shaped s.params → o.shaped s.params →
        ∃ hv : List Word, exec (.mhMerge sa sb) s = .next (complete .ok (writeSlot sa (.minhash { d with hv := hv }) s)) ∧
          hv.length = d.k ∧
          ∀ i < d.k, (hv.getD i 0).toNat = min (d.hv.getD i 0).toNat (o.hv.getD i 0).toNat))

/-- R144: MH_AGREE checks the number of slots, their kinds, then seeds and `k`, and counts the indices at which all
masked signatures hold the same value. -/
def Obligations.MhAgreeCountsEqualValues : Prop :=
  ∀ (s : State) (mask : BitVec 16),
    (maskSize mask < 2 → exec (.mhAgree mask) s = .next (complete .invalidArgument s)) ∧
    (2 ≤ maskSize mask → ∀ n < 16, mask.getLsbD n = true → (∀ m, slotAt s n ≠ .minhash m) →
      exec (.mhAgree mask) s = .next (complete .slotKind s)) ∧
    (2 ≤ maskSize mask → ∀ (sig : Nat → MinHash) (n0 : Nat),
      (∀ n < 16, mask.getLsbD n = true → slotAt s n = .minhash (sig n) ∧ (sig n).hv.length = (sig n).k) →
      lowestOf mask n0 →
      (∀ n < 16, mask.getLsbD n = true → (sig n).seed ≠ (sig n0).seed ∨ (sig n).k ≠ (sig n0).k →
        exec (.mhAgree mask) s = .next (complete .incompatibleSketch s)) ∧
      ((∀ n < 16, mask.getLsbD n = true → (sig n).seed = (sig n0).seed ∧ (sig n).k = (sig n0).k) →
        exec (.mhAgree mask) s = .next (complete .ok (setResult
          (BitVec.ofNat 32 ((Finset.range (sig n0).k).filter fun i =>
            ∀ n : Fin 16, mask.getLsbD n = true → (sig n).hv.getD i 0 = (sig n0).hv.getD i 0).card)
          (BitVec.ofNat 32 (sig n0).k) s))))

/-- R142, R145, R146: MH_CLEAR keeps seed, `k` and permutations and makes every hash value MAXU32; MH_RDVAL reads
hash value ARG; MH_SEED reads the seed's low and high words from a MINHASH or a ONEBIT slot; other kinds are
SlotKind. -/
def Obligations.MhClearAndReadBack : Prop :=
  ∀ (s : State) (sa : SlotNo),
    ((∀ m, readSlot sa s ≠ .minhash m) → exec (.mhClear sa) s = .next (complete .slotKind s) ∧
      exec (.mhRdval sa) s = .next (complete .slotKind s)) ∧
    (∀ m, readSlot sa s = .minhash m →
      exec (.mhClear sa) s = .next (complete .ok
        (writeSlot sa (.minhash { m with hv := List.replicate m.k 0xFFFFFFFF#32 }) s)) ∧
      (m.k ≤ s.regs.arg.toNat → exec (.mhRdval sa) s = .next (complete .invalidArgument s)) ∧
      (s.regs.arg.toNat < m.k → ∀ v, m.hv[s.regs.arg.toNat]? = some v →
        exec (.mhRdval sa) s = .next (complete .ok (setResult v 0 s)))) ∧
    ((∀ m, readSlot sa s ≠ .minhash m) → (∀ b, readSlot sa s ≠ .onebit b) →
      exec (.mhSeed sa) s = .next (complete .slotKind s)) ∧
    (∀ seed : Seed, (∃ m, readSlot sa s = .minhash m ∧ m.seed = seed) ∨
        (∃ b, readSlot sa s = .onebit b ∧ b.seed = seed) →
      exec (.mhSeed sa) s = .next (complete .ok (setResult
        (BitVec.ofNat 32 (seed.toNat % 2 ^ 32)) (BitVec.ofNat 32 (seed.toNat / 2 ^ 32)) s)))

/-- R147, 10_state.md R37: a command that does not replace, release or clear a MinHash slot keeps its seed, `k`
and permutations and raises none of its hash values. -/
def Obligations.HashValuesNeverRise : Prop :=
  ∀ (s t : State) (i : Instr) (n : SlotNo) (m : MinHash), s.slotsShaped → exec i s = .next t →
    readSlot n s = .minhash m → (destSlot i = some n → replacesSlot i = false) →
    ∃ hv : List Word, readSlot n t = .minhash { m with hv := hv } ∧ hv.length = m.k ∧
      ∀ j < m.k, (hv.getD j 0).toNat ≤ (m.hv.getD j 0).toNat

/-- R148: digesting `xs` into A and `ys` into B and merging B into A leaves A as a fresh signature C that has
digested the union, in any order. -/
def Obligations.MhMergeIsUnion : Prop :=
  ∀ (s : State) (a b c : SlotNo) (m : MinHash) (xs ys zs : List Word),
    a ≠ b → a ≠ c → b ≠ c → a.val < s.slots.length → b.val < s.slots.length → c.val < s.slots.length →
    m.shaped s.params → m.hv = List.replicate m.k 0xFFFFFFFF#32 →
    readSlot a s = .minhash m → readSlot b s = .minhash m → readSlot c s = .minhash m →
    (∀ h, h ∈ zs ↔ h ∈ xs ∨ h ∈ ys) →
    ∃ t1 t2 t3 t4, feed (.mhDigest a) xs s = .next t1 ∧ feed (.mhDigest b) ys t1 = .next t2 ∧
      feed (.mhDigest c) zs t2 = .next t3 ∧ exec (.mhMerge a b) t3 = .next t4 ∧
      t4.status.code = .ok ∧ readSlot a t4 = readSlot c t4

/-! ### One-bit MinHash -/

/-- 43_onebit.md R160: OB_EXPORT puts the lowest bits of slot B's first `min(k, 128)` hash values into slot A,
with the seed; slot B must be MINHASH. -/
def Obligations.ObExportTakesLowestBits : Prop :=
  ∀ (s : State) (sa sb : SlotNo),
    ((∀ m, readSlot sb s ≠ .minhash m) → exec (.obExport sa sb) s = .next (complete .slotKind s)) ∧
    (∀ m, readSlot sb s = .minhash m → m.shaped s.params →
      ∃ bs : List Bool, exec (.obExport sa sb) s = .next (complete .ok (writeSlot sa (.onebit
          { seed := m.seed, size := min m.k 128, bits := bs }) s)) ∧
        bs.length = min m.k 128 ∧
        ∀ i < min m.k 128, bs.getD i false = decide ((m.hv.getD i 0).toNat % 2 = 1))

/-- R161: OB_XORPOP counts the positions at which an odd number of the masked signatures hold 1
(90_conflicts.md C3), after the checks in order. -/
def Obligations.ObXorpopCountsOddPositions : Prop :=
  ∀ (s : State) (mask : BitVec 16),
    (maskSize mask < 2 → exec (.obXorpop mask) s = .next (complete .invalidArgument s)) ∧
    (2 ≤ maskSize mask → ∀ n < 16, mask.getLsbD n = true → (∀ b, slotAt s n ≠ .onebit b) →
      exec (.obXorpop mask) s = .next (complete .slotKind s)) ∧
    (2 ≤ maskSize mask → ∀ (sig : Nat → OneBit) (n0 : Nat),
      (∀ n < 16, mask.getLsbD n = true → slotAt s n = .onebit (sig n)) →
      lowestOf mask n0 →
      (∀ n < 16, mask.getLsbD n = true → (sig n).seed ≠ (sig n0).seed ∨ (sig n).size ≠ (sig n0).size →
        exec (.obXorpop mask) s = .next (complete .incompatibleSketch s)) ∧
      ((∀ n < 16, mask.getLsbD n = true → (sig n).seed = (sig n0).seed ∧ (sig n).size = (sig n0).size) →
        exec (.obXorpop mask) s = .next (complete .ok (setResult
          (BitVec.ofNat 32 ((Finset.range (sig n0).size).filter fun i =>
            ((Finset.range 16).filter fun n =>
              mask.getLsbD n = true ∧ (sig n).bits.getD i false = true).card % 2 = 1).card)
          (BitVec.ofNat 32 (sig n0).size) s))))

/-- R162: OB_RDWORD gives word ARG of the signature, positions at or above `size` reading 0. -/
def Obligations.ObRdwordReadsOneWord : Prop :=
  ∀ (s : State) (sa : SlotNo),
    ((∀ b, readSlot sa s ≠ .onebit b) → exec (.obRdword sa) s = .next (complete .slotKind s)) ∧
    (∀ b, readSlot sa s = .onebit b →
      (3 < s.regs.arg.toNat → exec (.obRdword sa) s = .next (complete .invalidArgument s)) ∧
      (s.regs.arg.toNat ≤ 3 → ∃ v : Word, exec (.obRdword sa) s = .next (complete .ok (setResult v 0 s)) ∧
        ∀ j < 32, v.getLsbD j = (decide (32 * s.regs.arg.toNat + j < b.size) &&
          b.bits.getD (32 * s.regs.arg.toNat + j) false)))

/-! ### HyperLogLog and HllMinHash -/

/-- 44_hyperloglog.md R172, 45_hllminhash.md R190: the creating commands check the range, then the capacity, and
make `2^P` zero registers, with `2^P` minValues of MAXU32 for HMH_NEW. -/
def Obligations.PrecisionSketchesStartEmpty : Prop :=
  ∀ (s : State) (sa : SlotNo) (p : BitVec 16),
    (p.toNat < 4 ∨ 16 < p.toNat → exec (.hllNew sa p) s = .next (complete .invalidArgument s) ∧
      exec (.hmhNew sa p) s = .next (complete .invalidArgument s)) ∧
    (4 ≤ p.toNat → p.toNat ≤ 16 → s.params.pmax < p.toNat →
      exec (.hllNew sa p) s = .next (complete .capacityExceeded s) ∧
      exec (.hmhNew sa p) s = .next (complete .capacityExceeded s)) ∧
    (4 ≤ p.toNat → p.toNat ≤ 16 → p.toNat ≤ s.params.pmax →
      exec (.hllNew sa p) s = .next (complete .ok (writeSlot sa
        (.hll { p := p.toNat, reg := List.replicate (2 ^ p.toNat) 0 }) s)) ∧
      exec (.hmhNew sa p) s = .next (complete .ok (writeSlot sa
        (.hmh { p := p.toNat, reg := List.replicate (2 ^ p.toNat) 0
                minv := List.replicate (2 ^ p.toNat) 0xFFFFFFFF#32 }) s)))

/-- R170, R171: the bucket is the top `P` bits, the window is the shifted hash with its guard bit, its leading-zero
count is at most `32 - P`, and the register value is that plus one, `33 - P` exactly where the low bits are 0. -/
def Obligations.BucketAndWindowBounds : Prop :=
  ∀ (h : Word) (p : Nat), 4 ≤ p → p ≤ 16 →
    bucket h p = h.toNat / 2 ^ (32 - p) ∧ bucket h p < 2 ^ p ∧
    (window h p).toNat = (h.toNat * 2 ^ p % 2 ^ 32 ||| 2 ^ (p - 1)) ∧ (window h p).getLsbD (p - 1) = true ∧
    lzc32 (window h p) ≤ 32 - p ∧ (rho h p).toNat = lzc32 (window h p) + 1 ∧
    ((rho h p).toNat = 33 - p ↔ h.toNat % 2 ^ (32 - p) = 0)

/-- R173, R191: HLL_DIGEST and HMH_ADD change one bucket, the register to the larger value and, for HMH_ADD, the
minValue to the smaller window. -/
def Obligations.DigestsUpdateOneBucket : Prop :=
  ∀ (s : State) (sa : SlotNo), s.params.wf →
    ((∀ h, readSlot sa s ≠ .hll h) → exec (.hllDigest sa) s = .next (complete .slotKind s)) ∧
    ((∀ x, readSlot sa s ≠ .hmh x) → exec (.hmhAdd sa) s = .next (complete .slotKind s)) ∧
    (∀ h : Hll, readSlot sa s = .hll h → h.shaped s.params →
      ∃ reg : List Byte, exec (.hllDigest sa) s = .next (complete .ok (writeSlot sa (.hll { h with reg := reg }) s)) ∧
        reg.length = 2 ^ h.p ∧
        ∀ j < 2 ^ h.p, (reg.getD j 0).toNat = foldedRegister h.p s.regs.hash (h.reg.getD j 0).toNat j) ∧
    (∀ x : Hmh, readSlot sa s = .hmh x → x.shaped s.params →
      ∃ (reg : List Byte) (minv : List Word),
        exec (.hmhAdd sa) s = .next (complete .ok (writeSlot sa (.hmh { x with reg := reg, minv := minv }) s)) ∧
        reg.length = 2 ^ x.p ∧ minv.length = 2 ^ x.p ∧
        ∀ j < 2 ^ x.p, (reg.getD j 0).toNat = foldedRegister x.p s.regs.hash (x.reg.getD j 0).toNat j ∧
          (minv.getD j 0).toNat =
            if j = s.regs.hash.toNat / 2 ^ (32 - x.p) then
              min (x.minv.getD j 0).toNat (window s.regs.hash x.p).toNat
            else (x.minv.getD j 0).toNat)

/-- R174, R176, R194, R195: HLL_CLEAR zeroes the registers and keeps `P`; the three read commands give the register
or minValue ARG names, InvalidArgument at or above `2^P`, SlotKind for another kind. -/
def Obligations.HllClearAndReadBack : Prop :=
  ∀ (s : State) (sa : SlotNo),
    ((∀ h, readSlot sa s ≠ .hll h) → exec (.hllClear sa) s = .next (complete .slotKind s) ∧
      exec (.hllRdreg sa) s = .next (complete .slotKind s)) ∧
    ((∀ x, readSlot sa s ≠ .hmh x) → exec (.hmhRdreg sa) s = .next (complete .slotKind s) ∧
      exec (.hmhRdmin sa) s = .next (complete .slotKind s)) ∧
    (∀ h, readSlot sa s = .hll h →
      exec (.hllClear sa) s = .next (complete .ok (writeSlot sa
        (.hll { p := h.p, reg := List.replicate (2 ^ h.p) 0 }) s)) ∧
      (2 ^ h.p ≤ s.regs.arg.toNat → exec (.hllRdreg sa) s = .next (complete .invalidArgument s)) ∧
      (s.regs.arg.toNat < 2 ^ h.p → ∀ r, h.reg[s.regs.arg.toNat]? = some r →
        exec (.hllRdreg sa) s = .next (complete .ok (setResult (BitVec.ofNat 32 r.toNat) 0 s)))) ∧
    (∀ x, readSlot sa s = .hmh x →
      (2 ^ x.p ≤ s.regs.arg.toNat → exec (.hmhRdreg sa) s = .next (complete .invalidArgument s) ∧
        exec (.hmhRdmin sa) s = .next (complete .invalidArgument s)) ∧
      (s.regs.arg.toNat < 2 ^ x.p →
        (∀ r, x.reg[s.regs.arg.toNat]? = some r →
          exec (.hmhRdreg sa) s = .next (complete .ok (setResult (BitVec.ofNat 32 r.toNat) 0 s))) ∧
        (∀ v, x.minv[s.regs.arg.toNat]? = some v →
          exec (.hmhRdmin sa) s = .next (complete .ok (setResult v 0 s)))))

/-- R175, R192: HLL_MERGE and HMH_MERGE check kinds, A before B, then precisions, and take the larger register and,
independently, the smaller minValue at each index into slot A. -/
def Obligations.PrecisionMergesTakeExtremes : Prop :=
  ∀ (s : State) (sa sb : SlotNo),
    ((∀ h, readSlot sa s ≠ .hll h) ∨ (∀ h, readSlot sb s ≠ .hll h) →
      exec (.hllMerge sa sb) s = .next (complete .slotKind s)) ∧
    ((∀ x, readSlot sa s ≠ .hmh x) ∨ (∀ x, readSlot sb s ≠ .hmh x) →
      exec (.hmhMerge sa sb) s = .next (complete .slotKind s)) ∧
    (∀ d o : Hll, readSlot sa s = .hll d → readSlot sb s = .hll o →
      (d.p ≠ o.p → exec (.hllMerge sa sb) s = .next (complete .incompatibleSketch s)) ∧
      (d.p = o.p → d.shaped s.params → o.shaped s.params →
        ∃ reg : List Byte, exec (.hllMerge sa sb) s = .next (complete .ok (writeSlot sa (.hll { d with reg := reg }) s)) ∧
          reg.length = 2 ^ d.p ∧
          ∀ j < 2 ^ d.p, (reg.getD j 0).toNat = max (d.reg.getD j 0).toNat (o.reg.getD j 0).toNat)) ∧
    (∀ d o : Hmh, readSlot sa s = .hmh d → readSlot sb s = .hmh o →
      (d.p ≠ o.p → exec (.hmhMerge sa sb) s = .next (complete .incompatibleSketch s)) ∧
      (d.p = o.p → d.shaped s.params → o.shaped s.params →
        ∃ (reg : List Byte) (minv : List Word),
          exec (.hmhMerge sa sb) s = .next (complete .ok (writeSlot sa (.hmh { d with reg := reg, minv := minv }) s)) ∧
          reg.length = 2 ^ d.p ∧ minv.length = 2 ^ d.p ∧
          ∀ j < 2 ^ d.p, (reg.getD j 0).toNat = max (d.reg.getD j 0).toNat (o.reg.getD j 0).toNat ∧
            (minv.getD j 0).toNat = min (d.minv.getD j 0).toNat (o.minv.getD j 0).toNat))

/-- R193: HMH_AGREE counts the buckets whose minValues are equal and gives the number of buckets beside it, after
the checks in order. -/
def Obligations.HmhAgreeCountsEqualMinima : Prop :=
  ∀ (s : State) (sa sb : SlotNo),
    ((∀ x, readSlot sa s ≠ .hmh x) ∨ (∀ x, readSlot sb s ≠ .hmh x) →
      exec (.hmhAgree sa sb) s = .next (complete .slotKind s)) ∧
    (∀ a b : Hmh, readSlot sa s = .hmh a → readSlot sb s = .hmh b →
      (a.p ≠ b.p → exec (.hmhAgree sa sb) s = .next (complete .incompatibleSketch s)) ∧
      (a.p = b.p → a.shaped s.params → b.shaped s.params →
        exec (.hmhAgree sa sb) s = .next (complete .ok (setResult
          (BitVec.ofNat 32 ((Finset.range (2 ^ a.p)).filter fun j => a.minv.getD j 0 = b.minv.getD j 0).card)
          (BitVec.ofNat 32 (2 ^ a.p)) s))))

/-- R177: a sketch that has only digested holds in each register the maximum of 0 and the register values of the
hashes routed to it, and merging two such sketches gives that of the union. -/
def Obligations.HllRegistersAreMaximaOfTheUnion : Prop :=
  ∀ (s : State) (a b c : SlotNo) (h : Hll) (xs ys zs : List Word), s.params.wf →
    a ≠ b → a ≠ c → b ≠ c → a.val < s.slots.length → b.val < s.slots.length → c.val < s.slots.length →
    h.shaped s.params → h.reg = List.replicate (2 ^ h.p) 0 →
    readSlot a s = .hll h → readSlot b s = .hll h → readSlot c s = .hll h →
    (∀ x, x ∈ zs ↔ x ∈ xs ∨ x ∈ ys) →
    ∃ t1 t2 t3 t4, feed (.hllDigest a) xs s = .next t1 ∧ feed (.hllDigest b) ys t1 = .next t2 ∧
      feed (.hllDigest c) zs t2 = .next t3 ∧ exec (.hllMerge a b) t3 = .next t4 ∧
      t4.status.code = .ok ∧ readSlot a t4 = readSlot c t4 ∧
      ∃ reg : List Byte, readSlot c t4 = .hll { h with reg := reg } ∧
        ∀ j < 2 ^ h.p, (reg.getD j 0).toNat =
          ((zs.filter fun x => x.toNat / 2 ^ (32 - h.p) == j).map fun x => lzc32 (window x h.p) + 1).foldr max 0

/-! ### Serializer and deserializer -/

/-- 46_serdes.md R210, R211, R213: MH_SER checks kind, buffer and size in order and writes seed, `k` and hash
values, little-endian, into blob bytes `[0, 12 + 4k)` and nowhere else. -/
def Obligations.MhSerWritesTheBlob : Prop :=
  ∀ (s : State) (sa : SlotNo),
    ((∀ m, readSlot sa s ≠ .minhash m) → exec (.mhSer sa) s = .next (complete .slotKind s)) ∧
    (∀ m, readSlot sa s = .minhash m → m.shaped s.params → s.params.wf →
      (s.params.blobBytes < s.regs.blobLen.toNat → exec (.mhSer sa) s = .next (complete .invalidArgument s)) ∧
      (s.regs.blobLen.toNat ≤ s.params.blobBytes → s.regs.blobLen.toNat < 12 + 4 * m.k →
        exec (.mhSer sa) s = .next (complete .bufferTooSmall s)) ∧
      (s.regs.blobLen.toNat ≤ s.params.blobBytes → 12 + 4 * m.k ≤ s.regs.blobLen.toNat →
        ∃ blob : Memory, exec (.mhSer sa) s = .next (complete .ok
            (setResult (BitVec.ofNat 32 (12 + 4 * m.k)) 0 (setBlob blob s))) ∧
          (∀ i < 8, Memory.read blob i = some (BitVec.ofNat 8 (m.seed.toNat / 2 ^ (8 * i)))) ∧
          (∀ i < 4, Memory.read blob (8 + i) = some (BitVec.ofNat 8 (m.k / 2 ^ (8 * i)))) ∧
          (∀ j < m.k, ∀ i < 4, Memory.read blob (12 + 4 * j + i) =
            some (BitVec.ofNat 8 ((m.hv.getD j 0).toNat / 2 ^ (8 * i)))) ∧
          (∀ a, 12 + 4 * m.k ≤ a → Memory.read blob a = Memory.read s.blob a)))

/-- R210, R211, R214: MH_DES makes its checks in order and loads seed, `k` and hash values as they are, with
regenerated permutations; where the generator hangs the command stays pending (log 3). -/
def Obligations.MhDesLoadsTheBlob : Prop :=
  ∀ (s : State) (sa : SlotNo),
    (s.params.blobBytes < s.regs.blobLen.toNat → exec (.mhDes sa) s = .next (complete .invalidArgument s)) ∧
    (s.regs.blobLen.toNat ≤ s.params.blobBytes → s.regs.blobLen.toNat < 12 →
      exec (.mhDes sa) s = .next (complete .truncatedBuffer s)) ∧
    (s.regs.blobLen.toNat ≤ s.params.blobBytes → 12 ≤ s.regs.blobLen.toNat →
      ∀ k, memRead s.blob 8 4 = some k →
      (k = 0 → exec (.mhDes sa) s = .next (complete .invalidArgument s)) ∧
      (k ≠ 0 → s.regs.blobLen.toNat < 12 + 4 * k → exec (.mhDes sa) s = .next (complete .truncatedBuffer s)) ∧
      (k ≠ 0 → 12 + 4 * k ≤ s.regs.blobLen.toNat → s.params.kmax < k →
        exec (.mhDes sa) s = .next (complete .capacityExceeded s)) ∧
      (k ≠ 0 → 12 + 4 * k ≤ s.regs.blobLen.toNat → k ≤ s.params.kmax →
        ∀ (seed : Nat) (hv : List Word), memRead s.blob 0 8 = some seed → hv.length = k →
          (∀ i < k, memRead s.blob (12 + 4 * i) 4 = some (hv.getD i 0).toNat) →
          exec (.mhDes sa) s = .next
            (match permGen Config.prng (BitVec.ofNat 64 seed) k with
            | none => s
            | some ps => complete .ok (setResult (BitVec.ofNat 32 (12 + 4 * k)) 0 (writeSlot sa (.minhash
                { seed := BitVec.ofNat 64 seed, k := k, perm := ps, hv := hv }) s)))))

/-- R210, R212, R215, R216: HLL_SER writes `P` and the register bytes into blob bytes `[0, 1 + 2^P)`, HLL_DES loads
them as they are, each after its checks in order. -/
def Obligations.HllSerdesLayout : Prop :=
  ∀ (s : State) (sa : SlotNo), s.params.wf →
    ((∀ h, readSlot sa s ≠ .hll h) → exec (.hllSer sa) s = .next (complete .slotKind s)) ∧
    (∀ h : Hll, readSlot sa s = .hll h → h.shaped s.params →
      (s.params.blobBytes < s.regs.blobLen.toNat → exec (.hllSer sa) s = .next (complete .invalidArgument s)) ∧
      (s.regs.blobLen.toNat ≤ s.params.blobBytes → s.regs.blobLen.toNat < 1 + 2 ^ h.p →
        exec (.hllSer sa) s = .next (complete .bufferTooSmall s)) ∧
      (s.regs.blobLen.toNat ≤ s.params.blobBytes → 1 + 2 ^ h.p ≤ s.regs.blobLen.toNat →
        ∃ blob : Memory, exec (.hllSer sa) s = .next (complete .ok
            (setResult (BitVec.ofNat 32 (1 + 2 ^ h.p)) 0 (setBlob blob s))) ∧
          Memory.read blob 0 = some (BitVec.ofNat 8 h.p) ∧
          (∀ j < 2 ^ h.p, Memory.read blob (1 + j) = h.reg[j]?) ∧
          (∀ a, 1 + 2 ^ h.p ≤ a → Memory.read blob a = Memory.read s.blob a))) ∧
    (s.params.blobBytes < s.regs.blobLen.toNat → exec (.hllDes sa) s = .next (complete .invalidArgument s)) ∧
    (s.regs.blobLen.toNat = 0 → exec (.hllDes sa) s = .next (complete .truncatedBuffer s)) ∧
    (s.regs.blobLen.toNat ≤ s.params.blobBytes → 1 ≤ s.regs.blobLen.toNat →
      ∀ b : Byte, Memory.read s.blob 0 = some b →
      (b.toNat < 4 ∨ 16 < b.toNat → exec (.hllDes sa) s = .next (complete .invalidArgument s)) ∧
      (4 ≤ b.toNat → b.toNat ≤ 16 → s.regs.blobLen.toNat < 1 + 2 ^ b.toNat →
        exec (.hllDes sa) s = .next (complete .truncatedBuffer s)) ∧
      (4 ≤ b.toNat → b.toNat ≤ 16 → 1 + 2 ^ b.toNat ≤ s.regs.blobLen.toNat → s.params.pmax < b.toNat →
        exec (.hllDes sa) s = .next (complete .capacityExceeded s)) ∧
      (4 ≤ b.toNat → b.toNat ≤ 16 → 1 + 2 ^ b.toNat ≤ s.regs.blobLen.toNat → b.toNat ≤ s.params.pmax →
        ∀ reg : List Byte, reg.length = 2 ^ b.toNat → (∀ j < 2 ^ b.toNat, Memory.read s.blob (1 + j) = reg[j]?) →
          exec (.hllDes sa) s = .next (complete .ok (setResult (BitVec.ofNat 32 (1 + 2 ^ b.toNat)) 0
            (writeSlot sa (.hll { p := b.toNat, reg := reg }) s)))))

/-- R217: serializing a MinHash slot and deserializing gives an equal slot, permutations included, under every
generator that made them; and a successful deserialize followed by a serialize leaves the blob as it was. MH_DES
is this under the implementation's generator. -/
def Obligations.MhSerdesRoundTrip : Prop :=
  (∀ (sa : SlotNo) (s : State), exec (.mhDes sa) s = mhDesWith Config.prng sa s) ∧
  (∀ (g : Prng) (s : State) (sa sb : SlotNo) (m : MinHash), s.params.wf → sb.val < s.slots.length →
    readSlot sa s = .minhash m → m.shaped s.params → permGen g m.seed m.k = some m.perm →
    12 + 4 * m.k ≤ s.regs.blobLen.toNat → s.regs.blobLen.toNat ≤ s.params.blobBytes →
    ∃ t u, exec (.mhSer sa) s = .next t ∧ mhDesWith g sb t = .next u ∧
      u.status.code = .ok ∧ readSlot sb u = .minhash m) ∧
  (∀ (g : Prng) (s t : State) (sa : SlotNo), sa.val < s.slots.length → s.status.busy = true →
    mhDesWith g sa s = .next t → t.status.busy = false → t.status.code = .ok →
    ∃ u, exec (.mhSer sa) t = .next u ∧ u.status.code = .ok ∧
      u.regs.result = t.regs.result ∧ ∀ a, Memory.read u.blob a = Memory.read s.blob a)

/-- R217: the same two directions for HyperLogLog. -/
def Obligations.HllSerdesRoundTrip : Prop :=
  (∀ (s : State) (sa sb : SlotNo) (h : Hll), s.params.wf → sb.val < s.slots.length →
    readSlot sa s = .hll h → h.shaped s.params →
    1 + 2 ^ h.p ≤ s.regs.blobLen.toNat → s.regs.blobLen.toNat ≤ s.params.blobBytes →
    ∃ t u, exec (.hllSer sa) s = .next t ∧ exec (.hllDes sb) t = .next u ∧
      u.status.code = .ok ∧ readSlot sb u = .hll h) ∧
  (∀ (s t : State) (sa : SlotNo), sa.val < s.slots.length →
    exec (.hllDes sa) s = .next t → t.status.code = .ok →
    ∃ u, exec (.hllSer sa) t = .next u ∧ u.status.code = .ok ∧
      u.regs.result = t.regs.result ∧ ∀ a, Memory.read u.blob a = Memory.read s.blob a)

/-! ### Control -/

/-- 47_control.md R230 to R233: NOP only completes; CLRSTAT clears STICKY and, where no write raced with it, OVR;
where one did, OVR is left open, in the model's form (the field `raced` and a free bit: log 7); FREE empties slot A;
INFO reports the size and the kind code. -/
def Obligations.ControlCommands : Prop :=
  ∀ (s : State) (sa : SlotNo),
    exec .nop s = .next (complete .ok s) ∧
    (∃ (b : Bool) (d : Nat), exec .clrstat s = .next (complete .ok
        { s with status := { s.status with sticky := false, ovr := b }, draws := d }) ∧
      (s.raced = false → b = false ∧ d = s.draws)) ∧
    exec (.free sa) s = .next (complete .ok (writeSlot sa .empty s)) ∧
    (∀ v0 v1 : Nat,
      (readSlot sa s = .empty ∧ v0 = 0 ∧ v1 = 0) ∨ (∃ m, readSlot sa s = .minhash m ∧ v0 = m.k ∧ v1 = 1) ∨
      (∃ h, readSlot sa s = .hll h ∧ v0 = h.p ∧ v1 = 2) ∨ (∃ x, readSlot sa s = .hmh x ∧ v0 = x.p ∧ v1 = 3) ∨
      (∃ b, readSlot sa s = .onebit b ∧ v0 = b.size ∧ v1 = 4) →
      exec (.info sa) s = .next (complete .ok (setResult (BitVec.ofNat 32 v0) (BitVec.ofNat 32 v1) s)))

/-! ### The host's estimators -/

/-- 48_host_estimators.md R243, R259(d), 44_hyperloglog.md R175: the union count of two sketches is the count after
HLL_MERGE, and fails with IncompatibleSketch exactly when HLL_MERGE does. -/
def Obligations.UnionCountIsCountAfterMerge : Prop :=
  ∀ (s t : State) (sa sb : SlotNo) (a b : Hll), sa.val < s.slots.length →
    readSlot sa s = .hll a → readSlot sb s = .hll b → exec (.hllMerge sa sb) s = .next t →
    (t.status.code = .ok → ∃ h, readSlot sa t = .hll h ∧ Estimate.unionCount [a, b] = .ok (Estimate.count h)) ∧
    (t.status.code = .incompatibleSketch ↔ Estimate.unionCount [a, b] = .error .incompatibleSketch)

/-- R240, R241, R242, R245, R246: the count of every sketch of `2^P` registers is what its regime gives (at
`E >= 2^32` the value is open, log 11); below `2^32` it is positive but for a sketch of zero registers, which counts
0, alone; and the Jaccard and the Inclusion of two sketches of zero registers of one precision are 1. -/
def Obligations.EmptySketchesCountZero : Prop :=
  (∀ h : Hll, 4 ≤ h.p → h.p ≤ 16 → h.reg.length = 2 ^ h.p →
    let m : ℝ := 2 ^ h.p
    let e := rawOf h
    (e ≤ 2.5 * m → 0 < zerosOf h → Estimate.count h = m * Real.log (m / zerosOf h)) ∧
    (e ≤ 2.5 * m → zerosOf h = 0 → Estimate.count h = e) ∧
    (2.5 * m < e → e < 2 ^ 32 / 30 → Estimate.count h = e) ∧
    (2.5 * m < e → 2 ^ 32 / 30 ≤ e → e < 2 ^ 32 →
      Estimate.count h = -(2 ^ 32) * Real.log (1 - e / 2 ^ 32)) ∧
    (e < 2 ^ 32 → (Estimate.count h = 0 ↔ ∀ r ∈ h.reg, r = 0) ∧
      ((∃ r ∈ h.reg, r ≠ 0) → 0 < Estimate.count h))) ∧
  (∀ p : Nat, 4 ≤ p → p ≤ 16 →
    Estimate.count (freshHll p) = 0 ∧ Estimate.jaccard (freshHll p) (freshHll p) = .ok 1 ∧
    Estimate.inclusion (freshHll p) (freshHll p) = .ok 1)
end

