-- ==== Sys2Proof/Laws/Memory.lean ====
section
/-! SUPPORT. The laws of blob memory: a read after a write, the canonical form, and the little-endian bytes of a
value (10_state.md R38, 20_memory.md R62). -/

namespace Sys2Proof.Machine

/-- A write is read back at its address and nowhere else. -/
theorem Memory.read_write (m : Memory) (a : Nat) (v : Byte) (x : Nat) :
    Memory.read (Memory.write m a v) x = if x = a then some v else Memory.read m x := by
  induction m with
  | nil => simp [Memory.write, Memory.read]
  | cons c rest ih =>
    obtain ⟨y, b⟩ := c
    simp only [Memory.write]
    split
    · simp [Memory.read]
    · split
      · subst_vars
        simp only [Memory.read]
        split <;> rfl
      · simp only [Memory.read, ih]
        split
        · subst_vars
          rw [if_neg (by omega)]
        · rfl

/-- The canonical form as a fact about every later entry. -/
theorem Memory.wf_cons (a : Host.Cell) (m : Memory) :
    Memory.wf (a :: m) = true ↔ (∀ c ∈ m, a.1 < c.1) ∧ Memory.wf m = true := by
  induction m generalizing a with
  | nil => simp [Memory.wf]
  | cons b rest ih =>
    simp only [Memory.wf, Bool.and_eq_true, decide_eq_true_eq]
    constructor
    · rintro ⟨hab, hb⟩
      refine ⟨fun c hc => ?_, hb⟩
      rcases List.mem_cons.1 hc with rfl | hc
      · exact hab
      · exact Nat.lt_trans hab (((ih b).1 hb).1 c hc)
    · rintro ⟨h, hb⟩
      exact ⟨h b (by simp), hb⟩

/-- The addresses after a write are the old ones and the written one. -/
theorem Memory.mem_write {m : Memory} {a : Nat} {v : Byte} {c : Host.Cell}
    (h : c ∈ Memory.write m a v) : c = (a, v) ∨ c ∈ m := by
  induction m with
  | nil => simpa [Memory.write] using h
  | cons d rest ih =>
    simp only [Memory.write] at h
    split at h
    · simpa using h
    · split at h
      · rcases List.mem_cons.1 h with h | h
        · exact .inl h
        · exact .inr (List.mem_cons_of_mem _ h)
      · rcases List.mem_cons.1 h with h | h
        · exact .inr (by simp [h])
        · exact (ih h).imp_right (List.mem_cons_of_mem _)

/-- A write keeps the canonical form. -/
theorem Memory.write_wf {m : Memory} (a : Nat) (v : Byte) (h : Memory.wf m = true) :
    Memory.wf (Memory.write m a v) = true := by
  induction m with
  | nil => rfl
  | cons c rest ih =>
    obtain ⟨hlt, hrest⟩ := (Memory.wf_cons c rest).1 h
    simp only [Memory.write]
    split
    · rename_i hac
      refine (Memory.wf_cons _ _).2 ⟨fun d hd => ?_, h⟩
      rcases List.mem_cons.1 hd with rfl | hd
      · exact hac
      · exact Nat.lt_trans hac (hlt d hd)
    · split
      · rename_i hac
        exact (Memory.wf_cons _ _).2 ⟨fun d hd => hac ▸ hlt d hd, hrest⟩
      · refine (Memory.wf_cons _ _).2 ⟨fun d hd => ?_, ih hrest⟩
        rcases Memory.mem_write hd with rfl | hd
        · show c.1 < a
          omega
        · exact hlt d hd

/-- Consecutive writes are read back byte by byte, and change nothing else. -/
theorem Memory.read_writeList (m : Memory) (a : Nat) (vs : List Byte) (x : Nat) :
    Memory.read (Memory.writeList m a vs) x =
      if a ≤ x ∧ x < a + vs.length then vs[x - a]? else Memory.read m x := by
  induction vs generalizing m a with
  | nil => simp [Memory.writeList]
  | cons v vs ih =>
    simp only [Memory.writeList, ih, Memory.read_write, List.length_cons]
    rcases Nat.lt_trichotomy x a with h | h | h
    · rw [if_neg (by omega), if_neg (by omega), if_neg (by omega)]
    · subst h
      rw [if_neg (by omega), if_pos rfl, if_pos (by omega)]
      simp
    · by_cases hx : x < a + 1 + vs.length
      · rw [if_pos (by omega), if_pos (by omega), show x - a = (x - (a + 1)) + 1 by omega]
        simp
      · rw [if_neg (by omega), if_neg (by omega), if_neg (by omega)]

/-- Consecutive writes keep the canonical form. -/
theorem Memory.writeList_wf {m : Memory} (a : Nat) (vs : List Byte) (h : Memory.wf m = true) :
    Memory.wf (Memory.writeList m a vs) = true := by
  induction vs generalizing m a with
  | nil => exact h
  | cons v vs ih => exact ih _ (Memory.write_wf a v h)

/-- The addresses after consecutive writes are the old ones and the written ones. -/
theorem Memory.mem_writeList {m : Memory} {a : Nat} {vs : List Byte} {c : Host.Cell}
    (h : c ∈ Memory.writeList m a vs) : (a ≤ c.1 ∧ c.1 < a + vs.length) ∨ c ∈ m := by
  induction vs generalizing m a with
  | nil => exact .inr h
  | cons v vs ih =>
    rcases ih h with h | h
    · left; simp only [List.length_cons]; omega
    · rcases Memory.mem_write h with rfl | h
      · left; simp
      · exact .inr h

/-- Reading a list of bytes succeeds exactly when every byte has been written, and then gives those bytes. -/
theorem Memory.readList_eq_some (m : Memory) (a n : Nat) (bs : List Byte) :
    Memory.readList m a n = some bs ↔
      bs.length = n ∧ ∀ i < n, Memory.read m (a + i) = bs[i]? := by
  induction n generalizing a bs with
  | zero => cases bs <;> simp [Memory.readList]
  | succ n ih =>
    simp only [Memory.readList]
    constructor
    · intro h
      split at h
      · rename_i b rest hb hrest
        obtain rfl : b :: rest = bs := by simpa using h
        obtain ⟨hlen, hall⟩ := (ih _ _).1 hrest
        refine ⟨by simp [hlen], fun i hi => ?_⟩
        cases i with
        | zero => simpa using hb
        | succ i => rw [← Nat.add_assoc, Nat.add_right_comm]; simpa using hall i (by omega)
      · cases h
    · rintro ⟨hlen, hall⟩
      cases bs with
      | nil => simp at hlen
      | cons b rest =>
        have hb := hall 0 (by omega)
        have hrest : Memory.readList m (a + 1) n = some rest := by
          refine (ih _ _).2 ⟨by simpa using hlen, fun i hi => ?_⟩
          have := hall (i + 1) (by omega)
          rw [← Nat.add_assoc, Nat.add_right_comm] at this
          simpa using this
        simp only [Nat.add_zero, List.getElem?_cons_zero] at hb
        simp [hb, hrest]

@[simp] theorem leBytes_length (n v : Nat) : (leBytes n v).length = n := by
  induction n generalizing v with
  | zero => rfl
  | succ n ih => simp [leBytes, ih]

/-- The bytes of a value give the value back, modulo its width. -/
theorem leValue_leBytes (n v : Nat) : leValue (leBytes n v) = v % 2 ^ (8 * n) := by
  induction n generalizing v with
  | zero => simp [leBytes, leValue, Nat.mod_one]
  | succ n ih =>
    simp only [leBytes, leValue, ih, BitVec.toNat_ofNat]
    rw [show 8 * (n + 1) = 8 + 8 * n by omega, Nat.pow_add, Nat.mod_mul]

/-- The value of bytes gives the bytes back. -/
theorem leBytes_leValue (bs : List Byte) : leBytes bs.length (leValue bs) = bs := by
  induction bs with
  | nil => rfl
  | cons b bs ih =>
    simp only [List.length_cons, leBytes, leValue]
    have hb := b.isLt
    rw [show (b.toNat + 2 ^ 8 * leValue bs) / 2 ^ 8 = leValue bs by omega, ih]
    congr 1
    apply BitVec.eq_of_toNat_eq
    simp only [BitVec.toNat_ofNat]
    omega

end Sys2Proof.Machine
end

