-- ==== Sys2Proof/Laws/State.lean ====
section
/-! SUPPORT. One lemma per field per update, so that no later proof unfolds a record update. -/

namespace Sys2Proof.Machine

@[simp] theorem complete_params (c : ResultCode) (s : State) : (complete c s).params = s.params := rfl
@[simp] theorem complete_regs (c : ResultCode) (s : State) : (complete c s).regs = s.regs := rfl
@[simp] theorem complete_status (c : ResultCode) (s : State) :
    (complete c s).status = { s.status with code := c, err := decide (c ≠ .ok), sticky := s.status.sticky || decide (c ≠ .ok), busy := false } := rfl
@[simp] theorem complete_pending (c : ResultCode) (s : State) : (complete c s).pending = none := rfl
@[simp] theorem complete_raced (c : ResultCode) (s : State) : (complete c s).raced = false := rfl
@[simp] theorem complete_slots (c : ResultCode) (s : State) : (complete c s).slots = s.slots := rfl
@[simp] theorem complete_blob (c : ResultCode) (s : State) : (complete c s).blob = s.blob := rfl
@[simp] theorem complete_draws (c : ResultCode) (s : State) : (complete c s).draws = s.draws := rfl
@[simp] theorem complete_host (c : ResultCode) (s : State) : (complete c s).host = s.host := rfl

@[simp] theorem acceptCommand_params (w : Word) (s : State) : (acceptCommand w s).params = s.params := rfl
@[simp] theorem acceptCommand_regs (w : Word) (s : State) : (acceptCommand w s).regs = s.regs := rfl
@[simp] theorem acceptCommand_status (w : Word) (s : State) :
    (acceptCommand w s).status = { s.status with busy := true } := rfl
@[simp] theorem acceptCommand_pending (w : Word) (s : State) : (acceptCommand w s).pending = some w := rfl
@[simp] theorem acceptCommand_raced (w : Word) (s : State) : (acceptCommand w s).raced = false := rfl
@[simp] theorem acceptCommand_slots (w : Word) (s : State) : (acceptCommand w s).slots = s.slots := rfl
@[simp] theorem acceptCommand_blob (w : Word) (s : State) : (acceptCommand w s).blob = s.blob := rfl
@[simp] theorem acceptCommand_draws (w : Word) (s : State) : (acceptCommand w s).draws = s.draws := rfl
@[simp] theorem acceptCommand_host (w : Word) (s : State) : (acceptCommand w s).host = s.host := rfl

@[simp] theorem ignoreWrite_params (s : State) : (ignoreWrite s).params = s.params := rfl
@[simp] theorem ignoreWrite_regs (s : State) : (ignoreWrite s).regs = s.regs := rfl
@[simp] theorem ignoreWrite_status (s : State) : (ignoreWrite s).status = { s.status with ovr := true } := rfl
@[simp] theorem ignoreWrite_pending (s : State) : (ignoreWrite s).pending = s.pending := rfl
@[simp] theorem ignoreWrite_raced (s : State) : (ignoreWrite s).raced = true := rfl
@[simp] theorem ignoreWrite_slots (s : State) : (ignoreWrite s).slots = s.slots := rfl
@[simp] theorem ignoreWrite_blob (s : State) : (ignoreWrite s).blob = s.blob := rfl
@[simp] theorem ignoreWrite_draws (s : State) : (ignoreWrite s).draws = s.draws := rfl
@[simp] theorem ignoreWrite_host (s : State) : (ignoreWrite s).host = s.host := rfl

@[simp] theorem clearAccumulated_params (s : State) : (clearAccumulated s).params = s.params := rfl
@[simp] theorem clearAccumulated_regs (s : State) : (clearAccumulated s).regs = s.regs := rfl
@[simp] theorem clearAccumulated_status (s : State) :
    (clearAccumulated s).status = { s.status with sticky := false, ovr := if s.raced then Config.freeBit s.draws else false } := rfl
@[simp] theorem clearAccumulated_pending (s : State) : (clearAccumulated s).pending = s.pending := rfl
@[simp] theorem clearAccumulated_raced (s : State) : (clearAccumulated s).raced = s.raced := rfl
@[simp] theorem clearAccumulated_slots (s : State) : (clearAccumulated s).slots = s.slots := rfl
@[simp] theorem clearAccumulated_blob (s : State) : (clearAccumulated s).blob = s.blob := rfl
@[simp] theorem clearAccumulated_draws (s : State) :
    (clearAccumulated s).draws = if s.raced then s.draws + 1 else s.draws := rfl
@[simp] theorem clearAccumulated_host (s : State) : (clearAccumulated s).host = s.host := rfl

@[simp] theorem writeSlot_params (n : SlotNo) (x : Slot) (s : State) :
    (writeSlot n x s).params = s.params := rfl
@[simp] theorem writeSlot_regs (n : SlotNo) (x : Slot) (s : State) : (writeSlot n x s).regs = s.regs := rfl
@[simp] theorem writeSlot_status (n : SlotNo) (x : Slot) (s : State) :
    (writeSlot n x s).status = s.status := rfl
@[simp] theorem writeSlot_pending (n : SlotNo) (x : Slot) (s : State) :
    (writeSlot n x s).pending = s.pending := rfl
@[simp] theorem writeSlot_raced (n : SlotNo) (x : Slot) (s : State) : (writeSlot n x s).raced = s.raced := rfl
@[simp] theorem writeSlot_slots (n : SlotNo) (x : Slot) (s : State) :
    (writeSlot n x s).slots = s.slots.set n.val x := rfl
@[simp] theorem writeSlot_blob (n : SlotNo) (x : Slot) (s : State) : (writeSlot n x s).blob = s.blob := rfl
@[simp] theorem writeSlot_draws (n : SlotNo) (x : Slot) (s : State) : (writeSlot n x s).draws = s.draws := rfl
@[simp] theorem writeSlot_host (n : SlotNo) (x : Slot) (s : State) : (writeSlot n x s).host = s.host := rfl

@[simp] theorem setResult_params (v0 v1 : Word) (s : State) : (setResult v0 v1 s).params = s.params := rfl
@[simp] theorem setResult_regs (v0 v1 : Word) (s : State) :
    (setResult v0 v1 s).regs = { s.regs with result := v0, resultHi := v1 } := rfl
@[simp] theorem setResult_status (v0 v1 : Word) (s : State) : (setResult v0 v1 s).status = s.status := rfl
@[simp] theorem setResult_pending (v0 v1 : Word) (s : State) : (setResult v0 v1 s).pending = s.pending := rfl
@[simp] theorem setResult_raced (v0 v1 : Word) (s : State) : (setResult v0 v1 s).raced = s.raced := rfl
@[simp] theorem setResult_slots (v0 v1 : Word) (s : State) : (setResult v0 v1 s).slots = s.slots := rfl
@[simp] theorem setResult_blob (v0 v1 : Word) (s : State) : (setResult v0 v1 s).blob = s.blob := rfl
@[simp] theorem setResult_draws (v0 v1 : Word) (s : State) : (setResult v0 v1 s).draws = s.draws := rfl
@[simp] theorem setResult_host (v0 v1 : Word) (s : State) : (setResult v0 v1 s).host = s.host := rfl

@[simp] theorem setBlob_params (m : Memory) (s : State) : (setBlob m s).params = s.params := rfl
@[simp] theorem setBlob_regs (m : Memory) (s : State) : (setBlob m s).regs = s.regs := rfl
@[simp] theorem setBlob_status (m : Memory) (s : State) : (setBlob m s).status = s.status := rfl
@[simp] theorem setBlob_pending (m : Memory) (s : State) : (setBlob m s).pending = s.pending := rfl
@[simp] theorem setBlob_raced (m : Memory) (s : State) : (setBlob m s).raced = s.raced := rfl
@[simp] theorem setBlob_slots (m : Memory) (s : State) : (setBlob m s).slots = s.slots := rfl
@[simp] theorem setBlob_blob (m : Memory) (s : State) : (setBlob m s).blob = m := rfl
@[simp] theorem setBlob_draws (m : Memory) (s : State) : (setBlob m s).draws = s.draws := rfl
@[simp] theorem setBlob_host (m : Memory) (s : State) : (setBlob m s).host = s.host := rfl

@[simp] theorem record_params (a : Access) (r : Reply) (s : State) : (record a r s).params = s.params := rfl
@[simp] theorem record_regs (a : Access) (r : Reply) (s : State) : (record a r s).regs = s.regs := rfl
@[simp] theorem record_status (a : Access) (r : Reply) (s : State) : (record a r s).status = s.status := rfl
@[simp] theorem record_pending (a : Access) (r : Reply) (s : State) :
    (record a r s).pending = s.pending := rfl
@[simp] theorem record_raced (a : Access) (r : Reply) (s : State) : (record a r s).raced = s.raced := rfl
@[simp] theorem record_slots (a : Access) (r : Reply) (s : State) : (record a r s).slots = s.slots := rfl
@[simp] theorem record_blob (a : Access) (r : Reply) (s : State) : (record a r s).blob = s.blob := rfl
@[simp] theorem record_draws (a : Access) (r : Reply) (s : State) : (record a r s).draws = s.draws := rfl
@[simp] theorem record_host (a : Access) (r : Reply) (s : State) :
    (record a r s).host = { s.host with log := ⟨a, r⟩ :: s.host.log } := rfl

@[simp] theorem setProg_params (prog : List HostOp) (s : State) : (setProg prog s).params = s.params := rfl
@[simp] theorem setProg_regs (prog : List HostOp) (s : State) : (setProg prog s).regs = s.regs := rfl
@[simp] theorem setProg_status (prog : List HostOp) (s : State) : (setProg prog s).status = s.status := rfl
@[simp] theorem setProg_pending (prog : List HostOp) (s : State) : (setProg prog s).pending = s.pending := rfl
@[simp] theorem setProg_raced (prog : List HostOp) (s : State) : (setProg prog s).raced = s.raced := rfl
@[simp] theorem setProg_slots (prog : List HostOp) (s : State) : (setProg prog s).slots = s.slots := rfl
@[simp] theorem setProg_blob (prog : List HostOp) (s : State) : (setProg prog s).blob = s.blob := rfl
@[simp] theorem setProg_draws (prog : List HostOp) (s : State) : (setProg prog s).draws = s.draws := rfl
@[simp] theorem setProg_host (prog : List HostOp) (s : State) :
    (setProg prog s).host = { s.host with prog := prog } := rfl

@[simp] theorem popTurn_params (s : State) : (popTurn s).params = s.params := rfl
@[simp] theorem popTurn_regs (s : State) : (popTurn s).regs = s.regs := rfl
@[simp] theorem popTurn_status (s : State) : (popTurn s).status = s.status := rfl
@[simp] theorem popTurn_pending (s : State) : (popTurn s).pending = s.pending := rfl
@[simp] theorem popTurn_raced (s : State) : (popTurn s).raced = s.raced := rfl
@[simp] theorem popTurn_slots (s : State) : (popTurn s).slots = s.slots := rfl
@[simp] theorem popTurn_blob (s : State) : (popTurn s).blob = s.blob := rfl
@[simp] theorem popTurn_draws (s : State) : (popTurn s).draws = s.draws := rfl
@[simp] theorem popTurn_host (s : State) :
    (popTurn s).host = { s.host with sched := s.host.sched.tail } := rfl

end Sys2Proof.Machine
end

