-- ==== Sys2Proof/Laws/Ops.lean ====
section
/-! SUPPORT. What each shared operation can do, said once: a proof about a command cites these instead of
unfolding the operation (60_exceptions.md R271, R272). -/

namespace Sys2Proof.Machine

/-- A check either lets the command go on or ends it with its code. -/
theorem require_cases (ok : Bool) (c : ResultCode) (s : State) (k : StepOutcome) :
    (ok = true ∧ require ok c s k = k) ∨ (ok = false ∧ require ok c s k = .next (complete c s)) := by
  cases ok
  · exact .inr ⟨rfl, rfl⟩
  · exact .inl ⟨rfl, rfl⟩

@[simp] theorem require_true (c : ResultCode) (s : State) (k : StepOutcome) : require true c s k = k := rfl

@[simp] theorem require_false (c : ResultCode) (s : State) (k : StepOutcome) :
    require false c s k = .next (complete c s) := rfl

/-- A MinHash operand: the slot's signature, or SlotKind. -/
theorem onMinHash_cases (n : SlotNo) (s : State) (k : MinHash → StepOutcome) :
    (∃ m, readSlot n s = .minhash m ∧ onMinHash n s k = k m) ∨
    ((∀ m, readSlot n s ≠ .minhash m) ∧ onMinHash n s k = .next (complete .slotKind s)) := by
  unfold onMinHash raise
  cases readSlot n s <;> simp

/-- A HyperLogLog operand: the slot's sketch, or SlotKind. -/
theorem onHll_cases (n : SlotNo) (s : State) (k : Hll → StepOutcome) :
    (∃ h, readSlot n s = .hll h ∧ onHll n s k = k h) ∨
    ((∀ h, readSlot n s ≠ .hll h) ∧ onHll n s k = .next (complete .slotKind s)) := by
  unfold onHll raise
  cases readSlot n s <;> simp

/-- An HllMinHash operand: the slot's sketch, or SlotKind. -/
theorem onHmh_cases (n : SlotNo) (s : State) (k : Hmh → StepOutcome) :
    (∃ x, readSlot n s = .hmh x ∧ onHmh n s k = k x) ∨
    ((∀ x, readSlot n s ≠ .hmh x) ∧ onHmh n s k = .next (complete .slotKind s)) := by
  unfold onHmh raise
  cases readSlot n s <;> simp

/-- A one-bit operand: the slot's signature, or SlotKind. -/
theorem onOneBit_cases (n : SlotNo) (s : State) (k : OneBit → StepOutcome) :
    (∃ b, readSlot n s = .onebit b ∧ onOneBit n s k = k b) ∨
    ((∀ b, readSlot n s ≠ .onebit b) ∧ onOneBit n s k = .next (complete .slotKind s)) := by
  unfold onOneBit raise
  cases readSlot n s <;> simp

/-- A deserializer's read: the value, or the model fault. -/
theorem onWritten_cases {α : Type} (v : Option α) (k : α → StepOutcome) :
    (∃ x, v = some x ∧ onWritten v k = k x) ∨ (v = none ∧ onWritten v k = .fault .unwrittenBlobByte) := by
  cases v <;> simp [onWritten]

/-- The slot just written is read back. -/
theorem readSlot_writeSlot_same (n : SlotNo) (x : Slot) (s : State) (h : n.val < s.slots.length) :
    readSlot n (writeSlot n x s) = x := by
  simp [readSlot, h]

/-- Writing one slot changes no other slot (10_state.md R36). -/
theorem readSlot_writeSlot_other {n n' : SlotNo} (x : Slot) (s : State) (h : n' ≠ n) :
    readSlot n' (writeSlot n x s) = readSlot n' s := by
  have : n.val ≠ n'.val := fun e => h (Fin.ext e.symm)
  simp [readSlot, List.getElem?_set_ne this]

@[simp] theorem writeSlot_slots_length (n : SlotNo) (x : Slot) (s : State) :
    (writeSlot n x s).slots.length = s.slots.length := by
  simp

/-- The engine's step on a word that decodes. -/
theorem runCommand_ok {w : Word} {s : State} {i : Instr} (h : decode s.params.nslot w = .ok i) :
    runCommand w s = exec i s := by
  simp [runCommand, h]

/-- The engine's step on an Illegal word. -/
theorem runCommand_illegal {w : Word} {s : State} {e : Illegal} (h : decode s.params.nslot w = .error e) :
    runCommand w s = .next (complete .illegalCommand s) := by
  simp [runCommand, h, raise]

end Sys2Proof.Machine
end

