-- ==== Sys2Proof/Laws/Launch.lean ====
section
/-! SUPPORT. The launch premise CleanIdle (70_reset_and_hazards.md R317). A slot that counts as created by a listed
command holds a sketch of the kind such a command makes, and "the state right after reset satisfies CleanIdle": from
reset every sketch stems from a command that created it and every written byte from the program. -/

namespace Sys2Proof.Machine

/-- The kind code of what slot `n` holds (10_state.md R30). -/
def kindAt (n : SlotNo) (s : State) : Nat := (slotInfo (readSlot n s)).2

theorem kindAt_eq_zero {n : SlotNo} {s : State} : kindAt n s = 0 ↔ readSlot n s = .empty := by
  unfold kindAt
  cases readSlot n s <;> simp [slotInfo]

theorem readSlot_congr {s t : State} (h : t.slots = s.slots) (n : SlotNo) : readSlot n t = readSlot n s := by
  rw [readSlot, h, readSlot]

theorem kindAt_congr {s t : State} (h : t.slots = s.slots) (n : SlotNo) : kindAt n t = kindAt n s := by
  rw [kindAt, readSlot_congr h, kindAt]

/-- A slot just written holds what was written, or does not exist. -/
theorem readSlot_of_set {s s' : State} {n : SlotNo} {x : Slot} (hs : s'.slots = s.slots.set n.val x) :
    readSlot n s' = x ∨ readSlot n s' = .empty := by
  rw [readSlot, hs, List.getD_eq_getElem?_getD, List.getElem?_set_self']
  cases s.slots[n.val]? <;> simp

/-- A command's outcome takes its data from `s`, from the slot `made` where it ends OK, and from the bytes `bs` where
it ends OK; no other sketch changes its kind. -/
def TakesFrom (made : Option SlotNo) (bs : List Nat) (s : State) (o : StepOutcome) : Prop :=
  ∀ t, o = .next t →
    (∀ n, readSlot n t ≠ .empty → kindAt n t = kindAt n s ∨ (made = some n ∧ t.completedOk)) ∧
    (∀ a, Memory.read t.blob a ≠ none → Memory.read s.blob a ≠ none ∨ (a ∈ bs ∧ t.completedOk))

section
variable {made : Option SlotNo} {bs : List Nat} {s s' : State}

/-- An outcome that keeps slots and blob takes nothing. -/
theorem TakesFrom.of_same (hs : s'.slots = s.slots) (hb : s'.blob = s.blob) : TakesFrom made bs s (.next s') := by
  rintro t ⟨⟩
  exact ⟨fun n _ => .inl (kindAt_congr hs n), fun a h => .inl (hb ▸ h)⟩

/-- A result written, nothing else. -/
theorem TakesFrom.result (a b : Word) : TakesFrom made bs s (finish (setResult a b s)) :=
  .of_same (s' := complete .ok (setResult a b s)) rfl rfl

/-- An error. -/
theorem TakesFrom.error (c : ResultCode) : TakesFrom made bs s (raise c s) := .of_same (s' := complete c s) rfl rfl

theorem TakesFrom.require {ok : Bool} {c : ResultCode} {k : StepOutcome} (hk : TakesFrom made bs s k) :
    TakesFrom made bs s (Machine.require ok c s k) := by
  rcases require_cases ok c s k with ⟨_, e⟩ | ⟨_, e⟩ <;> rw [e]
  · exact hk
  · exact .of_same rfl rfl

theorem TakesFrom.onMinHash {n : SlotNo} {k : MinHash → StepOutcome}
    (hk : ∀ m, readSlot n s = .minhash m → TakesFrom made bs s (k m)) : TakesFrom made bs s (Machine.onMinHash n s k) := by
  rcases onMinHash_cases n s k with ⟨m, h, e⟩ | ⟨_, e⟩ <;> rw [e]
  · exact hk m h
  · exact .of_same rfl rfl

theorem TakesFrom.onHll {n : SlotNo} {k : Hll → StepOutcome}
    (hk : ∀ m, readSlot n s = .hll m → TakesFrom made bs s (k m)) : TakesFrom made bs s (Machine.onHll n s k) := by
  rcases onHll_cases n s k with ⟨m, h, e⟩ | ⟨_, e⟩ <;> rw [e]
  · exact hk m h
  · exact .of_same rfl rfl

theorem TakesFrom.onHmh {n : SlotNo} {k : Hmh → StepOutcome}
    (hk : ∀ m, readSlot n s = .hmh m → TakesFrom made bs s (k m)) : TakesFrom made bs s (Machine.onHmh n s k) := by
  rcases onHmh_cases n s k with ⟨m, h, e⟩ | ⟨_, e⟩ <;> rw [e]
  · exact hk m h
  · exact .of_same rfl rfl

theorem TakesFrom.onOneBit {n : SlotNo} {k : OneBit → StepOutcome}
    (hk : ∀ m, readSlot n s = .onebit m → TakesFrom made bs s (k m)) : TakesFrom made bs s (Machine.onOneBit n s k) := by
  rcases onOneBit_cases n s k with ⟨m, h, e⟩ | ⟨_, e⟩ <;> rw [e]
  · exact hk m h
  · exact .of_same rfl rfl

theorem TakesFrom.onWritten {α : Type} {v : Option α} {k : α → StepOutcome} (hk : ∀ x, TakesFrom made bs s (k x)) :
    TakesFrom made bs s (Machine.onWritten v k) := by
  rcases onWritten_cases v k with ⟨x, _, e⟩ | ⟨_, e⟩ <;> rw [e]
  · exact hk x
  · rintro t ⟨⟩

/-- A write to a slot of what has its kind, or to the slot a creating command names. -/
theorem TakesFrom.write {n : SlotNo} {x : Slot} (hb : s'.blob = s.blob) (hs : s'.slots = s.slots.set n.val x)
    (h : x = .empty ∨ (slotInfo x).2 = kindAt n s ∨ made = some n) : TakesFrom made bs s (finish s') := by
  rintro t ⟨⟩
  refine ⟨fun n' hn => ?_, fun a h => .inl (hb ▸ h)⟩
  by_cases e : n' = n
  · subst e
    rcases h with h | h | h
    · exact absurd ((readSlot_of_set hs).elim (·.trans h) id) hn
    · refine .inl (Eq.trans ?_ h)
      rw [kindAt, show readSlot n' (complete .ok s') = x from (readSlot_of_set hs).resolve_right hn]
    · exact .inr ⟨h, rfl, rfl⟩
  · left
    rw [kindAt, kindAt, ← readSlot_writeSlot_other x s e]
    exact congrArg (fun y => (slotInfo y).2) (readSlot_congr (s := writeSlot n x s) (t := complete .ok s') hs n')

/-- The slot write of most commands. -/
theorem TakesFrom.slot {n : SlotNo} {x : Slot} (h : x = .empty ∨ (slotInfo x).2 = kindAt n s ∨ made = some n) :
    TakesFrom made bs s (finish (writeSlot n x s)) := .write (s' := writeSlot n x s) rfl rfl h

/-- The slot write and result of a deserializer. -/
theorem TakesFrom.slotAndResult {n : SlotNo} {x : Slot} (a b : Word) (h : made = some n) :
    TakesFrom made bs s (finish (setResult a b (writeSlot n x s))) :=
  .write (s' := setResult a b (writeSlot n x s)) rfl rfl (.inr (.inr h))

/-- A serializer writes the bytes of its blob. -/
theorem TakesFrom.serialize {size : Nat} {bytes : List Byte} :
    TakesFrom made (List.range bytes.length) s (Machine.serialize size bytes s) := by
  refine TakesFrom.require (TakesFrom.require ?_)
  rintro t ⟨⟩
  refine ⟨fun n _ => .inl rfl, fun a h => ?_⟩
  replace h : Memory.read (Memory.writeList s.blob 0 bytes) a ≠ none := h
  rw [Memory.read_writeList] at h
  split at h
  · exact .inr ⟨List.mem_range.2 (by omega), rfl, rfl⟩
  · exact .inl h

end

/-- Every command takes its data from what was there, from the slot it creates and from the bytes it serializes. -/
theorem exec_takesFrom (i : Instr) (s : State) : TakesFrom (createdSlot i) (bytesSerialized i s) s (exec i s) := by
  have held {n : SlotNo} {y : Slot} {k : Nat} (h : readSlot n s = y) (hk : (slotInfo y).2 = k) : k = kindAt n s := by
    rw [kindAt, h, hk]
  cases i with
  | nop => exact .of_same (s' := complete .ok s) rfl rfl
  | clrstat => exact .of_same (s' := complete .ok (clearAccumulated s)) rfl rfl
  | free sa => exact .slot (.inl rfl)
  | info sa => exact .result _ _
  | lzc32 => exact .result _ _
  | extract hi lo => exact .require (.result _ _)
  | popcnt32 => exact .result _ _
  | mhPerm sa => exact .onMinHash fun _ _ => .require (.result _ _)
  | mhRdperm sa => exact .onMinHash fun _ _ => .require (.result _ _)
  | mhNew sa =>
    refine .require (.require ?_)
    split
    · exact .of_same (s' := s) rfl rfl
    · exact .slot (.inr (.inr rfl))
  | mhDigest sa => exact .onMinHash fun _ h => .slot (.inr (.inl (held h rfl)))
  | mhClear sa => exact .onMinHash fun _ h => .slot (.inr (.inl (held h rfl)))
  | mhMerge sa sb =>
    exact .onMinHash fun _ h => .onMinHash fun _ _ => .require (.slot (.inr (.inl (held h rfl))))
  | mhAgree mask =>
    refine .require ?_
    split
    · exact .error _
    · exact .error _
    · exact .require (.result _ _)
  | mhRdval sa => exact .onMinHash fun _ _ => .require (.result _ _)
  | mhSeed sa =>
    show TakesFrom _ _ s (execMhSeed sa s)
    unfold execMhSeed
    split
    · exact .result _ _
    · exact .result _ _
    · exact .error _
  | obExport sa sb => exact .onMinHash fun _ _ => .slot (.inr (.inr rfl))
  | obXorpop mask =>
    refine .require ?_
    split
    · exact .error _
    · exact .error _
    · exact .require (.result _ _)
  | obRdword sa => exact .onOneBit fun _ _ => .require (.result _ _)
  | hllNew sa p => exact .require (.require (.slot (.inr (.inr rfl))))
  | hllDigest sa => exact .onHll fun _ h => .slot (.inr (.inl (held h rfl)))
  | hllClear sa => exact .onHll fun _ h => .slot (.inr (.inl (held h rfl)))
  | hllMerge sa sb => exact .onHll fun _ h => .onHll fun _ _ => .require (.slot (.inr (.inl (held h rfl))))
  | hllRdreg sa => exact .onHll fun _ _ => .require (.result _ _)
  | hmhNew sa p => exact .require (.require (.slot (.inr (.inr rfl))))
  | hmhAdd sa => exact .onHmh fun _ h => .slot (.inr (.inl (held h rfl)))
  | hmhMerge sa sb => exact .onHmh fun _ h => .onHmh fun _ _ => .require (.slot (.inr (.inl (held h rfl))))
  | hmhAgree sa sb => exact .onHmh fun _ _ => .onHmh fun _ _ => .require (.result _ _)
  | hmhRdreg sa => exact .onHmh fun _ _ => .require (.result _ _)
  | hmhRdmin sa => exact .onHmh fun _ _ => .require (.result _ _)
  | mhSer sa =>
    refine .onMinHash fun m h => ?_
    simp only [bytesSerialized, h]
    exact .serialize
  | mhDes sa =>
    refine .require (.require (.onWritten fun k => .require (.require (.require (.onWritten fun _ => .onWritten fun _ => ?_)))))
    split
    · exact .of_same (s' := s) rfl rfl
    · exact .slotAndResult _ _ rfl
  | hllSer sa =>
    refine .onHll fun m h => ?_
    simp only [bytesSerialized, h]
    exact .serialize
  | hllDes sa =>
    exact .require (.require (.onWritten fun _ => .require (.require (.require (.onWritten fun _ =>
      .slotAndResult _ _ rfl)))))

/-- The kind a creating command makes (10_state.md R30), 0 for every other command. -/
def kindMade : Instr → Nat
  | .mhNew _ => 1
  | .mhDes _ => 1
  | .obExport _ _ => 4
  | .hllNew _ _ => 2
  | .hllDes _ => 2
  | .hmhNew _ _ => 3
  | _ => 0

/-- Where an outcome completes OK, slot `n` holds a sketch of kind `k`, or does not exist. -/
def Makes (n : SlotNo) (k : Nat) (o : StepOutcome) : Prop :=
  ∀ t, o = .next t → t.completedOk → readSlot n t = .empty ∨ kindAt n t = k

section
variable {n : SlotNo} {k : Nat} {s s' : State}

theorem Makes.of_code (h : s'.status.code ≠ .ok ∨ s'.pending ≠ none) : Makes n k (.next s') := by
  rintro t ⟨⟩ ⟨h1, h2⟩
  exact h.elim (absurd h1) (absurd h2)

theorem Makes.require {ok : Bool} {c : ResultCode} {o : StepOutcome} (hc : c ≠ .ok) (ho : Makes n k o) :
    Makes n k (Machine.require ok c s o) := by
  rcases require_cases ok c s o with ⟨_, e⟩ | ⟨_, e⟩ <;> rw [e]
  · exact ho
  · exact .of_code (.inl hc)

theorem Makes.onWritten {α : Type} {v : Option α} {f : α → StepOutcome} (hf : ∀ x, Makes n k (f x)) :
    Makes n k (Machine.onWritten v f) := by
  rcases onWritten_cases v f with ⟨x, _, e⟩ | ⟨_, e⟩ <;> rw [e]
  · exact hf x
  · rintro t ⟨⟩

theorem Makes.onMinHash {m : SlotNo} {f : MinHash → StepOutcome} (hf : ∀ x, Makes n k (f x)) :
    Makes n k (Machine.onMinHash m s f) := by
  rcases onMinHash_cases m s f with ⟨x, _, e⟩ | ⟨_, e⟩ <;> rw [e]
  · exact hf x
  · exact .of_code (.inl nofun)

theorem Makes.write {x : Slot} (hs : s'.slots = s.slots.set n.val x) : Makes n (slotInfo x).2 (finish s') := by
  rintro t ⟨⟩ -
  rcases readSlot_of_set hs with e | e
  · exact .inr (by rw [kindAt, show readSlot n (complete .ok s') = x from e])
  · exact .inl e

end

/-- A creating command that completes OK leaves a sketch of its kind in the slot it names. -/
theorem exec_makes {i : Instr} {n : SlotNo} {s : State} (hi : createdSlot i = some n) (hp : s.pending ≠ none) :
    Makes n (kindMade i) (exec i s) := by
  cases i with
  | mhNew sa =>
    cases hi
    refine .require nofun (.require nofun ?_)
    split
    · exact .of_code (s' := s) (.inr hp)
    · exact .write (s := s) (s' := writeSlot n _ s) (x := .minhash _) rfl
  | mhDes sa =>
    cases hi
    refine .require nofun (.require nofun (.onWritten fun k => .require nofun (.require nofun (.require nofun
      (.onWritten fun _ => .onWritten fun _ => ?_)))))
    split
    · exact .of_code (s' := s) (.inr hp)
    · exact .write (s := s) (s' := setResult _ _ (writeSlot n _ s)) (x := .minhash _) rfl
  | obExport sa sb =>
    cases hi
    exact .onMinHash fun m => .write (s := s) (s' := writeSlot n _ s) (x := .onebit _) rfl
  | hllNew sa p =>
    cases hi
    exact .require nofun (.require nofun (.write (s := s) (s' := writeSlot n _ s) (x := .hll _) rfl))
  | hllDes sa =>
    cases hi
    exact .require nofun (.require nofun (.onWritten fun p => .require nofun (.require nofun (.require nofun
      (.onWritten fun _ => .write (s := s) (s' := setResult _ _ (writeSlot n _ s)) (x := .hll _) rfl)))))
  | hmhNew sa p =>
    cases hi
    exact .require nofun (.require nofun (.write (s := s) (s' := writeSlot n _ s) (x := .hmh _) rfl))
  | _ => cases hi

/-- A host read keeps slots and blob. -/
theorem hostRead_keeps {s t : State} {off : BitVec 20} {w : Width} (h : hostRead off w s = .next t) :
    t.slots = s.slots ∧ t.blob = s.blob := by
  unfold hostRead at h
  split at h
  · split at h
    · cases h
    · rename_i v s' e
      obtain rfl : record (.read off w) (.data v) s' = t := by injection h
      unfold busRead at e
      split at e
      · obtain rfl : (readRegister off.toNat s).2 = s' := by injection e with e; rw [e]
        unfold readRegister
        split <;> first | exact ⟨rfl, rfl⟩ | (unfold openRead; split <;> exact ⟨rfl, rfl⟩)
      · unfold readBlob at e
        split at e
        · cases e
        · cases e
          split <;> exact ⟨rfl, rfl⟩
  · cases h
    exact ⟨rfl, rfl⟩

/-- A write to a register keeps slots and blob. -/
theorem writeRegister_keeps (off : Nat) (v : Word) (s : State) :
    (writeRegister off v s).slots = s.slots ∧ (writeRegister off v s).blob = s.blob := by
  unfold writeRegister
  split <;> exact ⟨rfl, rfl⟩

/-- A write through the blob window stores bytes below the limit only. -/
theorem writeBlob_read {a n x : Nat} {v : Word} {s : State} (h : Memory.read (writeBlob a n v s).blob x ≠ none) :
    Memory.read s.blob x ≠ none ∨ (a ≤ x ∧ x < a + n ∧ x < s.params.blobBytes) := by
  replace h : Memory.read (Memory.writeList s.blob a ((leBytes n v.toNat).take (s.params.blobBytes - a))) x ≠ none := h
  rw [Memory.read_writeList] at h
  simp only [List.length_take, leBytes_length] at h
  split at h
  · right; omega
  · exact .inl h

/-- A write through the blob window keeps the slots. -/
theorem writeBlob_slots (a n : Nat) (v : Word) (s : State) : (writeBlob a n v s).slots = s.slots := rfl

/-- What an accepted write stores: nothing, or bytes of the blob window below the limit. -/
theorem busWrite_writes (off : BitVec 20) (w : Width) (v : Word) (s : State) :
    (busWrite off w v s).slots = s.slots ∧ ∀ x, Memory.read (busWrite off w v s).blob x ≠ none →
      Memory.read s.blob x ≠ none ∨ (s.status.busy = false ∧ blobBase ≤ off.toNat ∧
        (off.toNat - blobBase ≤ x ∧ x < off.toNat - blobBase + w.bytes ∧ x < s.params.blobBytes)) := by
  unfold busWrite
  split
  · exact ⟨rfl, fun _ h => .inl h⟩
  · rename_i hb
    split
    · obtain ⟨h1, h2⟩ := writeRegister_keeps off.toNat v s
      exact ⟨h1, fun a h => .inl (h2 ▸ h)⟩
    · rename_i ho
      exact ⟨writeBlob_slots _ _ v s,
        fun x h => (writeBlob_read h).imp_right fun h => ⟨Bool.not_eq_true _ ▸ hb, Nat.not_lt.1 ho, h⟩⟩

/-- A host write keeps the slots and writes the bytes `bytesHostWrites` lists. -/
theorem hostWrite_writes {s t : State} {off : BitVec 20} {w : Width} {v : Word} {rest : List HostOp}
    (h : hostWrite off w v s = .next t) :
    t.slots = s.slots ∧ ∀ a, Memory.read t.blob a ≠ none →
      Memory.read s.blob a ≠ none ∨ a ∈ bytesHostWrites (setProg (.access (.write off w v) :: rest) s) := by
  obtain ⟨h1, h2⟩ := busWrite_writes off w v s
  unfold hostWrite at h
  split at h
  · rename_i hl
    obtain rfl : record (.write off w v) .done (busWrite off w v s) = t := by injection h
    simp only [record_slots, record_blob]
    refine ⟨h1, fun a h => (h2 a h).imp_right fun ⟨hb, ho, hlo, hhi, hlim⟩ => ?_⟩
    simp [bytesHostWrites, setProg, hl, hb, ho, hlo, hhi, hlim]
  · cases h
    exact ⟨rfl, fun _ h => .inl h⟩

/-- What one step can do to slots and blob: a host's turn, or an engine's turn that runs no command, keeps the slots
and writes the bytes `bytesHostWrites` lists; any other step is a command. -/
theorem step_writes {s t : State} (h : step s = .next t) :
    (nextCommand s = none ∧ t.slots = s.slots ∧ ∀ a, Memory.read t.blob a ≠ none →
      Memory.read s.blob a ≠ none ∨ (nextAgent s = .host ∧ a ∈ bytesHostWrites s)) ∨
    (∃ i, nextAgent s = .engine ∧ nextCommand s = some i ∧ s.pending ≠ none ∧ exec i (popTurn s) = .next t) := by
  unfold step at h
  split at h <;> rename_i hn
  · unfold engineTurn at h
    split at h
    · rename_i hp
      have hp : s.pending = none := hp
      cases h
      exact .inl ⟨by simp [nextCommand, hn, hp], rfl, fun _ h => .inl h⟩
    · rename_i w hp
      have hp : s.pending = some w := hp
      cases hd : decode s.params.nslot w with
      | error e =>
        rw [runCommand_illegal (s := popTurn s) hd] at h
        cases h
        exact .inl ⟨by simp [nextCommand, hn, hp, hd, Except.toOption], rfl, fun _ h => .inl h⟩
      | ok i =>
        rw [runCommand_ok (s := popTurn s) hd] at h
        exact .inr ⟨i, hn, by simp [nextCommand, hn, hp, hd, Except.toOption], by simp [hp], h⟩
  · have keep (h : t.slots = s.slots ∧ t.blob = s.blob) : t.slots = s.slots ∧ ∀ a, Memory.read t.blob a ≠ none →
        Memory.read s.blob a ≠ none ∨ (nextAgent s = .host ∧ a ∈ bytesHostWrites s) :=
      ⟨h.1, fun a ha => .inl (h.2 ▸ ha)⟩
    refine .inl ⟨by simp [nextCommand, hn], ?_⟩
    unfold hostTurn at h
    split at h
    · cases h
      exact keep ⟨rfl, rfl⟩
    · obtain ⟨h1, h2⟩ := hostRead_keeps h
      exact keep ⟨h1, h2⟩
    · rename_i off w d rest hp
      have hp : s.host.prog = .access (.write off w d) :: rest := hp
      obtain ⟨h1, h2⟩ := hostWrite_writes (rest := rest) h
      refine ⟨h1, fun a ha => (h2 a ha).imp_right fun h => ⟨hn, ?_⟩⟩
      simp only [bytesHostWrites, hp] at h ⊢
      exact h
    · split at h <;> obtain ⟨h1, h2⟩ := hostRead_keeps h <;> exact keep ⟨h1, h2⟩

/-- A property of provenance and state that every step keeps holds all along a run. -/
theorem traceFrom_keeps {own : Instr → Bool} {P : Provenance → State → Prop}
    (hP : ∀ {v s t}, P v s → step s = .next t → P (v.advance own s t) t) {n : Nat} {s t : State} {v u : Provenance}
    (hv : P v s) (h : traceFrom own n s v = some (t, u)) : P u t := by
  induction n generalizing s v with
  | zero => cases h; exact hv
  | succ n ih =>
    simp only [traceFrom] at h
    split at h
    · rename_i s' e
      exact ih (hP hv e) h
    · cases h
    · cases h

/-- The slot a completed creating command names is the claim's exactly if the claim lists the command; every other
slot stays what it was. -/
theorem Provenance.mem_claim {v : Provenance} {own : Instr → Bool} {i : Instr} {n : SlotNo} :
    n ∈ v.claim own i ↔ if createdSlot i = some n then own i = true else n ∈ v.created := by
  unfold Provenance.claim
  cases createdSlot i with
  | none => simp
  | some m =>
    by_cases hn : n = m
    · subst hn
      cases own i <;> simp
    · have hm : m ≠ n := Ne.symm hn
      cases own i <;> simp [hn, hm]

/-! ### A listed command made what its slot holds -/

/-- Each slot the note lists holds a sketch of the kind that a listed command of that slot makes, or nothing. -/
def Provenance.made (listed : List Instr) (v : Provenance) (s : State) : Prop :=
  ∀ n ∈ v.created, ∃ i ∈ listed, createdSlot i = some n ∧ (readSlot n s = .empty ∨ kindAt n s = kindMade i)

theorem Provenance.advance_made {listed : List Instr} {v : Provenance} {s t : State} (hv : v.made listed s)
    (h : step s = .next t) : (v.advance (fun i => decide (i ∈ listed)) s t).made listed t := by
  have keep {n : SlotNo} (hn : n ∈ v.created) (hs : readSlot n t ≠ .empty → kindAt n t = kindAt n s) :
      ∃ i ∈ listed, createdSlot i = some n ∧ (readSlot n t = .empty ∨ kindAt n t = kindMade i) := by
    obtain ⟨i, hi, hc, hk⟩ := hv n hn
    refine ⟨i, hi, hc, or_iff_not_imp_left.2 fun he => (hs he).trans (hk.resolve_left fun h0 => he ?_)⟩
    rwa [← kindAt_eq_zero, hs he, kindAt_eq_zero]
  unfold Provenance.advance
  rcases step_writes h with ⟨hn, hs, -⟩ | ⟨i, ha, hn, hp, he⟩
  · have hk : v.made listed t := fun n hn => keep hn fun _ => kindAt_congr hs n
    split
    · exact hk
    · simpa only [hn] using hk
  · obtain ⟨h1, -⟩ := exec_takesFrom i (popTurn s) t he
    have other {n : SlotNo} (hne : createdSlot i ≠ some n ∨ ¬ t.completedOk) (he : readSlot n t ≠ .empty) :
        kindAt n t = kindAt n s :=
      (h1 n he).resolve_right fun h => hne.elim (· h.1) (· h.2)
    simp only [ha, hn]
    split
    · rename_i hok
      intro n hn
      rw [Provenance.mem_claim] at hn
      split at hn
      · rename_i hc
        exact ⟨i, of_decide_eq_true hn, hc, exec_makes (s := popTurn s) hc hp t he hok⟩
      · rename_i hc
        exact keep hn (other (.inl hc))
    · rename_i hok
      exact fun n hn => keep hn (other (.inr hok))

/-! ### Launching from reset -/

/-- All of a state's sketches and written bytes are accounted for. -/
def Provenance.accounts (v : Provenance) (s : State) : Prop :=
  (∀ n, readSlot n s ≠ .empty → n ∈ v.created) ∧ (∀ a, Memory.read s.blob a ≠ none → a ∈ v.written)

/-- Every step keeps the account, where the claim lists every command. -/
theorem Provenance.advance_accounts {v : Provenance} {s t : State} (hv : v.accounts s) (h : step s = .next t) :
    (v.advance (fun _ => true) s t).accounts t := by
  unfold Provenance.advance
  rcases step_writes h with ⟨hn, hs, hb⟩ | ⟨i, ha, hn, -, he⟩
  · have hc (n : SlotNo) (hn : readSlot n t ≠ .empty) : n ∈ v.created := hv.1 n (by rwa [← readSlot_congr hs])
    split
    · exact ⟨hc, fun a ha => List.mem_append.2 ((hb a ha).elim (.inr ∘ hv.2 a) (.inl ∘ And.right))⟩
    · rename_i ha
      simp only [hn]
      exact ⟨hc, fun a h => (hb a h).elim (hv.2 a) fun h => absurd (ha ▸ h.1) nofun⟩
  · obtain ⟨h1, h2⟩ := exec_takesFrom i (popTurn s) t he
    have held {n : SlotNo} (he : readSlot n t ≠ .empty) (hk : kindAt n t = kindAt n (popTurn s)) : n ∈ v.created :=
      hv.1 n fun h0 => he (kindAt_eq_zero.1 (hk.trans (kindAt_eq_zero.2 h0)))
    simp only [ha, hn]
    split
    · refine ⟨fun n hn => ?_, fun a ha => List.mem_append.2 ((h2 a ha).elim (.inr ∘ hv.2 a) (.inl ∘ And.left))⟩
      rw [Provenance.mem_claim]
      split
      · rfl
      · rename_i hc
        exact held hn ((h1 n hn).resolve_right fun h => hc h.1)
    · rename_i hok
      exact ⟨fun n hn => (h1 n hn).elim (held hn) fun h => absurd h.2 hok,
        fun a ha => (h2 a ha).elim (hv.2 a) fun h => absurd h.2 hok⟩

/-- A claim launches from an idle state each sketch of which a listed command created and no blob byte of which is
written, whatever it reads and whatever its program is. -/
theorem launch_of_created {s : State} {c : ClaimTerms} {created : List SlotNo} (hi : s.cleanIdle = true)
    (hc : s.createdBefore c.listed created) (hs : ∀ n, readSlot n s ≠ .empty → n ∈ created) (hb : s.blob = []) :
    s.launch c where
  idle := hi
  sourced := by
    refine ⟨created, hc, fun n _ => Classical.or_iff_not_imp_left.2 (hs n), fun n t v h => ?_⟩
    have hv : v.accounts t := traceFrom_keeps (P := Provenance.accounts) Provenance.advance_accounts
      ⟨hs, fun a ha => absurd (by rw [hb]; rfl) ha⟩ h
    have own (n : SlotNo) : v.owns n t := Classical.or_iff_not_imp_left.2 (hv.1 n)
    exact ⟨⟨fun n _ => own n, fun a _ => Classical.or_iff_not_imp_left.2 (hv.2 a)⟩, fun _ n _ => own n⟩

/-- "The state right after reset satisfies CleanIdle" (R317): for every host program, every schedule and whatever the
claim lists and reads. -/
theorem reset_launch (p : Params) (host : HostSide) (c : ClaimTerms) :
    ({ State.resetWith p with host := host } : State).launch c := by
  refine launch_of_created (created := []) rfl ⟨_, 0, _, ⟨[], []⟩, rfl, rfl, rfl⟩ (fun n hn => absurd ?_ hn) rfl
  show (List.replicate p.nslot Slot.empty).getD n.val .empty = .empty
  rw [List.getD_eq_getElem?_getD, List.getElem?_replicate]
  split <;> rfl

/-- A sketch the claim speaks of at its launch was made by a command it lists: one that names this slot and makes
sketches of this kind (R317). -/
theorem State.launch.made_by_listed {s : State} {c : ClaimTerms} (h : s.launch c) {n : SlotNo} (hn : n ∈ c.atLaunch)
    (he : readSlot n s ≠ .empty) : ∃ i ∈ c.listed, createdSlot i = some n ∧ kindAt n s = kindMade i := by
  obtain ⟨created, ⟨r, m, t, v, htrace, rfl, hs⟩, hl, -⟩ := h.sourced
  have hmade : v.made c.listed t :=
    traceFrom_keeps (P := Provenance.made c.listed) Provenance.advance_made (by simp [Provenance.made]) htrace
  obtain ⟨i, hi, hc, hk⟩ := hmade n ((hl n hn).resolve_left he)
  have e : readSlot n s = readSlot n t := by rw [← hs]; rfl
  refine ⟨i, hi, hc, ?_⟩
  rw [kindAt, e]
  exact hk.resolve_left (e ▸ he)

end Sys2Proof.Machine
end

