-- ==== Sys2Proof/Laws/PerInstr.lean ====
section
/-! SUPPORT. Statements made one instruction at a time. The family Fields: an instruction's word is assembled
from a row of the opcode map and from fields of the right width, the unused ones zero, and the row makes the
instruction from them (30_encoding.md R91, R92, R95). -/

namespace Sys2Proof.Laws.Fields

/-- The word of `i` is that of a row of the opcode map with legal field values that the row turns back into `i`. -/
def Statement (i : Instr) : Prop :=
  ∃ (op : Nat) (sa sb : SlotNo) (imm : BitVec 16) (row : OpRow),
    encode i = assemble op sa.val sb.val imm.toNat ∧ op < 64 ∧ opRow op = some row ∧ row.make sa sb imm = i ∧
    (row.form.usesA = false → sa = 0) ∧ (row.form.usesB = false → sb = 0) ∧
    (row.form = .z ∨ row.form = .a ∨ row.form = .ab → imm = 0)

theorem nop : Statement .nop :=
  ⟨0x00, 0, 0, 0, _, rfl, by decide, rfl, rfl, by simp [Form.usesA], by simp [Form.usesB], by simp⟩

theorem clrstat : Statement .clrstat :=
  ⟨0x01, 0, 0, 0, _, rfl, by decide, rfl, rfl, by simp [Form.usesA], by simp [Form.usesB], by simp⟩

theorem free (sa : SlotNo) : Statement (.free sa) :=
  ⟨0x02, sa, 0, 0, _, rfl, by decide, rfl, rfl, by simp [Form.usesA], by simp [Form.usesB], by simp⟩

theorem info (sa : SlotNo) : Statement (.info sa) :=
  ⟨0x03, sa, 0, 0, _, rfl, by decide, rfl, rfl, by simp [Form.usesA], by simp [Form.usesB], by simp⟩

theorem lzc32 : Statement .lzc32 :=
  ⟨0x04, 0, 0, 0, _, rfl, by decide, rfl, rfl, by simp [Form.usesA], by simp [Form.usesB], by simp⟩

/-- A range's two bytes make IMM16, and IMM16 gives the two bytes back (R93). -/
theorem imm_of_range (hi lo : BitVec 8) :
    (hi ++ lo : BitVec 16).toNat = hi.toNat * 2 ^ 8 + lo.toNat ∧
    immHi (hi ++ lo) = hi ∧ immLo (hi ++ lo) = lo := by
  have h1 := hi.isLt
  have h2 := lo.isLt
  have h : (hi ++ lo : BitVec 16).toNat = hi.toNat * 2 ^ 8 + lo.toNat := by
    rw [BitVec.toNat_append, Nat.shiftLeft_eq, Nat.mul_comm, ← Nat.two_pow_add_eq_or_of_lt h2]
  refine ⟨h, ?_, ?_⟩ <;> apply BitVec.eq_of_toNat_eq <;> simp only [immHi, immLo, BitVec.toNat_ofNat, h] <;> omega

theorem extract (hi lo : BitVec 8) : Statement (.extract hi lo) := by
  obtain ⟨h, hhi, hlo⟩ := imm_of_range hi lo
  refine ⟨0x05, 0, 0, hi ++ lo, _, ?_, by decide, rfl, ?_, by simp, by simp, by simp⟩
  · simp only [encode, h]; rfl
  · simp only [hhi, hlo]

theorem popcnt32 : Statement .popcnt32 :=
  ⟨0x06, 0, 0, 0, _, rfl, by decide, rfl, rfl, by simp [Form.usesA], by simp [Form.usesB], by simp⟩

theorem mhPerm (sa : SlotNo) : Statement (.mhPerm sa) :=
  ⟨0x08, sa, 0, 0, _, rfl, by decide, rfl, rfl, by simp [Form.usesA], by simp [Form.usesB], by simp⟩

theorem mhRdperm (sa : SlotNo) : Statement (.mhRdperm sa) :=
  ⟨0x09, sa, 0, 0, _, rfl, by decide, rfl, rfl, by simp [Form.usesA], by simp [Form.usesB], by simp⟩

theorem mhNew (sa : SlotNo) : Statement (.mhNew sa) :=
  ⟨0x10, sa, 0, 0, _, rfl, by decide, rfl, rfl, by simp [Form.usesA], by simp [Form.usesB], by simp⟩

theorem mhDigest (sa : SlotNo) : Statement (.mhDigest sa) :=
  ⟨0x11, sa, 0, 0, _, rfl, by decide, rfl, rfl, by simp [Form.usesA], by simp [Form.usesB], by simp⟩

theorem mhClear (sa : SlotNo) : Statement (.mhClear sa) :=
  ⟨0x12, sa, 0, 0, _, rfl, by decide, rfl, rfl, by simp [Form.usesA], by simp [Form.usesB], by simp⟩

theorem mhMerge (sa sb : SlotNo) : Statement (.mhMerge sa sb) :=
  ⟨0x13, sa, sb, 0, _, rfl, by decide, rfl, rfl, by simp [Form.usesA], by simp [Form.usesB], by simp⟩

theorem mhAgree (mask : BitVec 16) : Statement (.mhAgree mask) :=
  ⟨0x14, 0, 0, mask, _, rfl, by decide, rfl, rfl, by simp [Form.usesA], by simp [Form.usesB], by simp⟩

theorem mhRdval (sa : SlotNo) : Statement (.mhRdval sa) :=
  ⟨0x15, sa, 0, 0, _, rfl, by decide, rfl, rfl, by simp [Form.usesA], by simp [Form.usesB], by simp⟩

theorem mhSeed (sa : SlotNo) : Statement (.mhSeed sa) :=
  ⟨0x16, sa, 0, 0, _, rfl, by decide, rfl, rfl, by simp [Form.usesA], by simp [Form.usesB], by simp⟩

theorem obExport (sa sb : SlotNo) : Statement (.obExport sa sb) :=
  ⟨0x18, sa, sb, 0, _, rfl, by decide, rfl, rfl, by simp [Form.usesA], by simp [Form.usesB], by simp⟩

theorem obXorpop (mask : BitVec 16) : Statement (.obXorpop mask) :=
  ⟨0x19, 0, 0, mask, _, rfl, by decide, rfl, rfl, by simp [Form.usesA], by simp [Form.usesB], by simp⟩

theorem obRdword (sa : SlotNo) : Statement (.obRdword sa) :=
  ⟨0x1A, sa, 0, 0, _, rfl, by decide, rfl, rfl, by simp [Form.usesA], by simp [Form.usesB], by simp⟩

theorem hllNew (sa : SlotNo) (p : BitVec 16) : Statement (.hllNew sa p) :=
  ⟨0x20, sa, 0, p, _, rfl, by decide, rfl, rfl, by simp [Form.usesA], by simp [Form.usesB], by simp⟩

theorem hllDigest (sa : SlotNo) : Statement (.hllDigest sa) :=
  ⟨0x21, sa, 0, 0, _, rfl, by decide, rfl, rfl, by simp [Form.usesA], by simp [Form.usesB], by simp⟩

theorem hllClear (sa : SlotNo) : Statement (.hllClear sa) :=
  ⟨0x22, sa, 0, 0, _, rfl, by decide, rfl, rfl, by simp [Form.usesA], by simp [Form.usesB], by simp⟩

theorem hllMerge (sa sb : SlotNo) : Statement (.hllMerge sa sb) :=
  ⟨0x23, sa, sb, 0, _, rfl, by decide, rfl, rfl, by simp [Form.usesA], by simp [Form.usesB], by simp⟩

theorem hllRdreg (sa : SlotNo) : Statement (.hllRdreg sa) :=
  ⟨0x24, sa, 0, 0, _, rfl, by decide, rfl, rfl, by simp [Form.usesA], by simp [Form.usesB], by simp⟩

theorem hmhNew (sa : SlotNo) (p : BitVec 16) : Statement (.hmhNew sa p) :=
  ⟨0x28, sa, 0, p, _, rfl, by decide, rfl, rfl, by simp [Form.usesA], by simp [Form.usesB], by simp⟩

theorem hmhAdd (sa : SlotNo) : Statement (.hmhAdd sa) :=
  ⟨0x29, sa, 0, 0, _, rfl, by decide, rfl, rfl, by simp [Form.usesA], by simp [Form.usesB], by simp⟩

theorem hmhMerge (sa sb : SlotNo) : Statement (.hmhMerge sa sb) :=
  ⟨0x2A, sa, sb, 0, _, rfl, by decide, rfl, rfl, by simp [Form.usesA], by simp [Form.usesB], by simp⟩

theorem hmhAgree (sa sb : SlotNo) : Statement (.hmhAgree sa sb) :=
  ⟨0x2B, sa, sb, 0, _, rfl, by decide, rfl, rfl, by simp [Form.usesA], by simp [Form.usesB], by simp⟩

theorem hmhRdreg (sa : SlotNo) : Statement (.hmhRdreg sa) :=
  ⟨0x2C, sa, 0, 0, _, rfl, by decide, rfl, rfl, by simp [Form.usesA], by simp [Form.usesB], by simp⟩

theorem hmhRdmin (sa : SlotNo) : Statement (.hmhRdmin sa) :=
  ⟨0x2D, sa, 0, 0, _, rfl, by decide, rfl, rfl, by simp [Form.usesA], by simp [Form.usesB], by simp⟩

theorem mhSer (sa : SlotNo) : Statement (.mhSer sa) :=
  ⟨0x30, sa, 0, 0, _, rfl, by decide, rfl, rfl, by simp [Form.usesA], by simp [Form.usesB], by simp⟩

theorem mhDes (sa : SlotNo) : Statement (.mhDes sa) :=
  ⟨0x31, sa, 0, 0, _, rfl, by decide, rfl, rfl, by simp [Form.usesA], by simp [Form.usesB], by simp⟩

theorem hllSer (sa : SlotNo) : Statement (.hllSer sa) :=
  ⟨0x32, sa, 0, 0, _, rfl, by decide, rfl, rfl, by simp [Form.usesA], by simp [Form.usesB], by simp⟩

theorem hllDes (sa : SlotNo) : Statement (.hllDes sa) :=
  ⟨0x33, sa, 0, 0, _, rfl, by decide, rfl, rfl, by simp [Form.usesA], by simp [Form.usesB], by simp⟩

end Sys2Proof.Laws.Fields
end

