-- ==== Sys2Proof/Tests/Slice0.lean ====
section
/-! SUPPORT. The model's own tests. Expected values are the worked vectors of spec/95_test_vectors.md (named V-… beside
each test) or hand calculation from the rule named. The last part shows, for each statement with hypotheses, concrete
data that meets them, each clause at a boundary. -/

namespace Sys2Proof.Tests

open Sys2Proof Sys2Proof.Machine Sys2Proof.Claim

/-! ### Fixtures -/

/-- `TestPrng` (95_test_vectors.md section 0.2). -/
def testPrng : Prng :=
  { stateBits := 32, init := fun seed => seed.setWidth 32, next := fun s => (s, s + 1) }

/-- A generator that gives only zeros (41_permutation.md R131: it hangs). -/
def zeroPrng : Prng := { stateBits := 1, init := fun _ => 0, next := fun s => (0, s) }

/-- Instance A after reset with these slots and operand registers. -/
def setup (slots : List Slot) (arg hash blobLen : Word) : State :=
  { State.reset with
    slots := slots
    regs := { State.reset.regs with arg := arg, hash := hash, blobLen := blobLen } }

/-- A state with a command pending. -/
def busyWith (w : Word) (s : State) : State := acceptCommand w s

/-- A state about to run a host program under a schedule. -/
def running (prog : List HostOp) (sched : List Agent) (s : State) : State :=
  { s with host := { s.host with prog := prog, sched := sched } }

/-- The signature of seed 1 and `k = 2` under TestPrng (V-G1). -/
def sig (hv : List Word) : MinHash := { seed := 1, k := 2, perm := [(1, 2), (3, 4)], hv := hv }

/-- A sketch of precision 4 whose first registers are these. -/
def hll4 (reg : List Byte) : Hll := { p := 4, reg := reg ++ List.replicate (16 - reg.length) 0 }

/-- An HllMinHash sketch of precision 4 whose first buckets are these. -/
def hmh4 (reg : List Byte) (minv : List Word) : Hmh :=
  { p := 4
    reg := reg ++ List.replicate (16 - reg.length) 0
    minv := minv ++ List.replicate (16 - minv.length) maxU32 }

/-- A one-bit signature of seed 1. -/
def bits1 (bs : List Bool) : OneBit := { seed := 1, size := bs.length, bits := bs }

/-- The next state of an outcome. -/
def after : StepOutcome → Option State
  | .next s => some s
  | .fault _ => none
  | .refused _ => none

/-- RESULT, RESULT_HI and STATUS after an outcome. -/
def shows (o : StepOutcome) : Option (Word × Word × Word) :=
  (after o).map fun t => (t.regs.result, t.regs.resultHi, statusWord t.status)

/-- A slot after an outcome. -/
def slotAfter (n : SlotNo) (o : StepOutcome) : Option Slot := (after o).map (readSlot n)

/-- The last answer the host got. -/
def lastReply (o : StepOutcome) : Option (Option Reply) :=
  (after o).map fun t => t.host.log.head?.map Exchange.reply

/-- The outcome is the model fault. -/
def faults : StepOutcome → Bool
  | .fault _ => true
  | .next _ => false
  | .refused _ => false

/-! ### Well-formedness: one ill-formed term for each check -/

theorem test_wellFormed_refuses_slot_a : ([.free 4, .info 4, .mhPerm 4, .mhRdperm 5, .mhNew 6, .mhDigest 7, .mhClear 8,
    .mhRdval 9, .mhSeed 10, .obRdword 11, .hllNew 12 4, .hllDigest 13, .hllClear 14, .hllRdreg 15] : List Instr).all
      (fun i => !i.wellFormed 4) = true := by decide

theorem test_wellFormed_refuses_slot_a_or_b : ([.mhMerge 4 0, .mhMerge 0 4, .obExport 4 0, .obExport 0 4, .hllMerge 4 0,
    .hllMerge 0 4, .hmhMerge 4 0, .hmhMerge 0 4, .hmhAgree 4 0, .hmhAgree 0 4, .hmhNew 4 4, .hmhAdd 4, .hmhRdreg 4,
    .hmhRdmin 4, .mhSer 4, .mhDes 4, .hllSer 4, .hllDes 4] : List Instr).all
      (fun i => !i.wellFormed 4) = true := by decide

theorem test_wellFormed_refuses_mask : ([.mhAgree 0x10, .obXorpop 0x10, .mhAgree 0x8003] : List Instr).all
      (fun i => !i.wellFormed 4) = true := by decide

theorem test_wellFormed_accepts : ([.mhMerge 3 3, .mhAgree 0xF, .obXorpop 0, .hllNew 3 0xFFFF, .extract 255 255,
    .nop, .clrstat, .lzc32, .popcnt32] : List Instr).all (fun i => i.wellFormed 4) = true := by decide

/-! ### Decoding, by words written out in the spec -/

/-- Each word decodes to its command, and the encoder gives the word back. -/
def decodesTo (rows : List (Word × Instr)) : Bool :=
  rows.all fun r => (decode 4 r.1).toOption == some r.2 && encode r.2 == r.1

theorem test_decode_control : decodesTo [(0x00000000, .nop), (0x04000000, .clrstat), (0x08C00000, .free 3),
    (0x0C400000, .info 1)] = true := by decide

theorem test_decode_bitops : decodesTo [(0x10000000, .lzc32), (0x14002010, .extract 32 16), (0x14000809, .extract 8 9),
    (0x18000000, .popcnt32)] = true := by decide

theorem test_decode_permutation : decodesTo [(0x20400000, .mhPerm 1), (0x24000000, .mhRdperm 0)] = true := by decide

theorem test_decode_minhash : decodesTo [(0x40400000, .mhNew 1), (0x44400000, .mhDigest 1), (0x48400000, .mhClear 1),
    (0x4C040000, .mhMerge 0 1), (0x4C400000, .mhMerge 1 0), (0x50000003, .mhAgree 3), (0x54000000, .mhRdval 0),
    (0x58800000, .mhSeed 2)] = true := by decide

theorem test_decode_onebit : decodesTo [(0x60C40000, .obExport 3 1), (0x600C0000, .obExport 0 3),
    (0x6400000C, .obXorpop 0xC), (0x68800000, .obRdword 2)] = true := by decide

theorem test_decode_hyperloglog : decodesTo [(0x80400010, .hllNew 1 16), (0x8000FFFF, .hllNew 0 0xFFFF),
    (0x84000000, .hllDigest 0), (0x88000000, .hllClear 0), (0x8C8C0000, .hllMerge 2 3), (0x90400000, .hllRdreg 1)]
      = true := by decide

theorem test_decode_hllminhash : decodesTo [(0xA0C00004, .hmhNew 3 4), (0xA4800000, .hmhAdd 2),
    (0xA88C0000, .hmhMerge 2 3), (0xAC8C0000, .hmhAgree 2 3), (0xB0800000, .hmhRdreg 2), (0xB4800000, .hmhRdmin 2)]
      = true := by decide

theorem test_decode_serdes : decodesTo [(0xC0000000, .mhSer 0), (0xC4400000, .mhDes 1), (0xC8000000, .hllSer 0),
    (0xCC400000, .hllDes 1)] = true := by decide

/-- V-D1. -/
theorem test_decode_rejects : (decode 4 0x00000001, decode 4 0x1C000000, decode 4 0xFC000000, decode 4 0x10000001,
      decode 4 0x84010000) = (.error .nonzeroField, .error .reservedOpcode, .error .reservedOpcode,
      .error .nonzeroField, .error .nonzeroField) ∧
    (decode 4 0x84040000, decode 4 0x85000000, decode 4 0x4C100000, decode 4 0x50000010) =
      (.error .nonzeroField, .error .slotOutOfRange, .error .slotOutOfRange, .error .maskOutOfRange) := ⟨rfl, rfl⟩

/-- The examples of 30_encoding.md R98. -/
theorem test_assembler : assembler .lzc32 = "LZC32" ∧ assembler (.extract 32 16) = "EXTRACT #32, #16" ∧
    assembler (.mhAgree 3) = "MH_AGREE " ++ asmMask 3 ∧
    asmMask 3 = String.singleton (Char.ofNat 123) ++ "s0, s1" ++ String.singleton (Char.ofNat 125) ∧
    assembler (.hllNew 1 16) = "HLL_NEW s1, #16" ∧ assembler (.mhMerge 1 0) = "MH_MERGE s1, s0" := by decide

/-! ### The host's interface: a table word, and the next step that runs it -/

theorem test_decodeTableWord : decodeTableWord 32 0x14002010 = some (.extract 32 16) ∧
    decodeTableWord 32 0x1C000000 = none := by decide

theorem test_withFetchWord : shows (step (State.reset.withFetchWord 32 0x10000000)) = some (32, 0, 0) ∧
    shows (step (State.reset.withFetchWord 32 0x40000000)) = some (0, 0, 0x0106) ∧
    shows (step (State.reset.withFetchWord 32 0xC4000000)) = some (0, 0, 0x0406) ∧
    shows (step (State.reset.withFetchWord 32 0x1C000000)) = some (0, 0, 0x0806) := by decide

/-! ### Control (V-C1, V-C2, V-C3) -/

/-- The STATUS of an earlier error: CODE 1, ERR, STICKY. -/
def afterError (s : State) : State :=
  { s with status := { busy := false, err := true, sticky := true, ovr := false, code := .invalidArgument } }

theorem test_nop : shows (exec .nop (afterError State.reset)) = some (0, 0, 0x0004) := by decide

theorem test_clrstat : shows (exec .clrstat (afterError State.reset)) = some (0, 0, 0) := by decide

theorem test_free : slotAfter 1 (exec (.free 1) (setup [.empty, .hll (hll4 [1])] 0 0 0)) = some .empty := by decide

theorem test_info : shows (exec (.info 1) (setup [.empty, .hmh (hmh4 [] [])] 0 0 0)) = some (4, 3, 0) ∧
    shows (exec (.info 0) (setup [.onebit (bits1 [true, true])] 0 0 0)) = some (2, 4, 0) := by decide

/-! ### Bit operations (V-B4 to V-B29) -/

theorem test_lzc32 : lzc32 0 = 32 ∧ lzc32 1 = 31 ∧ lzc32 0x80000000 = 0 ∧ lzc32 0x00008000 = 16 ∧
    shows (exec .lzc32 (setup [] 0x00010000 0 0)) = some (15, 0, 0) := by decide

theorem test_extract : shows (exec (.extract 32 16) (setup [] 0xDEADBEEF 0 0)) = some (0xDEAD, 0, 0) ∧
    shows (exec (.extract 8 4) (setup [] 0xDEADBEEF 0 0)) = some (0xE, 0, 0) ∧
    shows (exec (.extract 32 0) (setup [] 0xDEADBEEF 0 0)) = some (0xDEADBEEF, 0, 0) := by decide

theorem test_extract_range : shows (exec (.extract 33 0) (setup [] 5 0 0)) = some (0, 0, 0x0106) ∧
    shows (exec (.extract 8 9) (setup [] 5 0 0)) = some (0, 0, 0x0106) := by decide

theorem test_popcnt32 : shows (exec .popcnt32 (setup [] 0xDEADBEEF 0 0)) = some (24, 0, 0) ∧
    shows (exec .popcnt32 (setup [] 0xFFFFFFFF 0 0)) = some (32, 0, 0) := by decide

/-! ### Permutations (V-G1 to V-P25) -/

theorem test_permGen : permGen testPrng 1 3 = some [(1, 2), (3, 4), (5, 6)] ∧
    permGen testPrng 0 2 = some [(1, 2), (3, 4)] ∧ permGen testPrng (-1) 2 = some [(0xFFFFFFFF, 0), (1, 2)] ∧
    permGen zeroPrng 1 1 = none := by decide

theorem test_perm : perm maxU32 maxU32 maxU32 = 7 ∧ perm maxU32 0 maxU32 = 8 ∧
    perm 0x9E3779B9 0x7F4A7C15 0x12345678 = 0x07C3B0CD ∧ perm 1 2 0xFFFFFFFE = 0 := by decide

theorem test_mhPerm : shows (exec (.mhPerm 0) (setup [.minhash (sig [0, 0])] 1 7 0)) = some (25, 0, 0) ∧
    shows (exec (.mhPerm 1) (setup [.minhash (sig [0, 0])] 0 7 0)) = some (0, 0, 0x0906) := by decide

theorem test_mhRdperm : shows (exec (.mhRdperm 0) (setup [.minhash (sig [0, 0])] 1 7 0)) = some (3, 4, 0) ∧
    shows (exec (.mhRdperm 0) (setup [.minhash (sig [0, 0])] 2 7 0)) = some (0, 0, 0x0106) := by decide

/-! ### MinHash (V-M1 to V-M9) -/

theorem test_mhNew : slotAfter 0 (mhNewWith testPrng 0
      { setup [.empty] 2 0 0 with regs := { State.reset.regs with arg := 2, seedLo := 1 } }) =
    some (.minhash (sig [maxU32, maxU32])) := by decide

theorem test_mhNew_checks : shows (exec (.mhNew 0) (setup [.empty] 0x80000000 0 0)) = some (0, 0, 0x0106) ∧
    shows (exec (.mhNew 0) (setup [.empty] 9 0 0)) = some (0, 0, 0x0A06) := by decide

theorem test_mhDigest : slotAfter 0 (exec (.mhDigest 0) (setup [.minhash (sig [9, 25])] 0 0 0)) =
      some (.minhash (sig [2, 4])) ∧
    slotAfter 0 (exec (.mhDigest 0) (setup [.minhash (sig [2, 4])] 0 0xFFFFFFFE 0)) =
      some (.minhash (sig [0, 4])) := by decide

theorem test_mhClear : slotAfter 0 (exec (.mhClear 0) (setup [.minhash (sig [2, 4])] 0 0 0)) =
    some (.minhash (sig [maxU32, maxU32])) := by decide

theorem test_mhMerge :
    slotAfter 0 (exec (.mhMerge 0 1) (setup [.minhash (sig [9, 4]), .minhash (sig [2, 25])] 0 0 0)) =
      some (.minhash (sig [2, 4])) ∧
    shows (exec (.mhMerge 0 1)
      (setup [.minhash (sig [9, 25]), .minhash { sig [2, 4] with seed := 0x100000001 }] 0 0 0)) =
      some (0, 0, 0x0206) := by decide

theorem test_mhAgree :
    shows (exec (.mhAgree 3) (setup [.minhash (sig [2, 4]), .minhash (sig [2, 25])] 0 0 0)) = some (1, 2, 0) ∧
    shows (exec (.mhAgree 5) (setup [.minhash (sig [2, 4]), .minhash (sig [2, 25])] 0 0 0)) =
      some (0, 0, 0x0906) := by decide

theorem test_mhRdval : shows (exec (.mhRdval 0) (setup [.minhash (sig [2, 4])] 1 0 0)) = some (4, 0, 0) := by decide

theorem test_mhSeed :
    shows (exec (.mhSeed 0) (setup [.minhash { sig [2, 4] with seed := 0x700000001 }] 0 0 0)) = some (1, 7, 0) ∧
    shows (exec (.mhSeed 0) (setup [.onebit (bits1 [true])] 0 0 0)) = some (1, 0, 0) := by decide

/-! ### One-bit MinHash (V-O1 to V-O8) -/

theorem test_obExport : slotAfter 1 (exec (.obExport 1 0) (setup [.minhash (sig [9, 4]), .empty] 0 0 0)) =
      some (.onebit (bits1 [true, false])) ∧
    shows (exec (.obExport 1 0) (setup [.onebit (bits1 [true])] 0 0 0)) = some (0, 0, 0x0906) := by decide

theorem test_obXorpop :
    shows (exec (.obXorpop 3) (setup [.onebit (bits1 [true, true]), .onebit (bits1 [false, true])] 0 0 0)) =
      some (1, 2, 0) ∧
    shows (exec (.obXorpop 7) (setup (List.replicate 3 (.onebit (bits1 [true, true]))) 0 0 0)) = some (2, 2, 0) := by
  decide

theorem test_obRdword : shows (exec (.obRdword 0) (setup [.onebit (bits1 [true, true])] 0 0 0)) = some (3, 0, 0) ∧
    shows (exec (.obRdword 0) (setup [.onebit (bits1 (List.replicate 33 true))] 1 0 0)) = some (1, 0, 0) := by decide

/-! ### HyperLogLog (V-H1 to V-H9) -/

theorem test_bucket_window_rho : (bucket 0x00010FFF 16, window 0x00010FFF 16, rho 0x00010FFF 16) = (1, 0x0FFF8000, 5) ∧
    (bucket 0xF0000000 4, window 0xF0000000 4, rho 0xF0000000 4) = (15, 8, 29) ∧
    (bucket 0xDEADBEEF 10, window 0xDEADBEEF 10, rho 0xDEADBEEF 10) = (890, 0xB6FBBE00, 1) := by decide

theorem test_hllNew : slotAfter 0 (exec (.hllNew 0 4) (setup [.empty] 0 0 0)) = some (.hll (hll4 [])) ∧
    shows (exec (.hllNew 0 17) (setup [.empty] 0 0 0)) = some (0, 0, 0x0106) := by decide

theorem test_hllDigest : slotAfter 0 (exec (.hllDigest 0) (setup [.hll (hll4 [12])] 0 0x3FFFFFFF 0)) =
      some (.hll (hll4 [12, 0, 0, 1])) ∧
    slotAfter 0 (exec (.hllDigest 0) (setup [.hll (hll4 [200])] 0 0 0)) = some (.hll (hll4 [200])) := by decide

theorem test_hllClear : slotAfter 0 (exec (.hllClear 0) (setup [.hll (hll4 [12, 0, 0, 1])] 0 0 0)) =
    some (.hll (hll4 [])) := by decide

theorem test_hllMerge : slotAfter 0 (exec (.hllMerge 0 1) (setup [.hll (hll4 [12, 0, 1]), .hll (hll4 [28])] 0 0 0)) =
      some (.hll (hll4 [28, 0, 1])) ∧
    shows (exec (.hllMerge 0 1) (setup [.hll (hll4 []), .hmh (hmh4 [] [])] 0 0 0)) = some (0, 0, 0x0906) := by decide

theorem test_hllRdreg : shows (exec (.hllRdreg 0) (setup [.hll (hll4 [12, 7])] 1 0 0)) = some (7, 0, 0) ∧
    shows (exec (.hllRdreg 0) (setup [.hll (hll4 [12, 7])] 16 0 0)) = some (0, 0, 0x0106) := by decide

/-! ### HllMinHash (V-Q1 to V-Q3) -/

theorem test_hmhNew : slotAfter 0 (exec (.hmhNew 0 4) (setup [.empty] 0 0 0)) = some (.hmh (hmh4 [] [])) := by decide

theorem test_hmhAdd : slotAfter 0 (exec (.hmhAdd 0) (setup [.hmh (hmh4 [] [])] 0 0x00010FFF 0)) =
      some (.hmh (hmh4 [12] [0x0010FFF8])) ∧
    slotAfter 0 (exec (.hmhAdd 0) (setup [.hmh (hmh4 [12] [0x0010FFF8])] 0 1 0)) = some (.hmh (hmh4 [28] [0x18])) := by
  decide

theorem test_hmhMerge :
    slotAfter 0 (exec (.hmhMerge 0 1) (setup [.hmh (hmh4 [12] [0x0010FFF8]), .hmh (hmh4 [28] [0x18])] 0 0 0)) =
      some (.hmh (hmh4 [28] [0x18])) := by decide

theorem test_hmhAgree :
    shows (exec (.hmhAgree 0 1) (setup [.hmh (hmh4 [12] [0x0010FFF8]), .hmh (hmh4 [28] [0x18])] 0 0 0)) =
      some (15, 16, 0) := by decide

theorem test_hmhRdreg : shows (exec (.hmhRdreg 0) (setup [.hmh (hmh4 [28] [0x18])] 0 0 0)) = some (28, 0, 0) := by
  decide

theorem test_hmhRdmin : shows (exec (.hmhRdmin 0) (setup [.hmh (hmh4 [28] [0x18])] 0 0 0)) = some (0x18, 0, 0) ∧
    shows (exec (.hmhRdmin 0) (setup [.hmh (hmh4 [28] [0x18])] 15 0 0)) = some (maxU32, 0, 0) := by decide

/-! ### Serializer and deserializer (V-S1 to V-S7) -/

/-- The blob V-S1 gives, at offset 0. -/
def vS1 : List Byte := [1, 0, 0, 0, 0, 0, 0, 0, 2, 0, 0, 0, 2, 0, 0, 0, 4, 0, 0, 0]

/-- The state with these blob bytes written from offset 0 up. -/
def withBlob (bs : List Byte) (s : State) : State := { s with blob := Memory.writeList [] 0 bs }

theorem test_mhSer : shows (exec (.mhSer 0) (setup [.minhash (sig [2, 4])] 0 0 20)) = some (20, 0, 0) ∧
    ((after (exec (.mhSer 0) (setup [.minhash (sig [2, 4])] 0 0 20))).bind fun t => Memory.readList t.blob 0 20) =
      some vS1 := by decide

theorem test_mhDes : slotAfter 1 (mhDesWith testPrng 1 (withBlob vS1 (setup [.empty, .empty] 0 0 20))) =
      some (.minhash (sig [2, 4])) ∧
    shows (exec (.mhDes 0) (withBlob [5, 0, 0, 0, 0, 0, 0, 0, 9, 0, 0, 0] (setup [.empty] 0 0 48))) =
      some (0, 0, 0x0A06) := by decide

theorem test_hllSer : ((after (exec (.hllSer 0) (setup [.hll (hll4 [12, 0, 0, 1])] 0 0 17))).bind fun t =>
    Memory.readList t.blob 0 17) = some ([4, 12, 0, 0, 1] ++ List.replicate 12 0) := by decide

theorem test_hllDes :
    slotAfter 1 (exec (.hllDes 1) (withBlob ([4, 200] ++ List.replicate 15 0) (setup [.empty, .empty] 0 0 17))) =
      some (.hll (hll4 [200])) ∧
    shows (exec (.hllDes 1) (withBlob [17] (setup [.empty, .empty] 0 0 17))) = some (0, 0, 0x0106) := by decide

/-- V-S4. -/
theorem test_deserializers_fault : faults (exec (.mhDes 0) (setup [.empty] 0 0 20)) = true ∧
    faults (exec (.hllDes 0) (setup [.empty] 0 0 17)) = true := by decide

/-! ### The host's accesses (V-C4, V-C5, V-Z1) -/

theorem test_host_reads : lastReply (hostRead 0x000 .word State.reset) = some (some (.data 0x534D4501)) ∧
    lastReply (hostRead 0x004 .word State.reset) = some (some (.data 0x00001004)) ∧
    lastReply (hostRead 0x00C .word State.reset) = some (some (.data 0x00010004)) ∧
    lastReply (hostRead 0x014 .half State.reset) = some (some .buserr) ∧
    lastReply (hostRead 0x016 .word State.reset) = some (some .buserr) := by decide

theorem test_blob_byte_order :
    let s := withBlob [0x44, 0x33, 0x22, 0x11] State.reset
    (after (hostWrite 0x80000 .word 0x11223344 State.reset)).map State.blob = some s.blob ∧
    lastReply (hostRead 0x80000 .byte s) = some (some (.data 0x44)) ∧
    lastReply (hostRead 0x80002 .half s) = some (some (.data 0x1122)) ∧
    lastReply (hostRead 0x80001 .half s) = some (some .buserr) := by decide

/-- V-Z1: with the host first the ARG write is ignored and sets OVR; with the engine first it lands. -/
theorem test_busy_hazard :
    let prog := [.access (.write cmdOffset .word 0), wr 0x018 3, HostOp.poll]
    ((after (core.run 4 (running prog [.host, .host] (setup [] 2 0 0)))).map fun t =>
      (t.regs.arg, statusWord t.status)) = some (2, 8) ∧
    ((after (core.run 4 (running prog [.host, .engine] (setup [] 2 0 0)))).map fun t =>
      (t.regs.arg, statusWord t.status)) = some (3, 0) := by decide

/-! ### The hypotheses of the statements can be met

One theorem for each statement of Obligations.lean that has hypotheses, on concrete data, with each clause at a
boundary of its range. -/

theorem not_minhash {x : Slot} (h : (slotInfo x).2 ≠ 1) : ∀ m, x ≠ .minhash m := by rintro m rfl; exact h rfl

theorem not_hll {x : Slot} (h : (slotInfo x).2 ≠ 2) : ∀ m, x ≠ .hll m := by rintro m rfl; exact h rfl

theorem not_hmh {x : Slot} (h : (slotInfo x).2 ≠ 3) : ∀ m, x ≠ .hmh m := by rintro m rfl; exact h rfl

theorem not_onebit {x : Slot} (h : (slotInfo x).2 ≠ 4) : ∀ m, x ≠ .onebit m := by rintro m rfl; exact h rfl

/-- Two signatures, two HLL sketches. -/
def mixed (arg hash blobLen : Word) : State :=
  setup [.minhash (sig [9, 4]), .minhash (sig [2, 25]), .hll (hll4 [12]), .hll (hll4 [28])] arg hash blobLen

/-- Two HllMinHash sketches, two one-bit signatures. -/
def mixed2 (arg hash blobLen : Word) : State :=
  setup [.hmh (hmh4 [12] [0x0010FFF8]), .hmh (hmh4 [28] [0x18]), .onebit (bits1 [true, true]),
    .onebit (bits1 [true, false])] arg hash blobLen

/-- Nothing pending, every slot empty, NSLOT and the rest of instance C. -/
def instanceC : State := State.resetWith { nslot := 4, kmax := 8, pmax := 8, blobBytes := 300 }

theorem test_hyp_DecodeOfEncodeIsTheCommand : (Instr.mhMerge 3 2).wellFormed 4 = true ∧
    (Instr.obXorpop 0xFFFF).wellFormed 16 = true ∧ (Instr.hmhNew 1 0xFFFF).wellFormed 2 = true := by decide

theorem test_hyp_EncodeOfDecodeIsTheWord : decode 4 0x4CC80000 = .ok (.mhMerge 3 2) ∧
    decode 16 0x6400FFFF = .ok (.obXorpop 0xFFFF) := ⟨rfl, rfl⟩

theorem test_hyp_IllegalEncodingsGiveIllegalCommand : (∀ w ∈ ([0x1C000000, 0x84010000, 0x00400000, 0x84040000,
      0x84000001, 0x85000000, 0x4C100000, 0x50000010] : List Word), illegalWord State.reset.params.nslot w) ∧
    ¬ illegalWord State.reset.params.nslot 0x5000000F := by
  simp [illegalWord, bits, reservedOps, opsWithoutSA, opsWithSB, opsWithImm, State.reset, State.resetWith, Config.params]

theorem test_hyp_StepRunsTheDecodedCommand :
    ((busyWith 0x10000000 State.reset).pending = some 0x10000000 ∧
      nextAgent (busyWith 0x10000000 State.reset) = .engine ∧
      decode (busyWith 0x10000000 State.reset).params.nslot 0x10000000 = .ok .lzc32) ∧
    ((busyWith 0x1C000000 State.reset).pending = some 0x1C000000 ∧
      nextAgent (busyWith 0x1C000000 State.reset) = .engine ∧
      decode (busyWith 0x1C000000 State.reset).params.nslot 0x1C000000 = .error .reservedOpcode) ∧
    decode State.reset.params.nslot (BitVec.ofNat 32 (0xCC400000 % 2 ^ 32)) = .ok (.hllDes 1) :=
  ⟨⟨rfl, rfl, rfl⟩, ⟨rfl, rfl, rfl⟩, rfl⟩

theorem test_hyp_StepTakesTheHostsNextAccess :
    (nextAgent State.reset = .host ∧ State.reset.host.prog = [] ∧ State.reset.host.sched = []) ∧
    (nextAgent (running [] [.engine] State.reset) = .engine ∧
      (running [] [.engine] State.reset).pending = none) ∧
    (nextAgent (running [rd 0x014] [] State.reset) = .host ∧
      (running [rd 0x014] [] State.reset).host.prog = [.access (.read 0x014 .word)]) ∧
    (nextAgent (running [wr 0x018 3] [.host] State.reset) = .host ∧
      (running [wr 0x018 3] [.host] State.reset).host.prog = [.access (.write 0x018 .word 3)]) ∧
    (nextAgent (running [.poll] [.host] (busyWith 0 State.reset)) = .host ∧
      (running [.poll] [.host] (busyWith 0 State.reset)).host.prog = [.poll]) := by decide

theorem test_hyp_IdAndCapabilitiesAreConstant : State.reset.params.wf ∧ instanceC.params.wf ∧
    hostWrite 0x000 .word 5 State.reset = .next (record (.write 0x000 .word 5) .done State.reset) ∧
    hostWrite 0x00C .word 5 (busyWith 0 State.reset) =
      .next (record (.write 0x00C .word 5) .done (ignoreWrite (busyWith 0 State.reset))) :=
  ⟨by decide, by decide, rfl, rfl⟩

theorem test_hyp_RegisterWindowReadsAndWrites : State.reset.status.busy = false ∧
    (∀ off ∈ ([0x000, 0x00C, 0x014, 0x02C, 0x034, 0x7FFFC] : List (BitVec 20)), off.toNat < 0x80000 ∧
      off.toNat % 4 = 0 ∧ (off ≤ 0x00C ∨ off = 0x014 ∨ 0x02C ≤ off)) ∧
    (∀ off ∈ ([0x034, 0x7FFFC] : List (BitVec 20)), 0x034 ≤ off.toNat ∧ off.toNat < 0x80000 ∧ off.toNat % 4 = 0) := by
  simp [State.reset, State.resetWith]

theorem test_hyp_CmdWriteIssuesACommand : State.reset.status.busy = false ∧
    (busyWith 0 State.reset).status.busy = true := by decide

/-- An instance whose blob ends inside a word: a word access at 300 keeps two bytes. -/
def instanceD : State := State.resetWith { nslot := 4, kmax := 8, pmax := 8, blobBytes := 302 }

theorem test_hyp_BusyHazard :
    (busyWith 0 State.reset).status.busy = true ∧ (legal 0x000 .word ∧ legal 0x7FFFC .word ∧ legal 0xFFFFF .byte) ∧
    (∀ off : BitVec 20, off = 0x034 ∨ off = 0x7FFFC →
      0x034 ≤ off.toNat ∧ off.toNat < 0x80000 ∧ off.toNat % 4 = 0) ∧
    (let s := busyWith 0 (withBlob [1, 2, 3, 4] State.reset);
      s.status.busy = true ∧ (legal 0x80000 .word ∧ min Width.word.bytes (s.params.blobBytes - 0) = 4 ∧
        ∀ n < 4, (Memory.read s.blob (0 + n)).isSome = true) ∧
      legal 0x90004 .word ∧ min Width.word.bytes (s.params.blobBytes - 0x10004) = 0) ∧
    (let s := busyWith 0 { instanceD with blob := Memory.writeList [] 300 [5, 6] };
      s.status.busy = true ∧ legal 0x8012C .word ∧ min Width.word.bytes (s.params.blobBytes - 300) = 2 ∧
        ∀ n < 2, (Memory.read s.blob (300 + n)).isSome = true) := by
  refine ⟨rfl, by unfold legal; decide, ?_, by unfold legal; decide, by unfold legal; decide⟩
  rintro off (rfl | rfl) <;> decide

theorem test_hyp_IllegalAccessIsBusErr : (∀ off ∈ ([0x001, 0x016, 0x7FFFE, 0x80001] : List (BitVec 20)),
      ¬ legal off .word) ∧ ¬ legal 0x014 .half ∧ ¬ legal 0x7FFFF .byte ∧ ¬ legal 0x80001 .half ∧
    legal 0x000 .word ∧ legal 0x80001 .byte ∧ legal 0xFFFFE .half ∧ legal 0xFFFFC .word := by
  simp [legal, Width.bytes]

theorem test_hyp_ReadsHaveNoSideEffect : (after (hostRead 0x02C .word State.reset)).isSome = true ∧
    (after (hostRead 0x02C .word (busyWith 0 State.reset))).isSome = true ∧
    (after (hostRead 0x014 .byte State.reset)).isSome = true := by decide

theorem test_hyp_BlobWindowReadsWhatWasWritten : State.reset.status.busy = false ∧
    (∀ off ∈ ([0x80000, 0x90000, 0x90004, 0xFFFFC] : List (BitVec 20)), legal off .word ∧ 0x80000 ≤ off.toNat) ∧
    min Width.word.bytes (State.reset.params.blobBytes - 65536) = 4 ∧
    min Width.word.bytes (State.reset.params.blobBytes - 65540) = 0 ∧
    (instanceD.status.busy = false ∧ legal 0x8012C .word ∧
      min Width.word.bytes (instanceD.params.blobBytes - 300) = 2) := by
  simp [legal, Width.bytes, State.reset, State.resetWith, Config.params, instanceD]

theorem test_hyp_UnwrittenBlobByteFaults :
    (legal 0x90000 .word ∧ 0x80000 ≤ (0x90000 : BitVec 20).toNat ∧ 3 < Width.word.bytes ∧
      (0x90000 : BitVec 20).toNat - 0x80000 + 3 < State.reset.params.blobBytes ∧
      Memory.read State.reset.blob ((0x90000 : BitVec 20).toNat - 0x80000 + 3) = none) ∧
    (let s := setup [.empty] 0 0 12;
      bufferLen s ≤ s.params.blobBytes ∧ 12 ≤ bufferLen s ∧ Memory.read s.blob 11 = none) ∧
    (let s := withBlob (vS1.take 19) (setup [.empty] 0 0 20);
      bufferLen s ≤ s.params.blobBytes ∧ 12 ≤ bufferLen s ∧ Memory.read s.blob 19 = none ∧
      memRead s.blob 8 4 = some 2 ∧ 12 + 4 * 2 ≤ bufferLen s ∧ 2 ≤ s.params.kmax) ∧
    (let s := setup [.empty] 0 0 1;
      bufferLen s ≤ s.params.blobBytes ∧ 1 ≤ bufferLen s ∧ Memory.read s.blob 0 = none) ∧
    (let s := withBlob [4] (setup [.empty] 0 0 17);
      bufferLen s ≤ s.params.blobBytes ∧ Memory.read s.blob 16 = none ∧ memRead s.blob 0 1 = some 4 ∧
      1 + 2 ^ 4 ≤ bufferLen s ∧ 4 ≤ s.params.pmax) := by
  unfold legal; decide

theorem test_hyp_CompletionUpdatesStatus :
    exec (.free 0) State.reset = .next (complete .ok (writeSlot 0 .empty State.reset)) ∧
    exec (.hllNew 0 17) State.reset = .next (complete .invalidArgument State.reset) ∧
    exec .clrstat State.reset = .next (complete .ok (clearAccumulated State.reset)) := ⟨rfl, rfl, rfl⟩

theorem test_hyp_ErrorsChangeOnlyStatus :
    runCommand 0x1C000000 State.reset = .next (complete .illegalCommand State.reset) ∧
    (complete .illegalCommand State.reset).status.code ≠ .ok ∧
    runCommand 0x44000000 State.reset = .next (complete .slotKind State.reset) ∧
    (complete .slotKind State.reset).status.code ≠ .ok := ⟨rfl, by decide, rfl, by decide⟩

theorem test_hyp_EngineKeepsOperandsAndParameters :
    runCommand 0x10000000 State.reset = .next (complete .ok (setResult 32 0 State.reset)) := rfl

theorem test_hyp_CommandsWriteAtMostTheirSlot : (after (exec (.mhMerge 0 1) (mixed 0 0 0))).isSome = true ∧
    destSlot (.mhMerge 0 1) ≠ some 1 ∧ (after (exec .lzc32 (mixed 0 0 0))).isSome = true ∧
    destSlot .lzc32 ≠ some 0 := by decide

theorem test_hyp_OnlySerializersWriteTheBlob : (mixed 0 0 20).slotsShaped ∧ (mixed 0 0 20).params.wf ∧
    (after (exec (.mhSer 0) (mixed 0 0 20))).isSome = true ∧ (after (exec .nop (mixed 0 0 20))).isSome = true := by
  decide

theorem test_hyp_CommandsWithoutResultKeepIt : (after (exec (.mhDigest 0) (mixed 0 0 0))).isSome = true ∧
    writesResult (.mhDigest 0) = false := by decide

/-- A state of a run: two sketches, one blob byte, a command accepted, the engine next. -/
def midRun : State :=
  busyWith 0xA4400000 { withBlob [7] (setup [.hll (hll4 [12]), .hmh (hmh4 [28] [0x18]), .empty, .onebit (bits1 [true])]
    0 0x00010FFF 0) with draws := 2 }

theorem midRun_inv : midRun.Inv where
  params := by decide
  slots := by decide
  sketches := by
    have h : (hmh4 [28] [0x18]).coupled := by decide
    intro x hx
    rcases List.mem_cons.1 hx with rfl | hx
    · trivial
    rcases List.mem_cons.1 hx with rfl | hx
    · exact h
    rcases List.mem_cons.1 hx with rfl | hx
    · trivial
    rcases List.mem_cons.1 hx with rfl | hx
    · trivial
    cases hx
  blob := by decide
  status := by decide

theorem test_hyp_EveryStepKeepsTheInvariant : midRun.Inv ∧ (after (step midRun)).isSome = true ∧
    slotAfter 1 (step midRun) = some (.hmh (hmh4 [28] [0x18])) := ⟨midRun_inv, by decide, by decide⟩

/-- Instances A, B and C of 95_test_vectors.md section 0.1. -/
theorem test_hyp_ResetMeetsTheInvariant : Config.params.wf ∧
    ({ nslot := 4, kmax := 200, pmax := 16, blobBytes := 65540 } : Params).wf ∧ instanceC.params.wf := by decide

theorem test_hyp_OnlyUnwrittenBytesStopTheMachine : faults (step (running [rdb 3 .byte] [] State.reset)) = true ∧
    nextAgent (running [rdb 3 .byte] [] State.reset) = .host ∧
    faults (step (busyWith 0xCC000000 (setup [.empty] 0 0 17))) = true ∧
    nextAgent (busyWith 0xCC000000 (setup [.empty] 0 0 17)) = .engine := by decide

theorem test_hyp_PendingCommandGetsItsStep :
    let s := running [wr 0x018 3] [.host, .host, .engine] (busyWith 0 State.reset);
    s.pending = some 0 ∧ s.status.busy = true ∧ (after (core.run 2 s)).isSome = true := by decide

theorem test_hyp_PolledCommandRunsAtItsWrite :
    let s := running (doCommand .lzc32 ++ [rd 0x02C]) [.engine, .host, .host] State.reset;
    s.pending = none ∧ s.status.busy = false ∧
    s.host.prog = .access (.write 0x010 .word 0x10000000) :: .poll :: [rd 0x02C] ∧
    (after (runCommand 0x10000000 { s with
      status := { s.status with busy := true }, pending := some 0x10000000, raced := false })).map
        (fun t => t.status.busy) = some false := by decide

theorem test_hyp_ExtractedField : 32 < (33 : BitVec 8).toNat ∧ (8 : BitVec 8).toNat < (9 : BitVec 8).toNat ∧
    (32 : BitVec 8).toNat ≤ 32 ∧ (0 : BitVec 8).toNat ≤ (32 : BitVec 8).toNat ∧
    (5 : BitVec 8).toNat ≤ (5 : BitVec 8).toNat := by decide

theorem test_hyp_SixtyFourBitArithmeticIsExact : 2 ^ 61 - 1 < 2 ^ 64 ∧ 2 ^ 64 - 1 < 2 ^ 64 := by decide

theorem test_hyp_PermutationReads : (∀ m, readSlot 2 (mixed 0 0 0) ≠ .minhash m) ∧
    readSlot 0 (mixed 1 0 0) = .minhash (sig [9, 4]) ∧ (mixed 1 0 0).regs.arg.toNat < (sig [9, 4]).k ∧
    (sig [9, 4]).perm[(mixed 1 0 0).regs.arg.toNat]? = some (3, 4) ∧
    (sig [9, 4]).k ≤ (mixed 2 0 0).regs.arg.toNat := ⟨not_minhash (by decide), by decide⟩

theorem test_hyp_GeneratedPermutations : permGen testPrng 0xFFFFFFFF 2 = some [(0xFFFFFFFF, 0), (1, 2)] ∧
    permGen testPrng 0 2 = some [(1, 2), (3, 4)] := by decide

/-- The draws of seed 0 under TestPrng are 0, 1, 2, 3, 4: the first `a` is draw 1, and its `b` the next (R131). -/
theorem test_draws_in_order : (List.range 5).map (fun n => (drawAt testPrng n (testPrng.init 0)).1) =
    [0, 1, 2, 3, 4] := by decide

theorem zeroPrng_draws (n : Nat) (st : BitVec 1) : (drawAt zeroPrng n st).1 = 0 := by
  induction n generalizing st with
  | zero => rfl
  | succ n ih => exact ih _

theorem test_hyp_GenerationHangsExactlyOnZeros : prngNonzeroEventually testPrng ∧
    ((drawAt testPrng 1 0).1 ≠ 0 ∧ ∀ j < 1, (drawAt testPrng j 0).1 = 0) ∧
    ((drawAt testPrng 0 1).1 ≠ 0 ∧ ∀ j < 0, (drawAt testPrng j 1).1 = 0) ∧
    (∀ n, (drawAt zeroPrng n (0 : BitVec 1)).1 = 0) ∧ drawNonzero zeroPrng (2 ^ zeroPrng.stateBits) 0 = none := by
  refine ⟨fun st => ?_, by decide, by decide, fun n => zeroPrng_draws n 0, by decide⟩
  by_cases h : st = (0 : BitVec 32)
  · exact ⟨1, by subst h; decide⟩
  · exact ⟨0, fun h0 => h h0⟩

theorem test_hyp_MhNewCreatesASignature : (mixed 0 0 0).regs.arg = 0 ∧
    (mixed 0x80000000 0 0).regs.arg.getLsbD 31 = true ∧
    ((mixed 9 0 0).regs.arg ≠ 0 ∧ (mixed 9 0 0).regs.arg.getLsbD 31 = false ∧
      (mixed 9 0 0).params.kmax < (mixed 9 0 0).regs.arg.toNat) ∧
    ((mixed 8 0 0).regs.arg ≠ 0 ∧ (mixed 8 0 0).regs.arg.getLsbD 31 = false ∧
      (mixed 8 0 0).regs.arg.toNat ≤ (mixed 8 0 0).params.kmax) := by decide

theorem test_hyp_MhDigestTakesSmallerValues : (∀ m, readSlot 2 (mixed 0 0 0) ≠ .minhash m) ∧
    readSlot 0 (mixed 0 0 0) = .minhash (sig [9, 4]) ∧ (sig [9, 4]).shaped (mixed 0 0 0).params ∧
    (sig [9, 4]).perm[1]? = some (3, 4) := ⟨not_minhash (by decide), by decide⟩

theorem test_hyp_MhMergeTakesMinima : (∀ m, readSlot 2 (mixed 0 0 0) ≠ .minhash m) ∧
    (readSlot 0 (mixed 0 0 0) = .minhash (sig [9, 4]) ∧ readSlot 1 (mixed 0 0 0) = .minhash (sig [2, 25]) ∧
      (sig [9, 4]).seed = (sig [2, 25]).seed ∧ (sig [9, 4]).k = (sig [2, 25]).k ∧
      (sig [9, 4]).shaped (mixed 0 0 0).params ∧ (sig [2, 25]).shaped (mixed 0 0 0).params) ∧
    (let s := setup [.minhash (sig [9, 4]), .minhash { sig [9, 4] with seed := 0x100000001 }] 0 0 0;
      readSlot 0 s = .minhash (sig [9, 4]) ∧
      readSlot 1 s = .minhash { sig [9, 4] with seed := 0x100000001 } ∧ (sig [9, 4]).seed ≠ 0x100000001) :=
  ⟨not_minhash (by decide), by decide, by decide⟩

theorem test_hyp_MhAgreeCountsEqualValues :
    maskSize 1 < 2 ∧ (2 ≤ maskSize 5 ∧ (5 : BitVec 16).getLsbD 2 = true ∧
      ∀ m, slotAt (mixed 0 0 0) 2 ≠ .minhash m) ∧
    (let f : Nat → MinHash := fun n => if n = 0 then sig [9, 4] else sig [2, 25];
      2 ≤ maskSize 3 ∧ (∀ n < 16, (3 : BitVec 16).getLsbD n = true →
        slotAt (mixed 0 0 0) n = .minhash (f n) ∧ (f n).hv.length = (f n).k) ∧
      (0 < 16 ∧ (3 : BitVec 16).getLsbD 0 = true ∧ ∀ x < 0, (3 : BitVec 16).getLsbD x = false) ∧
      ∀ n < 16, (3 : BitVec 16).getLsbD n = true → (f n).seed = (f 0).seed ∧ (f n).k = (f 0).k) ∧
    (let s := setup [.minhash (sig [9, 4]), .minhash { sig [9, 4] with k := 1, hv := [9] }] 0 0 0
      let f : Nat → MinHash := fun n => if n = 0 then sig [9, 4] else { sig [9, 4] with k := 1, hv := [9] };
      (∀ n < 16, (3 : BitVec 16).getLsbD n = true → slotAt s n = .minhash (f n) ∧ (f n).hv.length = (f n).k) ∧
      (f 1).k ≠ (f 0).k) := by
  unfold maskSize
  exact ⟨by decide, ⟨by decide, by decide, not_minhash (by decide)⟩, by decide, by decide⟩

theorem test_hyp_MhClearAndReadBack : (∀ m, readSlot 2 (mixed 0 0 0) ≠ .minhash m) ∧
    (∀ b, readSlot 2 (mixed 0 0 0) ≠ .onebit b) ∧
    readSlot 0 (mixed 1 0 0) = .minhash (sig [9, 4]) ∧ (mixed 1 0 0).regs.arg.toNat < (sig [9, 4]).k ∧
    (sig [9, 4]).hv[(mixed 1 0 0).regs.arg.toNat]? = some 4 ∧ (sig [9, 4]).k ≤ (mixed 2 0 0).regs.arg.toNat ∧
    (sig [9, 4]).seed = 1 ∧ readSlot 2 (mixed2 0 0 0) = .onebit (bits1 [true, true]) ∧ (bits1 [true, true]).seed = 1 :=
  ⟨not_minhash (by decide), not_onebit (by decide), by decide⟩

theorem test_hyp_HashValuesNeverRise : (mixed 0 0 0).slotsShaped ∧
    (after (exec (.mhMerge 0 1) (mixed 0 0 0))).isSome = true ∧ readSlot 0 (mixed 0 0 0) = .minhash (sig [9, 4]) ∧
    (destSlot (.mhMerge 0 1) = some 0 → replacesSlot (.mhMerge 0 1) = false) := by decide

theorem test_hyp_MhMergeIsUnion :
    let m := sig [maxU32, maxU32]
    let s := setup [.minhash m, .minhash m, .minhash m, .empty] 0 0 0;
    (0 : SlotNo) ≠ 1 ∧ (0 : SlotNo) ≠ 2 ∧ (1 : SlotNo) ≠ 2 ∧ (2 : SlotNo).val < s.slots.length ∧
    m.shaped s.params ∧ m.hv = List.replicate m.k 0xFFFFFFFF#32 ∧ readSlot 0 s = .minhash m ∧
    readSlot 1 s = .minhash m ∧ readSlot 2 s = .minhash m ∧
    ∀ h, h ∈ ([0, 7] : List Word) ↔ h ∈ ([7] : List Word) ∨ h ∈ ([0, 7] : List Word) := by
  refine ⟨by decide, by decide, by decide, by decide, by decide, by decide, by decide, by decide, by decide, ?_⟩
  simp

theorem test_hyp_ObExportTakesLowestBits : (∀ m, readSlot 2 (mixed 0 0 0) ≠ .minhash m) ∧
    readSlot 0 (mixed 0 0 0) = .minhash (sig [9, 4]) ∧ (sig [9, 4]).shaped (mixed 0 0 0).params :=
  ⟨not_minhash (by decide), by decide⟩

theorem test_hyp_ObXorpopCountsOddPositions :
    maskSize 4 < 2 ∧ (2 ≤ maskSize 5 ∧ (5 : BitVec 16).getLsbD 0 = true ∧
      ∀ b, slotAt (mixed2 0 0 0) 0 ≠ .onebit b) ∧
    (let f : Nat → OneBit := fun n => if n = 2 then bits1 [true, true] else bits1 [true, false];
      2 ≤ maskSize 12 ∧ (∀ n < 16, (12 : BitVec 16).getLsbD n = true → slotAt (mixed2 0 0 0) n = .onebit (f n)) ∧
      (2 < 16 ∧ (12 : BitVec 16).getLsbD 2 = true ∧ ∀ x < 2, (12 : BitVec 16).getLsbD x = false) ∧
      ∀ n < 16, (12 : BitVec 16).getLsbD n = true → (f n).seed = (f 2).seed ∧ (f n).size = (f 2).size) ∧
    (let s := setup [.onebit (bits1 [true]), .onebit (bits1 [true, true])] 0 0 0
      let f : Nat → OneBit := fun n => if n = 0 then bits1 [true] else bits1 [true, true];
      (∀ n < 16, (3 : BitVec 16).getLsbD n = true → slotAt s n = .onebit (f n)) ∧ (f 1).size ≠ (f 0).size) := by
  unfold maskSize
  exact ⟨by decide, ⟨by decide, by decide, not_onebit (by decide)⟩, by decide, by decide⟩

theorem test_hyp_ObRdwordReadsOneWord : (∀ b, readSlot 0 (mixed2 0 0 0) ≠ .onebit b) ∧
    readSlot 2 (mixed2 3 0 0) = .onebit (bits1 [true, true]) ∧ (mixed2 3 0 0).regs.arg.toNat ≤ 3 ∧
    3 < (mixed2 4 0 0).regs.arg.toNat := ⟨not_onebit (by decide), by decide⟩

theorem test_hyp_PrecisionSketchesStartEmpty : (3 : BitVec 16).toNat < 4 ∧ 16 < (17 : BitVec 16).toNat ∧
    (4 ≤ (9 : BitVec 16).toNat ∧ (9 : BitVec 16).toNat ≤ 16 ∧ instanceC.params.pmax < (9 : BitVec 16).toNat) ∧
    (4 ≤ (16 : BitVec 16).toNat ∧ (16 : BitVec 16).toNat ≤ 16 ∧
      (16 : BitVec 16).toNat ≤ State.reset.params.pmax) := by decide

theorem test_hyp_BucketAndWindowBounds : 4 ≤ 4 ∧ 16 ≤ 16 := by decide

theorem test_hyp_DigestsUpdateOneBucket : (mixed 0 0 0).params.wf ∧ (∀ h, readSlot 0 (mixed 0 0 0) ≠ .hll h) ∧
    (∀ x, readSlot 0 (mixed 0 0 0) ≠ .hmh x) ∧ readSlot 2 (mixed 0 0 0) = .hll (hll4 [12]) ∧
    (hll4 [12]).shaped (mixed 0 0 0).params ∧ readSlot 1 (mixed2 0 0 0) = .hmh (hmh4 [28] [0x18]) ∧
    (hmh4 [28] [0x18]).shaped (mixed2 0 0 0).params :=
  ⟨by decide, not_hll (by decide), not_hmh (by decide), by decide⟩

theorem test_hyp_HllClearAndReadBack : (∀ h, readSlot 0 (mixed 0 0 0) ≠ .hll h) ∧
    (∀ x, readSlot 0 (mixed 0 0 0) ≠ .hmh x) ∧
    (readSlot 2 (mixed 15 0 0) = .hll (hll4 [12]) ∧ (mixed 15 0 0).regs.arg.toNat < 2 ^ (hll4 [12]).p ∧
      (hll4 [12]).reg[(mixed 15 0 0).regs.arg.toNat]? = some 0 ∧
      2 ^ (hll4 [12]).p ≤ (mixed 16 0 0).regs.arg.toNat) ∧
    (readSlot 1 (mixed2 15 0 0) = .hmh (hmh4 [28] [0x18]) ∧
      (mixed2 15 0 0).regs.arg.toNat < 2 ^ (hmh4 [28] [0x18]).p ∧
      (hmh4 [28] [0x18]).reg[(mixed2 15 0 0).regs.arg.toNat]? = some 0 ∧
      (hmh4 [28] [0x18]).minv[(mixed2 15 0 0).regs.arg.toNat]? = some maxU32 ∧
      2 ^ (hmh4 [28] [0x18]).p ≤ (mixed2 16 0 0).regs.arg.toNat) :=
  ⟨not_hll (by decide), not_hmh (by decide), by decide, by decide⟩

theorem test_hyp_PrecisionMergesTakeExtremes : (∀ h, readSlot 1 (mixed 0 0 0) ≠ .hll h) ∧
    (∀ x, readSlot 1 (mixed 0 0 0) ≠ .hmh x) ∧
    (readSlot 2 (mixed 0 0 0) = .hll (hll4 [12]) ∧ readSlot 3 (mixed 0 0 0) = .hll (hll4 [28]) ∧
      (hll4 [12]).p = (hll4 [28]).p ∧ (hll4 [12]).shaped (mixed 0 0 0).params ∧
      (hll4 [28]).shaped (mixed 0 0 0).params) ∧
    (readSlot 0 (mixed2 0 0 0) = .hmh (hmh4 [12] [0x0010FFF8]) ∧ readSlot 1 (mixed2 0 0 0) = .hmh (hmh4 [28] [0x18]) ∧
      (hmh4 [12] [0x0010FFF8]).p = (hmh4 [28] [0x18]).p ∧ (hmh4 [12] [0x0010FFF8]).shaped (mixed2 0 0 0).params ∧
      (hmh4 [28] [0x18]).shaped (mixed2 0 0 0).params) ∧
    (readSlot 0 (setup [.hll (freshHll 4), .hll (freshHll 5)] 0 0 0) = .hll (freshHll 4) ∧
      readSlot 1 (setup [.hll (freshHll 4), .hll (freshHll 5)] 0 0 0) = .hll (freshHll 5) ∧
      (freshHll 4).p ≠ (freshHll 5).p) ∧
    (readSlot 0 (setup [.hmh (freshHmh 4), .hmh (freshHmh 5)] 0 0 0) = .hmh (freshHmh 4) ∧
      readSlot 1 (setup [.hmh (freshHmh 4), .hmh (freshHmh 5)] 0 0 0) = .hmh (freshHmh 5) ∧
      (freshHmh 4).p ≠ (freshHmh 5).p) :=
  ⟨not_hll (by decide), not_hmh (by decide), by decide, by decide, by decide, by decide⟩

theorem test_hyp_HmhAgreeCountsEqualMinima : (∀ x, readSlot 2 (mixed2 0 0 0) ≠ .hmh x) ∧
    (readSlot 0 (mixed2 0 0 0) = .hmh (hmh4 [12] [0x0010FFF8]) ∧ readSlot 1 (mixed2 0 0 0) = .hmh (hmh4 [28] [0x18]) ∧
      (hmh4 [12] [0x0010FFF8]).p = (hmh4 [28] [0x18]).p ∧ (hmh4 [12] [0x0010FFF8]).shaped (mixed2 0 0 0).params ∧
      (hmh4 [28] [0x18]).shaped (mixed2 0 0 0).params) ∧
    (readSlot 1 (setup [.hmh (freshHmh 4), .hmh (freshHmh 5)] 0 0 0) = .hmh (freshHmh 5) ∧
      (freshHmh 4).p ≠ (freshHmh 5).p) := ⟨not_hmh (by decide), by decide, by decide⟩

theorem test_hyp_HllRegistersAreMaximaOfTheUnion :
    let h := freshHll 4
    let s := setup [.hll h, .hll h, .hll h, .empty] 0 0 0;
    s.params.wf ∧ (0 : SlotNo) ≠ 1 ∧ (0 : SlotNo) ≠ 2 ∧ (1 : SlotNo) ≠ 2 ∧ (2 : SlotNo).val < s.slots.length ∧
    h.shaped s.params ∧ h.reg = List.replicate (2 ^ h.p) 0 ∧ readSlot 0 s = .hll h ∧
    readSlot 1 s = .hll h ∧ readSlot 2 s = .hll h ∧
    ∀ x, x ∈ ([0, 7] : List Word) ↔ x ∈ ([7] : List Word) ∨ x ∈ ([0, 7] : List Word) := by
  refine ⟨by decide, by decide, by decide, by decide, by decide, by decide, by decide, by decide, by decide,
    by decide, ?_⟩
  simp

theorem test_hyp_MhSerWritesTheBlob : (∀ m, readSlot 2 (mixed 0 0 0) ≠ .minhash m) ∧
    readSlot 0 (mixed 0 0 20) = .minhash (sig [9, 4]) ∧ (sig [9, 4]).shaped (mixed 0 0 20).params ∧
    (mixed 0 0 20).params.wf ∧ (mixed 0 0 65541).params.blobBytes < (mixed 0 0 65541).regs.blobLen.toNat ∧
    (mixed 0 0 19).regs.blobLen.toNat < 12 + 4 * (sig [9, 4]).k ∧
    12 + 4 * (sig [9, 4]).k ≤ (mixed 0 0 20).regs.blobLen.toNat ∧
    (mixed 0 0 20).regs.blobLen.toNat ≤ (mixed 0 0 20).params.blobBytes := ⟨not_minhash (by decide), by decide⟩

theorem test_hyp_MhDesLoadsTheBlob :
    (mixed 0 0 65541).params.blobBytes < (mixed 0 0 65541).regs.blobLen.toNat ∧
    ((mixed 0 0 11).regs.blobLen.toNat ≤ (mixed 0 0 11).params.blobBytes ∧ (mixed 0 0 11).regs.blobLen.toNat < 12) ∧
    (let s := withBlob vS1 (mixed 0 0 20);
      s.regs.blobLen.toNat ≤ s.params.blobBytes ∧ 12 ≤ s.regs.blobLen.toNat ∧ memRead s.blob 8 4 = some 2 ∧
      12 + 4 * 2 ≤ s.regs.blobLen.toNat ∧ 2 ≤ s.params.kmax ∧ memRead s.blob 0 8 = some 1 ∧
      ([2, 4] : List Word).length = 2 ∧
      ∀ i < 2, memRead s.blob (12 + 4 * i) 4 = some (([2, 4] : List Word).getD i 0).toNat) ∧
    (let s := withBlob (List.replicate 12 0) (mixed 0 0 12);
      12 ≤ s.regs.blobLen.toNat ∧ memRead s.blob 8 4 = some 0) ∧
    (let s := withBlob (List.replicate 8 0 ++ [9, 0, 0, 0]) (mixed 0 0 48);
      memRead s.blob 8 4 = some 9 ∧ 12 + 4 * 9 ≤ s.regs.blobLen.toNat ∧ s.params.kmax < 9 ∧
      (mixed 0 0 47).regs.blobLen.toNat < 12 + 4 * 9) := by decide

theorem test_hyp_HllSerdesLayout : (mixed 0 0 17).params.wf ∧ (∀ h, readSlot 0 (mixed 0 0 17) ≠ .hll h) ∧
    (readSlot 2 (mixed 0 0 17) = .hll (hll4 [12]) ∧ (hll4 [12]).shaped (mixed 0 0 17).params ∧
      (mixed 0 0 65541).params.blobBytes < (mixed 0 0 65541).regs.blobLen.toNat ∧
      (mixed 0 0 16).regs.blobLen.toNat < 1 + 2 ^ (hll4 [12]).p ∧
      1 + 2 ^ (hll4 [12]).p ≤ (mixed 0 0 17).regs.blobLen.toNat) ∧
    (mixed 0 0 0).regs.blobLen.toNat = 0 ∧
    (let s := withBlob ([4, 200] ++ List.replicate 15 0) (mixed 0 0 17);
      s.regs.blobLen.toNat ≤ s.params.blobBytes ∧ Memory.read s.blob 0 = some 4 ∧
      ([200] ++ List.replicate 15 0 : List Byte).length = 2 ^ 4 ∧ 4 ≤ s.params.pmax ∧
      ∀ j < 2 ^ 4, Memory.read s.blob (1 + j) = ([200] ++ List.replicate 15 0 : List Byte)[j]?) ∧
    (Memory.read (withBlob [3] (mixed 0 0 17)).blob 0 = some 3 ∧
      Memory.read (withBlob [17] (mixed 0 0 17)).blob 0 = some 17) ∧
    (let s := withBlob [9] { instanceC with regs := { instanceC.regs with blobLen := 300 } };
      s.regs.blobLen.toNat ≤ s.params.blobBytes ∧ Memory.read s.blob 0 = some 9 ∧ s.regs.blobLen.toNat < 1 + 2 ^ 9 ∧
      s.params.pmax < 9) ∧
    (let s := withBlob [9] { State.reset with
        params := { Config.params with pmax := 8 }, regs := { State.reset.regs with blobLen := 513 } };
      s.regs.blobLen.toNat ≤ s.params.blobBytes ∧ Memory.read s.blob 0 = some 9 ∧ 1 + 2 ^ 9 ≤ s.regs.blobLen.toNat ∧
      s.params.pmax < 9 ∧ s.params.wf) :=
  ⟨by decide, not_hll (by decide), by decide, by decide, by decide, by decide, by decide, by decide⟩

theorem test_hyp_MhSerdesRoundTrip :
    (let s := mixed 0 0 20;
      s.params.wf ∧ (1 : SlotNo).val < s.slots.length ∧ readSlot 0 s = .minhash (sig [9, 4]) ∧
      (sig [9, 4]).shaped s.params ∧ permGen testPrng (sig [9, 4]).seed (sig [9, 4]).k = some (sig [9, 4]).perm ∧
      12 + 4 * (sig [9, 4]).k ≤ s.regs.blobLen.toNat ∧ s.regs.blobLen.toNat ≤ s.params.blobBytes) ∧
    (let s := busyWith 0xC4000000 (withBlob vS1 (mixed 0 0 20));
      (0 : SlotNo).val < s.slots.length ∧ s.status.busy = true ∧
      (after (mhDesWith testPrng 0 s)).map (fun t => (t.status.busy, t.status.code)) = some (false, .ok)) := by decide

theorem test_hyp_HllSerdesRoundTrip :
    (let s := mixed 0 0 17;
      s.params.wf ∧ (3 : SlotNo).val < s.slots.length ∧ readSlot 2 s = .hll (hll4 [12]) ∧
      (hll4 [12]).shaped s.params ∧ 1 + 2 ^ (hll4 [12]).p ≤ s.regs.blobLen.toNat ∧
      s.regs.blobLen.toNat ≤ s.params.blobBytes) ∧
    (let s := withBlob ([4, 200] ++ List.replicate 15 0) (mixed 0 0 17);
      (0 : SlotNo).val < s.slots.length ∧
      (after (exec (.hllDes 0) s)).map (fun t => t.status.code) = some .ok) := by decide

theorem test_hyp_ControlCommands : State.reset.raced = false ∧ readSlot 3 State.reset = .empty ∧
    readSlot 0 (mixed 0 0 0) = .minhash (sig [9, 4]) ∧ readSlot 2 (mixed 0 0 0) = .hll (hll4 [12]) ∧
    readSlot 1 (mixed2 0 0 0) = .hmh (hmh4 [28] [0x18]) ∧ readSlot 2 (mixed2 0 0 0) = .onebit (bits1 [true, true]) := by
  decide

theorem test_hyp_UnionCountIsCountAfterMerge :
    (2 : SlotNo).val < (mixed 0 0 0).slots.length ∧ readSlot 2 (mixed 0 0 0) = .hll (hll4 [12]) ∧
    readSlot 3 (mixed 0 0 0) = .hll (hll4 [28]) ∧
    (after (exec (.hllMerge 2 3) (mixed 0 0 0))).map (fun t => t.status.code) = some .ok ∧
    (after (exec (.hllMerge 0 1) (setup [.hll (freshHll 4), .hll (freshHll 5)] 0 0 0))).map
      (fun t => t.status.code) = some .incompatibleSketch := by decide

/-- A sketch of precision 4 with one value in every register. -/
def flat4 (r : Byte) : Hll := { p := 4, reg := List.replicate 16 r }

theorem rawOf_flat4 (r : Byte) : rawOf (flat4 r) = 0.673 * 16 * 2 ^ r.toNat := by
  have h : ∀ j ∈ Finset.range (2 ^ 4), 1 / (2 : ℝ) ^ ((List.replicate 16 r).getD j 0).toNat = 1 / 2 ^ r.toNat := by
    intro j hj
    have hj : j < 16 := Finset.mem_range.1 hj
    rw [List.getD_eq_getElem?_getD, List.getElem?_replicate, if_pos hj]
    rfl
  have hs : (2 : ℝ) ^ r.toNat ≠ 0 := by positivity
  simp only [rawOf, flat4, Finset.sum_congr rfl h, Finset.sum_const, Finset.card_range, alphaOf, if_true, nsmul_eq_mul]
  rw [div_eq_iff (by positivity)]
  push_cast
  rw [mul_assoc (0.673 * 16 : ℝ), mul_left_comm ((2 : ℝ) ^ r.toNat), mul_one_div_cancel hs]
  norm_num

/-- One sketch in each regime of R241, by `E = 0.673 * 16 * 2^r` with every register `r`: 10.768, 21.536, 43.072 and
about 1.445e9. -/
theorem test_hyp_EmptySketchesCountZero :
    (∀ r, 4 ≤ (flat4 r).p ∧ (flat4 r).p ≤ 16 ∧ (flat4 r).reg.length = 2 ^ (flat4 r).p) ∧
    (rawOf (flat4 0) ≤ 2.5 * 2 ^ 4 ∧ zerosOf (flat4 0) = 16 ∧ rawOf (flat4 0) < 2 ^ 32) ∧
    (rawOf (flat4 1) ≤ 2.5 * 2 ^ 4 ∧ zerosOf (flat4 1) = 0 ∧ rawOf (flat4 1) < 2 ^ 32 ∧
      ∃ r ∈ (flat4 1).reg, r ≠ 0) ∧
    (2.5 * 2 ^ 4 < rawOf (flat4 2) ∧ rawOf (flat4 2) < 2 ^ 32 / 30) ∧
    (2.5 * 2 ^ 4 < rawOf (flat4 27) ∧ 2 ^ 32 / 30 ≤ rawOf (flat4 27) ∧ rawOf (flat4 27) < 2 ^ 32) ∧
    4 ≤ 16 ∧ 16 ≤ 16 := by
  simp only [rawOf_flat4, BitVec.reduceToNat]
  refine ⟨fun r => ⟨le_refl 4, show 4 ≤ 16 by decide, rfl⟩, ?_, ?_, ?_, ?_, by decide, by decide⟩
  · exact ⟨by norm_num, by decide, by norm_num⟩
  · exact ⟨by norm_num, by decide, by norm_num, 1, by decide, by decide⟩
  · constructor <;> norm_num
  · refine ⟨?_, ?_, ?_⟩ <;> norm_num

/-! ### The launch premise (R317) -/

/-- Every host program launches from reset, whatever the claim lists and reads. -/
theorem test_launch_reset : State.launch ⟨[], [0], [0, 3]⟩
    (running (doCommand (.hllNew 0 4) ++ doCommand (.hllDigest 0)) [.engine, .host] State.reset) :=
  reset_launch Config.params _ _

/-- Instance A after `do HLL_NEW s0, #4` from reset: slot 0 holds the empty sketch. -/
def afterHllNew (prog : List HostOp) : State :=
  { setup [.hll (freshHll 4), .empty, .empty, .empty] 0 0 0 with host := { prog := prog, sched := [], log := [] } }

/-- A claim that lists the HLL_NEW that ran may read its sketch. -/
theorem test_launch_listed_slot : State.launch ⟨[.hllNew 0 4], [0], [0]⟩ (afterHllNew (doCommand (.hllDigest 0))) :=
  launch_of_created (created := [0]) rfl
    ⟨running (doCommand (.hllNew 0 4)) [] State.reset, 3, _, _, rfl, rfl, by decide⟩ (by decide) rfl

/-- A command that is listed but makes another kind of sketch, or one in another slot, has not made this one. -/
theorem test_launch_wrong_listed : ¬ State.launch ⟨[.mhNew 0, .hllNew 1 4], [0], []⟩ (afterHllNew []) := by
  intro h
  obtain ⟨i, hi, hc, hk⟩ := h.made_by_listed (n := 0) (by decide) (by decide)
  revert hc hk
  rcases List.mem_pair.1 hi with rfl | rfl <;> decide

/-- A program that reads a sketch no command of the claim created does not meet the premise. -/
theorem test_launch_foreign_slot : ¬ State.launch ⟨[], [], []⟩ (afterHllNew (doCommand (.hllDigest 0))) := by
  rintro ⟨-, created, ⟨r, m, t, v, ht, rfl, -⟩, -, hrun⟩
  have hv : v.created = [] := List.eq_nil_iff_forall_not_mem.2 fun n hn => by
    obtain ⟨i, hi, -⟩ :=
      traceFrom_keeps (P := Provenance.made []) Provenance.advance_made (by simp [Provenance.made]) ht n hn
    cases hi
  rw [hv] at hrun
  have h1 := (hrun 1 _ _ rfl).1.1 0 (by decide)
  unfold Provenance.owns at h1
  revert h1
  decide

/-- A program that deserializes blob bytes it has not written does not meet the premise. -/
theorem test_launch_foreign_blob :
    ¬ State.launch ⟨[], [], []⟩ (running (doCommand (.mhDes 0)) [] (withBlob vS1 (setup [.empty] 0 0 20))) := by
  rintro ⟨-, created, -, -, hrun⟩
  rcases (hrun 1 _ _ rfl).1.2 8 (by decide) with h | h
  · revert h
    decide
  · exact absurd (show 8 ∈ ([] : List Nat) from h) (by decide)

end Sys2Proof.Tests
end

section
/-! PROOFS. What every command's outcome can be, which blob bytes a read needs, and what can stop the machine:
00_scope.md R10 and R16, 20_memory.md R66, 60_exceptions.md R271. -/

namespace Sys2Proof.Proofs

open Sys2Proof Sys2Proof.Machine Sys2Proof.Claim

/-! ### Unwritten bytes (20_memory.md R66) -/

/-- Some blob address in `[a, b)` has not been written since reset. -/
def HasGap (m : Memory) (a b : Nat) : Prop := ∃ x, a ≤ x ∧ x < b ∧ Memory.read m x = none

theorem hasGap_self (m : Memory) (a : Nat) : ¬ HasGap m a a := fun ⟨_, hlo, hhi, _⟩ => by omega

/-- A range has a gap exactly if one of its two parts has. -/
theorem hasGap_split {m : Memory} {a b c : Nat} (hab : a ≤ b) (hbc : b ≤ c) :
    HasGap m a c ↔ HasGap m a b ∨ HasGap m b c := by
  constructor
  · rintro ⟨x, hlo, hhi, hx⟩
    rcases Nat.lt_or_ge x b with h | h
    · exact .inl ⟨x, hlo, h, hx⟩
    · exact .inr ⟨x, h, hhi, hx⟩
  · rintro (⟨x, hlo, hhi, hx⟩ | ⟨x, hlo, hhi, hx⟩)
    · exact ⟨x, hlo, by omega, hx⟩
    · exact ⟨x, by omega, hhi, hx⟩

theorem hasGap_singleton {m : Memory} {a : Nat} : HasGap m a (a + 1) ↔ Memory.read m a = none := by
  constructor
  · rintro ⟨x, hlo, hhi, hx⟩
    obtain rfl : x = a := by omega
    exact hx
  · exact fun h => ⟨a, by omega, by omega, h⟩

theorem readList_eq_none {m : Memory} {a n : Nat} : Memory.readList m a n = none ↔ HasGap m a (a + n) := by
  induction n generalizing a with
  | zero => simp [Memory.readList, hasGap_self]
  | succ n ih =>
    rw [hasGap_split (b := a + 1) (by omega) (by omega), hasGap_singleton,
      show a + (n + 1) = a + 1 + n by omega, ← ih, Memory.readList]
    cases Memory.read m a <;> cases Memory.readList m (a + 1) n <;> simp

theorem memRead_eq_none {m : Memory} {o n : Nat} : memRead m o n = none ↔ HasGap m o (o + n) := by
  rw [memRead, Option.map_eq_none_iff, readList_eq_none]

theorem readWords_eq_none {m : Memory} {a n : Nat} : readWords m a n = none ↔ HasGap m a (a + 4 * n) := by
  induction n generalizing a with
  | zero => simp [readWords, hasGap_self]
  | succ n ih =>
    rw [hasGap_split (b := a + 4) (by omega) (by omega), ← memRead_eq_none,
      show a + 4 * (n + 1) = a + 4 + 4 * n by omega, ← ih, readWords]
    cases memRead m a 4 <;> cases readWords m (a + 4) n <;> simp

theorem blobByte_eq_none {s : State} {a : Nat} {o : Byte} :
    blobByte s a o = none ↔ a < s.params.blobBytes ∧ Memory.read s.blob a = none := by
  unfold blobByte
  split
  · simp only [reduceCtorEq, false_iff]
    omega
  · rename_i hlimit
    rw [and_iff_right (Nat.lt_of_not_le hlimit)]
    cases Memory.read s.blob a <;> simp

/-- A read through the blob window needs each of its bytes below the limit. -/
theorem blobBytesAt_eq_none {s : State} {a : Nat} {os : List Byte} :
    blobBytesAt s a os = none ↔ HasGap s.blob a (min (a + os.length) s.params.blobBytes) := by
  induction os generalizing a with
  | nil =>
    simp only [blobBytesAt, reduceCtorEq, List.length_nil, Nat.add_zero, false_iff]
    rintro ⟨x, hlo, hhi, -⟩
    omega
  | cons o os ih =>
    have hcons : blobBytesAt s a (o :: os) = none ↔ blobByte s a o = none ∨ blobBytesAt s (a + 1) os = none := by
      rw [blobBytesAt]
      cases blobByte s a o <;> cases blobBytesAt s (a + 1) os <;> simp
    rw [hcons, blobByte_eq_none, ih, List.length_cons, show a + (os.length + 1) = a + 1 + os.length by omega]
    by_cases h : a < s.params.blobBytes
    · rw [hasGap_split (a := a) (b := a + 1) (by omega) (by omega), hasGap_singleton, and_iff_right h]
    · constructor
      · rintro (⟨hlim, -⟩ | ⟨x, hlo, hhi, -⟩) <;> omega
      · rintro ⟨x, hlo, hhi, -⟩
        omega

/-! ### How a command can end (60_exceptions.md R271) -/

/-- The command `i` is a deserializer, and its buffer has an unwritten byte (20_memory.md R66). -/
def LoadsUnwritten (s : State) (i : Instr) : Prop :=
  bufferLen s ≤ s.params.blobBytes ∧ HasGap s.blob 0 (bufferLen s) ∧ ∃ sa, i = .mhDes sa ∨ i = .hllDes sa

/-- What the step of the command `i` in the state `s` can come to. -/
inductive CommandEnds (i : Instr) (s : State) : StepOutcome → Prop
  /-- NOP. -/
  | nothing (hi : i = .nop) : CommandEnds i s (.next (complete .ok s))
  /-- CLRSTAT (47_control.md R231). -/
  | cleared (hi : i = .clrstat) : CommandEnds i s (.next (complete .ok (clearAccumulated s)))
  /-- The generator hangs (41_permutation.md R131). -/
  | hung (hi : ∃ sa, i = .mhNew sa ∨ i = .mhDes sa) : CommandEnds i s (.next s)
  /-- The command raises an error. -/
  | raised {c : ResultCode} (hc : c ≠ .ok) : CommandEnds i s (.next (complete c s))
  /-- The command writes its slot and calls no `result`. -/
  | slotWritten {n : SlotNo} {x : Slot} (hn : destSlot i = some n) (hr : writesResult i = false) :
      CommandEnds i s (.next (complete .ok (writeSlot n x s)))
  /-- The command calls `result` and writes nothing else. -/
  | resultSet {v0 v1 : Word} (hr : writesResult i = true) : CommandEnds i s (.next (complete .ok (setResult v0 v1 s)))
  /-- A deserializer writes its slot and calls `result`. -/
  | loaded {n : SlotNo} {x : Slot} {v0 v1 : Word} (hn : destSlot i = some n) (hr : writesResult i = true) :
      CommandEnds i s (.next (complete .ok (setResult v0 v1 (writeSlot n x s))))
  /-- A serializer writes the blob of the sketch in its slot and reports its size (46_serdes.md R213, R215). -/
  | stored {size : Nat} {bytes : List Byte} (hr : writesResult i = true) (hsize : size ≤ bufferLen s)
      (hlimit : bufferLen s ≤ s.params.blobBytes)
      (hi : (∃ sa m, i = .mhSer sa ∧ readSlot sa s = .minhash m ∧ size = mhBlobSize m.k ∧ bytes = mhBlob m) ∨
        ∃ sa h, i = .hllSer sa ∧ readSlot sa s = .hll h ∧ size = hllBlobSize h.p ∧ bytes = hllBlob h) :
      CommandEnds i s (.next (complete .ok
        (setResult (BitVec.ofNat 32 size) 0 (setBlob (Memory.writeList s.blob 0 bytes) s))))
  /-- A deserializer reads an unwritten byte of its buffer (20_memory.md R66). -/
  | unwritten (h : LoadsUnwritten s i) : CommandEnds i s (.fault .unwrittenBlobByte)

section

variable {i : Instr} {s : State}

theorem CommandEnds.require {ok : Bool} {c : ResultCode} {k : StepOutcome} (hc : c ≠ .ok)
    (hk : ok = true → CommandEnds i s k) : CommandEnds i s (Machine.require ok c s k) := by
  rcases require_cases ok c s k with ⟨h, e⟩ | ⟨-, e⟩ <;> rw [e]
  · exact hk h
  · exact .raised hc

theorem CommandEnds.onMinHash {n : SlotNo} {k : MinHash → StepOutcome}
    (hk : ∀ m, readSlot n s = .minhash m → CommandEnds i s (k m)) : CommandEnds i s (Machine.onMinHash n s k) := by
  rcases onMinHash_cases n s k with ⟨m, h, e⟩ | ⟨-, e⟩ <;> rw [e]
  · exact hk m h
  · exact .raised nofun

theorem CommandEnds.onHll {n : SlotNo} {k : Hll → StepOutcome}
    (hk : ∀ h, readSlot n s = .hll h → CommandEnds i s (k h)) : CommandEnds i s (Machine.onHll n s k) := by
  rcases onHll_cases n s k with ⟨m, h, e⟩ | ⟨-, e⟩ <;> rw [e]
  · exact hk m h
  · exact .raised nofun

theorem CommandEnds.onHmh {n : SlotNo} {k : Hmh → StepOutcome}
    (hk : ∀ x, readSlot n s = .hmh x → CommandEnds i s (k x)) : CommandEnds i s (Machine.onHmh n s k) := by
  rcases onHmh_cases n s k with ⟨m, h, e⟩ | ⟨-, e⟩ <;> rw [e]
  · exact hk m h
  · exact .raised nofun

theorem CommandEnds.onOneBit {n : SlotNo} {k : OneBit → StepOutcome}
    (hk : ∀ b, readSlot n s = .onebit b → CommandEnds i s (k b)) : CommandEnds i s (Machine.onOneBit n s k) := by
  rcases onOneBit_cases n s k with ⟨m, h, e⟩ | ⟨-, e⟩ <;> rw [e]
  · exact hk m h
  · exact .raised nofun

/-- A deserializer's read of the bytes `[a, b)` of its buffer. -/
theorem CommandEnds.onWritten {α : Type} {v : Option α} {k : α → StepOutcome} {a b : Nat}
    (hv : v = none ↔ HasGap s.blob a b) (hb : b ≤ bufferLen s) (hlimit : bufferLen s ≤ s.params.blobBytes)
    (hi : ∃ sa, i = .mhDes sa ∨ i = .hllDes sa) (hk : ∀ x, CommandEnds i s (k x)) :
    CommandEnds i s (Machine.onWritten v k) := by
  rcases onWritten_cases v k with ⟨x, -, e⟩ | ⟨h, e⟩ <;> rw [e]
  · exact hk x
  · obtain ⟨x, -, hx, hnone⟩ := hv.1 h
    exact .unwritten ⟨hlimit, ⟨x, Nat.zero_le x, by omega, hnone⟩, hi⟩

/-- The precision checks of HLL_NEW and HMH_NEW (44_hyperloglog.md R172). -/
theorem CommandEnds.requirePrecision {p : Nat} {k : StepOutcome} (hk : CommandEnds i s k) :
    CommandEnds i s (Machine.requirePrecision p s k) :=
  .require nofun fun _ => .require nofun fun _ => hk

end

theorem execMhDes_ends (sa : SlotNo) (s : State) : CommandEnds (.mhDes sa) s (execMhDes sa s) := by
  have hi : ∃ sb, Instr.mhDes sa = .mhDes sb ∨ Instr.mhDes sa = .hllDes sb := ⟨sa, .inl rfl⟩
  refine .require nofun fun hlimit => .require nofun fun hlen => ?_
  replace hlimit := of_decide_eq_true hlimit
  replace hlen := of_decide_eq_true hlen
  refine .onWritten memRead_eq_none hlen hlimit hi fun k => .require nofun fun _ => .require nofun fun hsize =>
    .require nofun fun _ => ?_
  replace hsize : 12 + 4 * k ≤ bufferLen s := of_decide_eq_true hsize
  refine .onWritten memRead_eq_none (by omega) hlimit hi fun seed => .onWritten readWords_eq_none hsize hlimit hi
    fun hv => ?_
  split
  · exact .hung ⟨sa, .inr rfl⟩
  · exact .loaded rfl rfl

theorem execHllDes_ends (sa : SlotNo) (s : State) : CommandEnds (.hllDes sa) s (execHllDes sa s) := by
  have hi : ∃ sb, Instr.hllDes sa = .mhDes sb ∨ Instr.hllDes sa = .hllDes sb := ⟨sa, .inr rfl⟩
  refine .require nofun fun hlimit => .require nofun fun hlen => ?_
  replace hlimit := of_decide_eq_true hlimit
  replace hlen := of_decide_eq_true hlen
  refine .onWritten memRead_eq_none hlen hlimit hi fun p => .require nofun fun _ => .require nofun fun hsize =>
    .require nofun fun _ => ?_
  exact .onWritten readList_eq_none (of_decide_eq_true hsize) hlimit hi fun reg => .loaded rfl rfl

/-- Each command's step comes to one of these ends. -/
theorem exec_ends (i : Instr) (s : State) : CommandEnds i s (exec i s) := by
  cases i with
  | nop => exact .nothing rfl
  | clrstat => exact .cleared rfl
  | free sa => exact .slotWritten rfl rfl
  | info sa => exact .resultSet rfl
  | lzc32 => exact .resultSet rfl
  | extract hi lo => exact .require nofun fun _ => .resultSet rfl
  | popcnt32 => exact .resultSet rfl
  | mhPerm sa => exact .onMinHash fun _ _ => .require nofun fun _ => .resultSet rfl
  | mhRdperm sa => exact .onMinHash fun _ _ => .require nofun fun _ => .resultSet rfl
  | mhNew sa =>
    refine .require nofun fun _ => .require nofun fun _ => ?_
    split
    · exact .hung ⟨sa, .inl rfl⟩
    · exact .slotWritten rfl rfl
  | mhDigest sa => exact .onMinHash fun _ _ => .slotWritten rfl rfl
  | mhClear sa => exact .onMinHash fun _ _ => .slotWritten rfl rfl
  | mhMerge sa sb => exact .onMinHash fun _ _ => .onMinHash fun _ _ => .require nofun fun _ => .slotWritten rfl rfl
  | mhAgree mask =>
    refine .require nofun fun _ => ?_
    split
    · exact .raised nofun
    · exact .raised nofun
    · exact .require nofun fun _ => .resultSet rfl
  | mhRdval sa => exact .onMinHash fun _ _ => .require nofun fun _ => .resultSet rfl
  | mhSeed sa =>
    show CommandEnds _ s (execMhSeed sa s)
    unfold execMhSeed
    split
    · exact .resultSet rfl
    · exact .resultSet rfl
    · exact .raised nofun
  | obExport sa sb => exact .onMinHash fun _ _ => .slotWritten rfl rfl
  | obXorpop mask =>
    refine .require nofun fun _ => ?_
    split
    · exact .raised nofun
    · exact .raised nofun
    · exact .require nofun fun _ => .resultSet rfl
  | obRdword sa => exact .onOneBit fun _ _ => .require nofun fun _ => .resultSet rfl
  | hllNew sa p => exact .requirePrecision (.slotWritten rfl rfl)
  | hllDigest sa => exact .onHll fun _ _ => .slotWritten rfl rfl
  | hllClear sa => exact .onHll fun _ _ => .slotWritten rfl rfl
  | hllMerge sa sb => exact .onHll fun _ _ => .onHll fun _ _ => .require nofun fun _ => .slotWritten rfl rfl
  | hllRdreg sa => exact .onHll fun _ _ => .require nofun fun _ => .resultSet rfl
  | hmhNew sa p => exact .requirePrecision (.slotWritten rfl rfl)
  | hmhAdd sa => exact .onHmh fun _ _ => .slotWritten rfl rfl
  | hmhMerge sa sb => exact .onHmh fun _ _ => .onHmh fun _ _ => .require nofun fun _ => .slotWritten rfl rfl
  | hmhAgree sa sb => exact .onHmh fun _ _ => .onHmh fun _ _ => .require nofun fun _ => .resultSet rfl
  | hmhRdreg sa => exact .onHmh fun _ _ => .require nofun fun _ => .resultSet rfl
  | hmhRdmin sa => exact .onHmh fun _ _ => .require nofun fun _ => .resultSet rfl
  | mhSer sa =>
    exact .onMinHash fun m hm => .require nofun fun hlimit => .require nofun fun hsize =>
      .stored rfl (of_decide_eq_true hsize) (of_decide_eq_true hlimit) (.inl ⟨sa, m, rfl, hm, rfl, rfl⟩)
  | mhDes sa => exact execMhDes_ends sa s
  | hllSer sa =>
    exact .onHll fun h hh => .require nofun fun hlimit => .require nofun fun hsize =>
      .stored rfl (of_decide_eq_true hsize) (of_decide_eq_true hlimit) (.inr ⟨sa, h, rfl, hh, rfl, rfl⟩)
  | hllDes sa => exact execHllDes_ends sa s

/-- A command that ends in a next state keeps the registers where it calls no `result`. -/
theorem CommandEnds.regs_eq {i : Instr} {s t : State} (h : CommandEnds i s (.next t)) (hr : writesResult i = false) :
    t.regs = s.regs := by
  cases h with
  | nothing => rfl
  | cleared => rfl
  | hung => rfl
  | raised => rfl
  | slotWritten => rfl
  | resultSet h => exact absurd hr (by simp [h])
  | loaded _ h => exact absurd hr (by simp [h])
  | stored h => exact absurd hr (by simp [h])

/-! ### What stops the machine (00_scope.md R16, 20_memory.md R66) -/

/-- An outcome that is no refusal, and a fault only where `P` holds. -/
def StopsOnlyIf (P : Prop) : StepOutcome → Prop
  | .next _ => True
  | .fault _ => P
  | .refused _ => False

theorem StopsOnlyIf.mono {P Q : Prop} {o : StepOutcome} (h : StopsOnlyIf P o) (hPQ : P → Q) : StopsOnlyIf Q o := by
  cases o with
  | next t => trivial
  | fault f => exact hPQ h
  | refused r => exact h

theorem StopsOnlyIf.ne_refused {P : Prop} {o : StepOutcome} (h : StopsOnlyIf P o) (r : Refusal) :
    o ≠ .refused r := by
  rintro rfl
  exact h

theorem StopsOnlyIf.of_fault {P : Prop} {o : StepOutcome} (h : StopsOnlyIf P o) {f : Fault} (hf : o = .fault f) :
    P := by
  subst hf
  exact h

/-- A host access at `off` reads an unwritten byte below the limit. -/
def ReadsUnwritten (s : State) (off : BitVec 20) (w : Width) : Prop :=
  ∃ a < s.params.blobBytes, Memory.read s.blob a = none ∧ blobBase + a ∈ List.range' off.toNat w.bytes

/-! #### The engine's turn -/

theorem CommandEnds.stops {i : Instr} {s : State} {o : StepOutcome} (h : CommandEnds i s o) :
    StopsOnlyIf (LoadsUnwritten s i) o := by
  cases h with
  | unwritten h => exact h
  | _ => trivial

theorem runCommand_stops (w : Word) (s : State) :
    StopsOnlyIf (∃ i, decode s.params.nslot w = .ok i ∧ LoadsUnwritten s i) (runCommand w s) := by
  cases hd : decode s.params.nslot w with
  | error e =>
    rw [runCommand_illegal hd]
    trivial
  | ok i =>
    rw [runCommand_ok hd]
    exact (exec_ends i s).stops.mono fun h => ⟨i, rfl, h⟩

/-- The pending command is a deserializer whose buffer has an unwritten byte. -/
def PendingLoadsUnwritten (s : State) : Prop :=
  ∃ w, s.pending = some w ∧ ∃ i, decode s.params.nslot w = .ok i ∧ LoadsUnwritten s i

theorem engineTurn_stops (s : State) : StopsOnlyIf (PendingLoadsUnwritten s) (engineTurn s) := by
  unfold engineTurn
  split
  · trivial
  · rename_i w hw
    exact (runCommand_stops w s).mono fun h => ⟨w, hw, h⟩

/-! #### The host's turn -/

theorem busRead_error {off : BitVec 20} {w : Width} {s : State} {f : Fault} (h : busRead off w s = .error f) :
    ReadsUnwritten s off w := by
  unfold busRead at h
  split at h
  · cases h
  · rename_i hoff
    unfold readBlob at h
    split at h
    · rename_i hnone
      obtain ⟨x, hlo, hhi, hx⟩ := blobBytesAt_eq_none.1 hnone
      rw [leBytes_length] at hhi
      exact ⟨x, by omega, hx, List.mem_range'_1.2 (by omega)⟩
    · cases h

theorem hostRead_stops (off : BitVec 20) (w : Width) (s : State) :
    StopsOnlyIf (ReadsUnwritten s off w) (hostRead off w s) := by
  unfold hostRead
  split
  · split
    · rename_i f hf
      exact busRead_error hf
    · trivial
  · trivial

theorem hostWrite_never_stops (off : BitVec 20) (w : Width) (v : Word) (s : State) :
    StopsOnlyIf False (hostWrite off w v s) := by
  unfold hostWrite
  split <;> trivial

/-- The poll loop reads STATUS, which lies below the blob window. -/
theorem poll_reads_no_blob_byte (s : State) : ¬ ReadsUnwritten s statusOffset .word := by
  rintro ⟨a, -, -, ha⟩
  obtain ⟨-, hhi⟩ := List.mem_range'_1.1 ha
  simp only [blobBase, statusOffset, Width.bytes, BitVec.reduceToNat] at hhi
  omega

/-- The host's next access is a read of an unwritten byte below the limit. -/
def NextReadsUnwritten (s : State) : Prop :=
  ∃ off w rest, s.host.prog = .access (.read off w) :: rest ∧ ReadsUnwritten s off w

theorem hostTurn_stops (s : State) : StopsOnlyIf (NextReadsUnwritten s) (hostTurn s) := by
  unfold hostTurn
  split
  · trivial
  · rename_i off w rest hprog
    exact (hostRead_stops off w (setProg rest s)).mono fun h => ⟨off, w, rest, hprog, h⟩
  · exact (hostWrite_never_stops _ _ _ _).mono False.elim
  · exact (hostRead_stops statusOffset .word _).mono fun h => (poll_reads_no_blob_byte _ h).elim

theorem step_stops (s : State) : StopsOnlyIf ((nextAgent s = .host ∧ NextReadsUnwritten s) ∨
    (nextAgent s = .engine ∧ PendingLoadsUnwritten s)) (step s) := by
  unfold step
  split
  · rename_i hnext
    exact (engineTurn_stops (popTurn s)).mono fun h => .inr ⟨hnext, h⟩
  · rename_i hnext
    exact (hostTurn_stops (popTurn s)).mono fun h => .inl ⟨hnext, h⟩

/-! ### The obligations -/

/-- Settles O21: of a command's possible ends, those that write a result register belong to commands that call
`result`. -/
theorem commandsWithoutResultKeepIt : Obligations.CommandsWithoutResultKeepIt := by
  intro s t i h hr
  exact (h ▸ exec_ends i s : CommandEnds i s (.next t)).regs_eq hr

/-- Settles O26: the host's turn stops only at a read of an unwritten byte, the engine's only at a deserializer's. -/
theorem onlyUnwrittenBytesStopTheMachine : Obligations.OnlyUnwrittenBytesStopTheMachine := by
  intro s
  refine ⟨(step_stops s).ne_refused, fun f hf => ?_⟩
  rcases (step_stops s).of_fault hf with
    ⟨hnext, off, w, rest, hprog, a, hlimit, hnone, hrange⟩ |
    ⟨hnext, w, hpend, i, hdec, hlimit, ⟨a, -, hlen, hnone⟩, sa, rfl | rfl⟩
  · exact ⟨a, hlimit, hnone, .inl ⟨hnext, off, w, rest, hprog, hrange⟩⟩
  · exact ⟨a, by omega, hnone, .inr ⟨hnext, hlen, w, sa, hpend, .inl hdec⟩⟩
  · exact ⟨a, by omega, hnone, .inr ⟨hnext, hlen, w, sa, hpend, .inr hdec⟩⟩

end Sys2Proof.Proofs
end

section
/-! PROOFS. The state (10_state.md): the invariant of every reachable state, what a command keeps, the register window,
STATUS and reset. -/

namespace Sys2Proof.Proofs

open Sys2Proof Sys2Proof.Machine Sys2Proof.Claim

/-! ### What a command keeps -/

section

variable {i : Instr} {s t : State}

/-- A command hangs and changes nothing, or completes; what it completes from has the old STATUS, but for CLRSTAT
(10_state.md R27, 41_permutation.md R131). -/
theorem CommandEnds.hangs_or_completes (h : CommandEnds i s (.next t)) :
    ((∃ sa, i = .mhNew sa ∨ i = .mhDes sa) ∧ t = s) ∨
      ∃ c u, t = complete c u ∧ (i ≠ .clrstat → u.status = s.status) := by
  cases h with
  | nothing => exact .inr ⟨_, s, rfl, fun _ => rfl⟩
  | cleared hi => exact .inr ⟨_, clearAccumulated s, rfl, fun hne => absurd hi hne⟩
  | hung hi => exact .inl ⟨hi, rfl⟩
  | raised => exact .inr ⟨_, s, rfl, fun _ => rfl⟩
  | slotWritten => exact .inr ⟨_, writeSlot _ _ s, rfl, fun _ => rfl⟩
  | resultSet => exact .inr ⟨_, setResult _ _ s, rfl, fun _ => rfl⟩
  | loaded => exact .inr ⟨_, setResult _ _ (writeSlot _ _ s), rfl, fun _ => rfl⟩
  | stored => exact .inr ⟨_, setResult _ _ (setBlob _ s), rfl, fun _ => rfl⟩

/-- The operand registers, the parameters and the host's side of `t` are those of `s`. -/
def KeepsOperands (s t : State) : Prop :=
  t.regs = { s.regs with result := t.regs.result, resultHi := t.regs.resultHi } ∧
    t.params = s.params ∧ t.host = s.host

theorem CommandEnds.keepsOperands (h : CommandEnds i s (.next t)) : KeepsOperands s t := by
  cases h <;> exact ⟨rfl, rfl, rfl⟩

theorem runCommand_keepsOperands {w : Word} (h : runCommand w s = .next t) : KeepsOperands s t := by
  cases hd : decode s.params.nslot w with
  | error e =>
    rw [runCommand_illegal hd] at h
    cases h
    exact ⟨rfl, rfl, rfl⟩
  | ok i =>
    rw [runCommand_ok hd] at h
    exact (h ▸ exec_ends i s : CommandEnds i s (.next t)).keepsOperands

/-- A command writes no slot but its destination (10_state.md R36). -/
theorem CommandEnds.slots_eq (h : CommandEnds i s (.next t)) :
    t.slots = s.slots ∨ ∃ n x, destSlot i = some n ∧ t.slots = s.slots.set n.val x := by
  cases h with
  | slotWritten hn => exact .inr ⟨_, _, hn, rfl⟩
  | loaded hn => exact .inr ⟨_, _, hn, rfl⟩
  | _ => exact .inl rfl

/-- What a slot holds has every property that EMPTY and all the slots have. -/
theorem readSlot_of_forall_slots {P : Slot → Prop} (hempty : P .empty) (hslots : ∀ x ∈ s.slots, P x) (n : SlotNo) :
    P (readSlot n s) := by
  unfold readSlot
  rcases Nat.lt_or_ge n.val s.slots.length with hn | hn
  · rw [List.getD_eq_getElem _ _ hn]
    exact hslots _ (List.getElem_mem hn)
  · rwa [List.getD_eq_default _ _ hn]

theorem readSlot_shaped (h : s.slotsShaped) (n : SlotNo) : (readSlot n s).shaped s.params = true :=
  readSlot_of_forall_slots (P := fun x => x.shaped s.params = true) rfl h.2 n

/-- The blob of a MinHash slot has its size (46_serdes.md R211). -/
theorem mhBlob_length {m : MinHash} (h : m.hv.length = m.k) : (mhBlob m).length = mhBlobSize m.k := by
  simp only [mhBlob, mhBlobSize, List.length_append, List.length_flatMap, leBytes_length, List.map_const', h,
    List.sum_replicate_nat]
  omega

/-- The blob of an HLL slot has its size (46_serdes.md R212). -/
theorem hllBlob_length {h : Hll} (hreg : h.reg.length = 2 ^ h.p) : (hllBlob h).length = hllBlobSize h.p := by
  rw [hllBlob, List.length_append, leBytes_length, hreg, hllBlobSize]

/-- A command that changes blob memory is a serializer that completed OK: it wrote as many bytes from address 0 up as
it reports, and these fit blob memory (46_serdes.md R210, R213, R215). -/
theorem CommandEnds.blob_eq (h : CommandEnds i s (.next t)) (hs : s.slotsShaped) :
    t.blob = s.blob ∨ ((∃ sa, i = .mhSer sa ∨ i = .hllSer sa) ∧ t.status.code = .ok ∧
      ∃ bytes : List Byte, t.blob = Memory.writeList s.blob 0 bytes ∧ bytes.length = t.regs.result.toNat ∧
        bytes.length ≤ s.params.blobBytes) := by
  cases h with
  | @stored size bytes _ hsize hlimit hi =>
    have hlen : bytes.length = size := by
      rcases hi with ⟨sa, m, -, hm, rfl, rfl⟩ | ⟨sa, h, -, hh, rfl, rfl⟩
      · have hshape : m.shaped s.params := of_decide_eq_true (hm ▸ readSlot_shaped hs sa :
          (Slot.minhash m).shaped s.params = true)
        exact mhBlob_length hshape.2.2
      · have hshape : h.shaped s.params := of_decide_eq_true (hh ▸ readSlot_shaped hs sa :
          (Slot.hll h).shaped s.params = true)
        exact hllBlob_length hshape.2
    have hword : size < 2 ^ 32 := Nat.lt_of_le_of_lt hsize s.regs.blobLen.isLt
    refine .inr ⟨?_, rfl, bytes, rfl, ?_, by omega⟩
    · rcases hi with ⟨sa, m, hi, -⟩ | ⟨sa, h, hi, -⟩
      · exact ⟨sa, .inl hi⟩
      · exact ⟨sa, .inr hi⟩
    · rw [hlen]
      exact (Nat.mod_eq_of_lt hword).symm
  | _ => exact .inl rfl

end

/-! ### A bucket's two arrays (45_hllminhash.md R191, R192, R196) -/

/-- Below `2 ^ n`, the leading zeros and the bits of the value make up `n`. -/
theorem leadingZerosFrom_add_size {x : Word} {n : Nat} (h : x.toNat < 2 ^ n) :
    leadingZerosFrom x n + x.toNat.size = n := by
  induction n with
  | zero =>
    have hx : x.toNat = 0 := by omega
    simp [leadingZerosFrom, hx]
  | succ n ih =>
    rw [leadingZerosFrom, ← BitVec.testBit_toNat]
    rcases Nat.lt_or_ge x.toNat (2 ^ n) with hx | hx
    · have hsum := ih hx
      rw [Nat.testBit_lt_two_pow hx, if_neg nofun]
      omega
    · have hsize : x.toNat.size = n + 1 := Nat.le_antisymm (Nat.size_le.2 h) (Nat.lt_size.2 hx)
      rw [Nat.testBit_of_two_pow_le_and_two_pow_add_one_gt hx h, if_pos rfl, hsize, Nat.zero_add]

theorem lzc32_add_size (x : Word) : lzc32 x + x.toNat.size = 32 := leadingZerosFrom_add_size x.isLt

/-- The larger word has no more leading zeros. -/
theorem lzc32_anti {x y : Word} (h : x ≤ y) : lzc32 y ≤ lzc32 x := by
  have hsize := Nat.size_le_size (BitVec.le_def.1 h)
  have hx := lzc32_add_size x
  have hy := lzc32_add_size y
  omega

/-- The register value that goes with a bucket's minValue: 0 for the empty bucket's MAXU32, else one more than the
leading zeros (R191, R196). -/
def registerFor (v : Word) : Nat := if v = maxU32 then 0 else lzc32 v + 1

/-- An HMH slot's arrays agree exactly if each register is the one that goes with its minValue. -/
theorem coupled_iff (x : Hmh) :
    x.coupled ↔ ∀ j < 2 ^ x.p, (x.reg.getD j 0).toNat = registerFor (x.minv.getD j 0) := by
  refine forall₂_congr fun j _ => ?_
  unfold registerFor
  split
  · exact BitVec.toNat_inj.symm
  · exact Iff.rfl

/-- The larger minValue goes with the smaller register. -/
theorem registerFor_anti {v w : Word} (h : v ≤ w) : registerFor w ≤ registerFor v := by
  unfold registerFor
  split
  · exact Nat.zero_le _
  · rename_i hw
    have hv : v ≠ maxU32 := by
      rintro rfl
      exact hw (BitVec.le_antisymm (BitVec.le_def.2 (Nat.le_pred_of_lt w.isLt)) h)
    rw [if_neg hv]
    exact Nat.succ_le_succ (lzc32_anti h)

/-- The larger of two registers goes with the smaller of their minValues (R191, R192). -/
theorem umax_toNat_eq_registerFor {r r' : Byte} {v v' : Word} (h : r.toNat = registerFor v)
    (h' : r'.toNat = registerFor v') : (umax r r').toNat = registerFor (umin v v') := by
  unfold umax umin
  by_cases hv : v' < v
  · have hle : r.toNat ≤ r'.toNat := h ▸ h' ▸ registerFor_anti (BitVec.le_of_lt hv)
    rw [if_pos hv]
    split
    · exact h'
    · rename_i hr
      have : r'.toNat ≤ r.toNat := Nat.le_of_not_lt hr
      omega
  · have hle : r'.toNat ≤ r.toNat := h ▸ h' ▸ registerFor_anti (BitVec.not_lt.1 hv)
    rw [if_neg hv, if_neg (BitVec.not_lt.2 (BitVec.le_def.2 hle))]
    exact h

/-- A window is never MAXU32: its lowest bit is 0 (44_hyperloglog.md R171). -/
theorem window_ne_maxU32 (h : Word) {p : Nat} (hp : 2 ≤ p) : window h p ≠ maxU32 := by
  intro he
  have hbit : (window h p).getLsbD 0 = true := by rw [he]; decide
  have hp0 : 0 < p := by omega
  have hp1 : ¬ p - 1 = 0 := by omega
  simp [window, hp0] at hbit
  omega

/-- The register value of a hash goes with its window (R191). -/
theorem rho_toNat_eq_registerFor (h : Word) {p : Nat} (hp : 2 ≤ p) : (rho h p).toNat = registerFor (window h p) := by
  have hlzc := lzc32_add_size (window h p)
  rw [registerFor, if_neg (window_ne_maxU32 h hp), rho, BitVec.toNat_ofNat]
  omega

theorem getD_set {α : Type} {l : List α} {n j : Nat} {x d : α} (hj : j < l.length) :
    (l.set n x).getD j d = if j = n then x else l.getD j d := by
  rw [List.getD_eq_getElem _ _ (by simpa using hj), List.getD_eq_getElem _ _ hj, List.getElem_set]
  simp only [eq_comm]

theorem getD_zipWith {α : Type} {f : α → α → α} {l l' : List α} {j : Nat} {d : α} (h : j < l.length)
    (h' : j < l'.length) : (List.zipWith f l l').getD j d = f (l.getD j d) (l'.getD j d) := by
  rw [List.getD_eq_getElem _ _ (by simp; omega), List.getD_eq_getElem _ _ h, List.getD_eq_getElem _ _ h',
    List.getElem_zipWith]

theorem freshHmh_coupled (p : Nat) : (freshHmh p).coupled := by
  rw [coupled_iff]
  intro j hj
  replace hj : j < 2 ^ p := hj
  simp [freshHmh, List.getD_eq_getElem?_getD, hj, registerFor]

theorem addHash_coupled {x : Hmh} {h : Word} (hp : 2 ≤ x.p) (hreg : x.reg.length = 2 ^ x.p)
    (hminv : x.minv.length = 2 ^ x.p) (hx : x.coupled) : (addHash x h).coupled := by
  rw [coupled_iff] at hx ⊢
  intro j hj
  replace hj : j < 2 ^ x.p := hj
  simp only [addHash, digestRegisters]
  rw [getD_set (hreg ▸ hj), getD_set (hminv ▸ hj)]
  split
  · subst_vars
    exact umax_toNat_eq_registerFor (hx _ hj) (rho_toNat_eq_registerFor h hp)
  · exact hx j hj

theorem mergeHmh_coupled {x y : Hmh} (hp : x.p = y.p) (hxr : x.reg.length = 2 ^ x.p) (hxm : x.minv.length = 2 ^ x.p)
    (hyr : y.reg.length = 2 ^ y.p) (hym : y.minv.length = 2 ^ y.p) (hx : x.coupled) (hy : y.coupled) :
    ({ x with reg := List.zipWith umax x.reg y.reg, minv := List.zipWith umin x.minv y.minv } : Hmh).coupled := by
  rw [coupled_iff] at hx hy ⊢
  intro j hj
  replace hj : j < 2 ^ x.p := hj
  have hjy : j < 2 ^ y.p := hp ▸ hj
  show ((List.zipWith umax x.reg y.reg).getD j 0).toNat = registerFor ((List.zipWith umin x.minv y.minv).getD j 0)
  rw [getD_zipWith (hxr ▸ hj) (hyr ▸ hjy), getD_zipWith (hxm ▸ hj) (hym ▸ hjy)]
  exact umax_toNat_eq_registerFor (hx j hj) (hy j hjy)

/-! ### Generated permutations (41_permutation.md R131) -/

theorem drawNonzero_ne_zero {g : Prng} {fuel : Nat} {st st' : BitVec g.stateBits} {a : Word}
    (h : drawNonzero g fuel st = some (a, st')) : a ≠ 0 := by
  induction fuel generalizing st with
  | zero => cases h
  | succ fuel ih =>
    simp only [drawNonzero] at h
    split at h
    · rename_i hne
      cases h
      exact hne
    · exact ih h

/-- A generated list has its length, and no `a` is 0. -/
theorem genPerms_spec {g : Prng} {k : Nat} {st : BitVec g.stateBits} {l : List (Word × Word)}
    (h : genPerms g k st = some l) : l.length = k ∧ ∀ ab ∈ l, ab.1 ≠ 0 := by
  induction k generalizing st l with
  | zero =>
    cases h
    exact ⟨rfl, nofun⟩
  | succ k ih =>
    simp only [genPerms] at h
    split at h
    · cases h
    · rename_i a st1 hdraw
      split at h
      · cases h
      · rename_i rest hrest
        cases h
        obtain ⟨hlen, hne⟩ := ih hrest
        exact ⟨by simp [hlen], List.forall_mem_cons.2 ⟨drawNonzero_ne_zero hdraw, hne⟩⟩

/-! ### What a slot may hold (10_state.md R31 to R34) -/

/-- What a slot holds meets the invariant: the sizes of its kind, and the rest that a slot keeps. -/
def SlotWf (p : Params) (x : Slot) : Prop := x.shaped p = true ∧ x.consistent

section

variable {p : Params}

theorem slotWf_minhash {m : MinHash} : SlotWf p (.minhash m) ↔
    (1 ≤ m.k ∧ m.k ≤ p.kmax) ∧ m.hv.length = m.k ∧ permGen Config.prng m.seed m.k = some m.perm := by
  simp only [SlotWf, Slot.shaped, Slot.consistent, decide_eq_true_eq]
  constructor
  · rintro ⟨⟨hk, -, hhv⟩, -, hperm⟩
    exact ⟨hk, hhv, hperm⟩
  · rintro ⟨hk, hhv, hperm⟩
    obtain ⟨hlen, hne⟩ := genPerms_spec hperm
    exact ⟨⟨hk, hlen, hhv⟩, hne, hperm⟩

theorem slotWf_hll {h : Hll} : SlotWf p (.hll h) ↔ (4 ≤ h.p ∧ h.p ≤ p.pmax) ∧ h.reg.length = 2 ^ h.p := by
  simp [SlotWf, Slot.shaped, Slot.consistent]

theorem slotWf_hmh {x : Hmh} : SlotWf p (.hmh x) ↔
    ((4 ≤ x.p ∧ x.p ≤ p.pmax) ∧ x.reg.length = 2 ^ x.p ∧ x.minv.length = 2 ^ x.p) ∧ x.coupled := by
  simp only [SlotWf, Slot.shaped, Slot.consistent, decide_eq_true_eq]

/-- A fresh signature of a legal `k` (42_minhash.md R140, R142). -/
theorem slotWf_freshMinHash {seed : Seed} {k : Nat} {perm : List (Word × Word)} (hk : 1 ≤ k ∧ k ≤ p.kmax)
    (hperm : permGen Config.prng seed k = some perm) : SlotWf p (.minhash (freshMinHash seed k perm)) :=
  slotWf_minhash.2 ⟨hk, List.length_replicate, hperm⟩

theorem digestValues_length {perms : List (Word × Word)} {hv : List Word} (h : Word)
    (hlen : perms.length = hv.length) : (digestValues perms hv h).length = hv.length := by
  simp [digestValues, hlen]

theorem SlotWf.digest {m : MinHash} (hm : SlotWf p (.minhash m)) (h : Word) :
    SlotWf p (.minhash { m with hv := digestValues m.perm m.hv h }) := by
  obtain ⟨hk, hhv, hperm⟩ := slotWf_minhash.1 hm
  have hlen : m.perm.length = m.hv.length := (genPerms_spec hperm).1.trans hhv.symm
  exact slotWf_minhash.2 ⟨hk, (digestValues_length h hlen).trans hhv, hperm⟩

theorem SlotWf.mergeMinHash {d o : MinHash} (hd : SlotWf p (.minhash d)) (ho : SlotWf p (.minhash o))
    (hk : d.k = o.k) : SlotWf p (.minhash { d with hv := List.zipWith umin d.hv o.hv }) := by
  obtain ⟨hkd, hhvd, hperm⟩ := slotWf_minhash.1 hd
  obtain ⟨-, hhvo, -⟩ := slotWf_minhash.1 ho
  exact slotWf_minhash.2 ⟨hkd, by simp [hhvd, hhvo, hk], hperm⟩

/-- OB_EXPORT keeps the sizes within the one-bit cap (43_onebit.md R160). -/
theorem SlotWf.exportOneBit {m : MinHash} (hm : SlotWf p (.minhash m)) :
    SlotWf p (.onebit (Machine.exportOneBit m)) := by
  obtain ⟨hk, hhv, -⟩ := slotWf_minhash.1 hm
  refine ⟨decide_eq_true ⟨?_, ?_⟩, trivial⟩
  · show 1 ≤ min m.k 128 ∧ min m.k 128 ≤ min p.kmax 128
    omega
  · simp [Machine.exportOneBit, hhv]

theorem digestRegisters_length (n : Nat) (reg : List Byte) (h : Word) :
    (digestRegisters n reg h).length = reg.length := List.length_set

theorem slotWf_freshHll {n : Nat} (hn : 4 ≤ n ∧ n ≤ p.pmax) : SlotWf p (.hll (freshHll n)) :=
  slotWf_hll.2 ⟨hn, List.length_replicate⟩

theorem SlotWf.digestHll {x : Hll} (hx : SlotWf p (.hll x)) (h : Word) :
    SlotWf p (.hll { x with reg := digestRegisters x.p x.reg h }) := by
  obtain ⟨hp, hreg⟩ := slotWf_hll.1 hx
  exact slotWf_hll.2 ⟨hp, (digestRegisters_length _ _ _).trans hreg⟩

theorem SlotWf.mergeHll {d o : Hll} (hd : SlotWf p (.hll d)) (ho : SlotWf p (.hll o)) (hp : d.p = o.p) :
    SlotWf p (.hll { d with reg := List.zipWith umax d.reg o.reg }) := by
  obtain ⟨hpd, hregd⟩ := slotWf_hll.1 hd
  obtain ⟨-, hrego⟩ := slotWf_hll.1 ho
  exact slotWf_hll.2 ⟨hpd, by simp [hregd, hrego, hp]⟩

theorem slotWf_freshHmh {n : Nat} (hn : 4 ≤ n ∧ n ≤ p.pmax) : SlotWf p (.hmh (freshHmh n)) :=
  slotWf_hmh.2 ⟨⟨hn, List.length_replicate, List.length_replicate⟩, freshHmh_coupled n⟩

theorem SlotWf.addHash {x : Hmh} (hx : SlotWf p (.hmh x)) (h : Word) : SlotWf p (.hmh (Machine.addHash x h)) := by
  obtain ⟨⟨hp, hreg, hminv⟩, hcoupled⟩ := slotWf_hmh.1 hx
  exact slotWf_hmh.2 ⟨⟨hp, (digestRegisters_length _ _ _).trans hreg, List.length_set.trans hminv⟩,
    addHash_coupled (by omega) hreg hminv hcoupled⟩

theorem SlotWf.mergeHmh {d o : Hmh} (hd : SlotWf p (.hmh d)) (ho : SlotWf p (.hmh o)) (hp : d.p = o.p) :
    SlotWf p (.hmh { d with reg := List.zipWith umax d.reg o.reg, minv := List.zipWith umin d.minv o.minv }) := by
  obtain ⟨⟨hpd, hregd, hminvd⟩, hcd⟩ := slotWf_hmh.1 hd
  obtain ⟨⟨-, hrego, hminvo⟩, hco⟩ := slotWf_hmh.1 ho
  exact slotWf_hmh.2 ⟨⟨hpd, by simp [hregd, hrego, hp], by simp [hminvd, hminvo, hp]⟩,
    mergeHmh_coupled hp hregd hminvd hrego hminvo hcd hco⟩

end

/-! ### What a command stores in its slot -/

/-- An outcome keeps the slots, or writes one of them with something that meets the invariant. -/
def StoresWf (s : State) (o : StepOutcome) : Prop :=
  ∀ t, o = .next t → t.slots = s.slots ∨ ∃ n x, SlotWf s.params x ∧ t.slots = s.slots.set n x

section

variable {s t : State}

theorem StoresWf.of_same (h : t.slots = s.slots) : StoresWf s (.next t) := by
  rintro _ ⟨⟩
  exact .inl h

theorem StoresWf.slot {n : SlotNo} {x : Slot} (hx : SlotWf s.params x) : StoresWf s (finish (writeSlot n x s)) := by
  rintro _ ⟨⟩
  exact .inr ⟨n, x, hx, rfl⟩

theorem StoresWf.slotAndResult {n : SlotNo} {x : Slot} {v0 v1 : Word} (hx : SlotWf s.params x) :
    StoresWf s (finish (setResult v0 v1 (writeSlot n x s))) := by
  rintro _ ⟨⟩
  exact .inr ⟨n, x, hx, rfl⟩

theorem StoresWf.require {ok : Bool} {c : ResultCode} {k : StepOutcome} (hk : ok = true → StoresWf s k) :
    StoresWf s (Machine.require ok c s k) := by
  rcases require_cases ok c s k with ⟨h, e⟩ | ⟨-, e⟩ <;> rw [e]
  · exact hk h
  · exact .of_same rfl

theorem StoresWf.onWritten {α : Type} {v : Option α} {k : α → StepOutcome}
    (hk : ∀ x, v = some x → StoresWf s (k x)) : StoresWf s (Machine.onWritten v k) := by
  rcases onWritten_cases v k with ⟨x, h, e⟩ | ⟨-, e⟩ <;> rw [e]
  · exact hk x h
  · exact nofun

/-- The precision checks of HLL_NEW and HMH_NEW (44_hyperloglog.md R172). -/
theorem StoresWf.requirePrecision {p : Nat} {k : StepOutcome} (hk : 4 ≤ p ∧ p ≤ s.params.pmax → StoresWf s k) :
    StoresWf s (Machine.requirePrecision p s k) :=
  .require fun hrange => .require fun hmax =>
    hk ⟨of_decide_eq_true (Bool.and_eq_true_iff.1 hrange).1, of_decide_eq_true hmax⟩

variable (hs : ∀ n, SlotWf s.params (readSlot n s))
include hs

theorem StoresWf.onMinHash {n : SlotNo} {k : MinHash → StepOutcome}
    (hk : ∀ m, SlotWf s.params (.minhash m) → StoresWf s (k m)) : StoresWf s (Machine.onMinHash n s k) := by
  rcases onMinHash_cases n s k with ⟨m, h, e⟩ | ⟨-, e⟩ <;> rw [e]
  · exact hk m (h ▸ hs n)
  · exact .of_same rfl

theorem StoresWf.onHll {n : SlotNo} {k : Hll → StepOutcome}
    (hk : ∀ h, SlotWf s.params (.hll h) → StoresWf s (k h)) : StoresWf s (Machine.onHll n s k) := by
  rcases onHll_cases n s k with ⟨m, h, e⟩ | ⟨-, e⟩ <;> rw [e]
  · exact hk m (h ▸ hs n)
  · exact .of_same rfl

theorem StoresWf.onHmh {n : SlotNo} {k : Hmh → StepOutcome}
    (hk : ∀ x, SlotWf s.params (.hmh x) → StoresWf s (k x)) : StoresWf s (Machine.onHmh n s k) := by
  rcases onHmh_cases n s k with ⟨m, h, e⟩ | ⟨-, e⟩ <;> rw [e]
  · exact hk m (h ▸ hs n)
  · exact .of_same rfl

end

/-- A command that writes no slot. -/
theorem StoresWf.of_no_destSlot {i : Instr} {s : State} (hi : destSlot i = none) : StoresWf s (exec i s) := by
  intro t h
  rcases (h ▸ exec_ends i s : CommandEnds i s (.next t)).slots_eq with hsame | ⟨n, x, hn, -⟩
  · exact .inl hsame
  · cases hi.symm.trans hn

theorem readWords_length {m : Memory} {a n : Nat} {ws : List Word} (h : readWords m a n = some ws) :
    ws.length = n := by
  induction n generalizing a ws with
  | zero =>
    cases h
    rfl
  | succ n ih =>
    simp only [readWords] at h
    split at h
    · rename_i hrest
      cases h
      simp [ih hrest]
    · cases h

theorem execMhNew_storesWf (sa : SlotNo) (s : State) : StoresWf s (execMhNew sa s) := by
  refine .require fun hpos => .require fun hmax => ?_
  replace hpos : 0 < kOperand s := of_decide_eq_true hpos
  replace hmax : kOperand s ≤ s.params.kmax := of_decide_eq_true hmax
  split
  · exact .of_same rfl
  · rename_i perm hperm
    exact .slot (slotWf_freshMinHash (by omega) hperm)

theorem execMhDes_storesWf (sa : SlotNo) (s : State) : StoresWf s (execMhDes sa s) := by
  refine .require fun _ => .require fun _ => .onWritten fun k _ => .require fun hpos => .require fun _ =>
    .require fun hmax => .onWritten fun seed _ => .onWritten fun hv hwords => ?_
  replace hpos : k ≠ 0 := of_decide_eq_true hpos
  replace hmax : k ≤ s.params.kmax := of_decide_eq_true hmax
  split
  · exact .of_same rfl
  · rename_i perm hperm
    exact .slotAndResult (slotWf_minhash.2 ⟨⟨Nat.pos_of_ne_zero hpos, hmax⟩, readWords_length hwords, hperm⟩)

theorem execHllDes_storesWf (sa : SlotNo) (s : State) : StoresWf s (execHllDes sa s) := by
  refine .require fun _ => .require fun _ => .onWritten fun p _ => .require fun hrange => .require fun _ =>
    .require fun hmax => .onWritten fun reg hreg => .slotAndResult (slotWf_hll.2 ⟨⟨?_, of_decide_eq_true hmax⟩, ?_⟩)
  · exact of_decide_eq_true (Bool.and_eq_true_iff.1 hrange).1
  · exact ((Memory.readList_eq_some _ _ _ _).1 hreg).1

/-- Where every slot meets the invariant, so does what a command writes. -/
theorem exec_storesWf {s : State} (hs : ∀ n, SlotWf s.params (readSlot n s)) (i : Instr) :
    StoresWf s (exec i s) := by
  cases i with
  | free sa => exact .slot ⟨rfl, trivial⟩
  | mhNew sa => exact execMhNew_storesWf sa s
  | mhDigest sa => exact .onMinHash hs fun _ hm => .slot (hm.digest _)
  | mhClear sa =>
    refine .onMinHash hs fun m hm => .slot ?_
    obtain ⟨hk, -, hperm⟩ := slotWf_minhash.1 hm
    exact slotWf_freshMinHash hk hperm
  | mhMerge sa sb =>
    exact .onMinHash hs fun _ hd => .onMinHash hs fun _ ho => .require fun hc =>
      .slot (hd.mergeMinHash ho (beq_iff_eq.1 (Bool.and_eq_true_iff.1 hc).2))
  | obExport sa sb => exact .onMinHash hs fun _ hm => .slot hm.exportOneBit
  | hllNew sa p => exact .requirePrecision fun hp => .slot (slotWf_freshHll hp)
  | hllDigest sa => exact .onHll hs fun _ hx => .slot (hx.digestHll _)
  | hllClear sa => exact .onHll hs fun _ hx => .slot (slotWf_freshHll (slotWf_hll.1 hx).1)
  | hllMerge sa sb =>
    exact .onHll hs fun _ hd => .onHll hs fun _ ho => .require fun hc => .slot (hd.mergeHll ho (beq_iff_eq.1 hc))
  | hmhNew sa p => exact .requirePrecision fun hp => .slot (slotWf_freshHmh hp)
  | hmhAdd sa => exact .onHmh hs fun _ hx => .slot (hx.addHash _)
  | hmhMerge sa sb =>
    exact .onHmh hs fun _ hd => .onHmh hs fun _ ho => .require fun hc => .slot (hd.mergeHmh ho (beq_iff_eq.1 hc))
  | mhDes sa => exact execMhDes_storesWf sa s
  | hllDes sa => exact execHllDes_storesWf sa s
  | _ => exact .of_no_destSlot rfl

/-! ### The engine keeps the invariant -/

section

variable {s t : State}

/-- The invariant, slot by slot. -/
theorem inv_iff : s.Inv ↔ s.params.wf ∧ s.slots.length = s.params.nslot ∧ (∀ x ∈ s.slots, SlotWf s.params x) ∧
    s.blobWf ∧ s.statusWf := by
  constructor
  · rintro ⟨hparams, ⟨hlen, hshaped⟩, hsketches, hblob, hstatus⟩
    exact ⟨hparams, hlen, fun x hx => ⟨hshaped x hx, hsketches x hx⟩, hblob, hstatus⟩
  · rintro ⟨hparams, hlen, hslots, hblob, hstatus⟩
    exact ⟨hparams, ⟨hlen, fun x hx => (hslots x hx).1⟩, fun x hx => (hslots x hx).2, hblob, hstatus⟩

/-- Whatever it completes from, a completion leaves STATUS and the pending command consistent (10_state.md R27, R39). -/
theorem complete_statusWf (c : ResultCode) (s : State) : (complete c s).statusWf :=
  ⟨rfl, rfl, fun herr => Bool.or_eq_true_iff.2 (.inr herr), nofun⟩

theorem complete_inv (c : ResultCode) (h : s.Inv) : (complete c s).Inv :=
  ⟨h.params, h.slots, h.sketches, h.blob, complete_statusWf c s⟩

/-- Bytes written below the limit leave blob memory canonical and within it (10_state.md R38). -/
theorem writeList_blobWf {m : Memory} {a limit : Nat} {vs : List Byte}
    (hm : Memory.wf m = true ∧ ∀ c ∈ m, c.1 < limit) (hlimit : ∀ x, a ≤ x → x < a + vs.length → x < limit) :
    Memory.wf (Memory.writeList m a vs) = true ∧ ∀ c ∈ Memory.writeList m a vs, c.1 < limit := by
  obtain ⟨hwf, hold⟩ := hm
  refine ⟨Memory.writeList_wf a vs hwf, fun c hc => ?_⟩
  rcases Memory.mem_writeList hc with ⟨hlo, hhi⟩ | hc
  · exact hlimit _ hlo hhi
  · exact hold c hc

theorem exec_inv {i : Instr} (h : s.Inv) (he : exec i s = .next t) : t.Inv := by
  have hends : CommandEnds i s (.next t) := he ▸ exec_ends i s
  obtain ⟨-, hparams, -⟩ := hends.keepsOperands
  obtain ⟨hwf, hlen, hslots, hblob, hstatus⟩ := inv_iff.1 h
  have hheld : ∀ n, SlotWf s.params (readSlot n s) := readSlot_of_forall_slots ⟨rfl, trivial⟩ hslots
  refine inv_iff.2 ⟨hparams ▸ hwf, ?_, ?_, ?_, ?_⟩
  · rcases hends.slots_eq with e | ⟨n, x, -, e⟩
    · rw [e, hparams, hlen]
    · rw [e, List.length_set, hparams, hlen]
  · rw [hparams]
    rcases exec_storesWf hheld i t he with e | ⟨n, x, hx, e⟩ <;> rw [e]
    · exact hslots
    · intro y hy
      rcases List.mem_or_eq_of_mem_set hy with hy | rfl
      · exact hslots y hy
      · exact hx
  · unfold State.blobWf
    rw [hparams]
    rcases hends.blob_eq h.slots with e | ⟨-, -, bytes, e, -, hfits⟩ <;> rw [e]
    · exact hblob
    · exact writeList_blobWf hblob fun x _ hx => by omega
  · rcases hends.hangs_or_completes with ⟨-, rfl⟩ | ⟨c, u, rfl, -⟩
    · exact hstatus
    · exact complete_statusWf c u

theorem engineTurn_inv (h : s.Inv) (ht : engineTurn s = .next t) : t.Inv := by
  unfold engineTurn at ht
  split at ht
  · cases ht
    exact h
  · rename_i w _
    cases hd : decode s.params.nslot w with
    | error e =>
      rw [runCommand_illegal hd] at ht
      cases ht
      exact complete_inv _ h
    | ok i =>
      rw [runCommand_ok hd] at ht
      exact exec_inv h ht

/-! ### The host keeps the invariant -/

/-- The invariant says nothing of the host's side and of the counter of free values. -/
theorem inv_with_draws_host (h : s.Inv) (draws : Nat) (host : HostSide) :
    ({ s with draws := draws, host := host } : State).Inv :=
  ⟨h.params, h.slots, h.sketches, h.blob, h.status⟩

theorem openRead_frame (v : Word) (s : State) : ∃ draws, (openRead v s).2 = { s with draws := draws } := by
  unfold openRead
  split
  · exact ⟨_, rfl⟩
  · exact ⟨s.draws, rfl⟩

theorem readRegister_frame (off : Nat) (s : State) :
    ∃ draws, (readRegister off s).2 = { s with draws := draws } := by
  unfold readRegister
  split
  any_goals exact ⟨s.draws, rfl⟩
  all_goals exact openRead_frame _ s

theorem readBlob_frame {a n : Nat} {v : Word} (h : readBlob a n s = .ok (v, t)) :
    ∃ draws, t = { s with draws := draws } := by
  unfold readBlob at h
  split at h
  · cases h
  · obtain rfl : (if s.status.busy then { s with draws := s.draws + 1 } else s) = t := by cases h; rfl
    split
    · exact ⟨_, rfl⟩
    · exact ⟨s.draws, rfl⟩

/-- No read has a side effect but on the host's record and the counter of free values (20_memory.md R67). -/
theorem hostRead_frame {off : BitVec 20} {w : Width} (h : hostRead off w s = .next t) :
    ∃ draws host, t = { s with draws := draws, host := host } := by
  unfold hostRead at h
  split at h
  · split at h
    · cases h
    · rename_i v s' hread
      obtain rfl : record (.read off w) (.data v) s' = t := by injection h
      have hframe : ∃ draws, s' = { s with draws := draws } := by
        unfold busRead at hread
        split at hread
        · obtain rfl : (readRegister off.toNat s).2 = s' := by injection hread with e; rw [e]
          exact readRegister_frame _ s
        · exact readBlob_frame hread
      obtain ⟨draws, rfl⟩ := hframe
      exact ⟨draws, _, rfl⟩
  · cases h
    exact ⟨s.draws, _, rfl⟩

theorem hostRead_inv {off : BitVec 20} {w : Width} (h : s.Inv) (ht : hostRead off w s = .next t) : t.Inv := by
  obtain ⟨draws, host, rfl⟩ := hostRead_frame ht
  exact inv_with_draws_host h draws host

theorem ignoreWrite_inv (h : s.Inv) (hbusy : s.status.busy = true) : (ignoreWrite s).Inv := by
  obtain ⟨hpending, herr, hsticky, -⟩ := h.status
  exact ⟨h.params, h.slots, h.sketches, h.blob, hpending, herr, hsticky, fun _ => ⟨hbusy, rfl⟩⟩

theorem acceptCommand_inv (w : Word) (h : s.Inv) : (acceptCommand w s).Inv := by
  obtain ⟨-, herr, hsticky, -⟩ := h.status
  exact ⟨h.params, h.slots, h.sketches, h.blob, rfl, herr, hsticky, nofun⟩

theorem inv_with_regs (h : s.Inv) (regs : Regs) : ({ s with regs := regs } : State).Inv :=
  ⟨h.params, h.slots, h.sketches, h.blob, h.status⟩

theorem writeRegister_inv (off : Nat) (v : Word) (h : s.Inv) : (writeRegister off v s).Inv := by
  unfold writeRegister
  split
  · exact acceptCommand_inv v h
  all_goals exact inv_with_regs h _

theorem writeBlob_inv (a n : Nat) (v : Word) (h : s.Inv) : (writeBlob a n v s).Inv := by
  refine ⟨h.params, h.slots, h.sketches, ?_, h.status⟩
  refine writeList_blobWf h.blob fun x hlo hhi => ?_
  rw [List.length_take] at hhi
  show x < s.params.blobBytes
  omega

theorem busWrite_inv (off : BitVec 20) (w : Width) (v : Word) (h : s.Inv) : (busWrite off w v s).Inv := by
  unfold busWrite
  split
  · rename_i hbusy
    exact ignoreWrite_inv h hbusy
  · split
    · exact writeRegister_inv _ v h
    · exact writeBlob_inv _ _ v h

theorem hostWrite_inv {off : BitVec 20} {w : Width} {v : Word} (h : s.Inv) (ht : hostWrite off w v s = .next t) :
    t.Inv := by
  unfold hostWrite at ht
  split at ht
  · cases ht
    exact inv_with_draws_host (busWrite_inv off w v h) _ _
  · cases ht
    exact inv_with_draws_host h _ _

theorem hostTurn_inv (h : s.Inv) (ht : hostTurn s = .next t) : t.Inv := by
  have hprog (prog : List HostOp) : (setProg prog s).Inv := inv_with_draws_host h _ _
  unfold hostTurn at ht
  split at ht
  · cases ht
    exact h
  · exact hostRead_inv (hprog _) ht
  · exact hostWrite_inv (hprog _) ht
  · split at ht
    · exact hostRead_inv h ht
    · exact hostRead_inv (hprog _) ht

theorem step_inv (h : s.Inv) (ht : step s = .next t) : t.Inv := by
  have hpop : (popTurn s).Inv := inv_with_draws_host h _ _
  unfold step at ht
  split at ht
  · exact engineTurn_inv hpop ht
  · exact hostTurn_inv hpop ht

end

/-! ### The register window (10_state.md R20 to R24, 20_memory.md R61) -/

section

variable {off : BitVec 20} {s : State}

/-- A 4-byte access at a multiple of 4 below the blob window is legal (20_memory.md R63). -/
theorem legalAccess_register (hlow : off.toNat < blobBase) (halign : off.toNat % 4 = 0) :
    legalAccess off .word = true := by
  simp [legalAccess, hlow, halign]

theorem hostRead_register (hlow : off.toNat < blobBase) (halign : off.toNat % 4 = 0) :
    hostRead off .word s = .next (record (.read off .word) (.data (readRegister off.toNat s).1)
      (readRegister off.toNat s).2) := by
  rw [hostRead, if_pos (legalAccess_register hlow halign), busRead, if_pos hlow]

theorem hostWrite_register (hlow : off.toNat < blobBase) (halign : off.toNat % 4 = 0) (hidle : s.status.busy = false)
    (v : Word) :
    hostWrite off .word v s = .next (record (.write off .word v) .done (writeRegister off.toNat v s)) := by
  rw [hostWrite, if_pos (legalAccess_register hlow halign), busWrite, if_neg (by simp [hidle]), if_pos hlow]

/-- While BUSY = 1 a legal write is ignored and sets OVR (70_reset_and_hazards.md R310). -/
theorem hostWrite_busy {w : Width} (hlegal : legalAccess off w = true) (hbusy : s.status.busy = true) (v : Word) :
    hostWrite off w v s = .next (record (.write off w v) .done (ignoreWrite s)) := by
  rw [hostWrite, if_pos hlegal, busWrite, if_pos hbusy]

theorem openRead_idle (v : Word) (hidle : s.status.busy = false) : openRead v s = (v, s) := by
  rw [openRead, if_neg (by simp [hidle])]

/-- An offset above RESULT_HI is reserved and reads 0 (R20). -/
theorem readRegister_reserved {n : Nat} (hn : 0x034 ≤ n) (s : State) : readRegister n s = (0, s) := by
  unfold readRegister
  split
  any_goals omega
  rfl

/-- A write to a read-only register or a reserved offset is ignored (R21, 20_memory.md R61). -/
theorem writeRegister_readOnly {n : Nat} (hn : n ≤ 0x00C ∨ n = 0x014 ∨ 0x02C ≤ n) (v : Word) (s : State) :
    writeRegister n v s = s := by
  unfold writeRegister
  split
  any_goals omega
  rfl

end

/-! ### Fields of a word -/

theorem bits_eq (w : Word) (lo n : Nat) : bits w lo n = w.toNat / 2 ^ lo % 2 ^ n := by
  rw [bits, BitVec.extractLsb'_toNat, Nat.shiftRight_eq_div_pow]

theorem getLsbD_eq (w : Word) (i : Nat) : w.getLsbD i = decide (w.toNat / 2 ^ i % 2 = 1) := by
  rw [← BitVec.testBit_toNat, Nat.testBit_eq_decide_div_mod_eq]

theorem bitAt_eq (b : Bool) (n : Nat) : bitAt b n = b.toNat * 2 ^ n := by
  cases b <;> simp [bitAt]

/-- CAP0's number: NSLOT below PMAX, each in its byte (R23). -/
theorem cap0_toNat {p : Params} (h : p.wf) : (cap0 p).toNat = p.nslot + p.pmax * 2 ^ 8 := by
  obtain ⟨hnslot, -, hpmax, -⟩ := h
  rw [cap0, BitVec.toNat_ofNat]
  omega

/-- STATUS as a number: the fields at their places (R26). -/
theorem statusWord_toNat (st : Status) : (statusWord st).toNat =
    st.busy.toNat + 2 * st.err.toNat + 4 * st.sticky.toNat + 8 * st.ovr.toNat + 256 * st.code.toNat := by
  have hcode : st.code.toNat ≤ 10 := by cases st.code <;> decide
  have hbusy := st.busy.toNat_le
  have herr := st.err.toNat_le
  have hsticky := st.sticky.toNat_le
  have hovr := st.ovr.toNat_le
  rw [statusWord, BitVec.toNat_ofNat]
  simp only [bitAt_eq]
  omega

/-! ### The obligations -/

/-- Settles O23: a step is the engine's turn or the host's, and either keeps the invariant. -/
theorem everyStepKeepsTheInvariant : Obligations.EveryStepKeepsTheInvariant :=
  fun _ _ => step_inv

/-- Settles O16: a command that does not hang completes. -/
theorem completionUpdatesStatus : Obligations.CompletionUpdatesStatus := by
  intro s t i h
  rcases (h ▸ exec_ends i s : CommandEnds i s (.next t)).hangs_or_completes with hhung | ⟨c, u, rfl, hu⟩
  · exact .inl hhung
  · refine .inr ⟨rfl, rfl, rfl, fun hi => ?_⟩
    simp [hu hi]

/-- Settles O18: every end of a command, and the completion of an Illegal word, keeps them. -/
theorem engineKeepsOperandsAndParameters : Obligations.EngineKeepsOperandsAndParameters :=
  fun _ _ _ => runCommand_keepsOperands

/-- Settles O19: a command's end writes the destination slot or none. -/
theorem commandsWriteAtMostTheirSlot : Obligations.CommandsWriteAtMostTheirSlot := by
  intro s t i n h hn
  rcases (h ▸ exec_ends i s : CommandEnds i s (.next t)).slots_eq with e | ⟨m, x, hm, e⟩
  · exact readSlot_congr e n
  · have hne : n ≠ m := by
      rintro rfl
      exact hn hm
    rw [readSlot_congr (s := writeSlot m x s) e n, readSlot_writeSlot_other x s hne]

/-- Settles O20: only a serializer's end writes blob memory, from address 0 up and as many bytes as it reports. -/
theorem onlySerializersWriteTheBlob : Obligations.OnlySerializersWriteTheBlob := by
  intro s t i a hs _ h
  rcases (h ▸ exec_ends i s : CommandEnds i s (.next t)).blob_eq hs with e | ⟨hi, hok, bytes, e, hlen, -⟩
  · exact .inl (by rw [e])
  · rw [e, Memory.read_writeList]
    split
    · exact .inr ⟨hi, hok, by omega⟩
    · exact .inl rfl

/-- Settles O7: the four offsets read constants, and `writeRegister` ignores a write to them. -/
theorem idAndCapabilitiesAreConstant : Obligations.IdAndCapabilitiesAreConstant := by
  intro s hwf
  refine ⟨hostRead_register (by decide) (by decide), ⟨_, hostRead_register (by decide) (by decide), ?_⟩,
    ⟨_, hostRead_register (by decide) (by decide), ?_⟩, ⟨_, hostRead_register (by decide) (by decide), ?_⟩,
    fun off hoff v t h => ?_⟩
  · show bits (cap0 s.params) 0 8 = _ ∧ bits (cap0 s.params) 8 8 = _ ∧ bits (cap0 s.params) 16 16 = 0
    simp only [bits_eq, cap0_toNat hwf]
    obtain ⟨hnslot, -, hpmax, -⟩ := hwf
    omega
  · obtain ⟨-, hkmax, -, hblob⟩ := hwf
    exact Nat.mod_eq_of_lt (by omega)
  · obtain ⟨-, -, -, hblob⟩ := hwf
    exact Nat.mod_eq_of_lt (by omega)
  · obtain ⟨hreadOnly, hlow, halign⟩ : off.toNat ≤ 0x00C ∧ off.toNat < blobBase ∧ off.toNat % 4 = 0 := by
      rcases hoff with rfl | rfl | rfl | rfl <;> decide
    cases hbusy : s.status.busy with
    | true =>
      rw [hostWrite_busy (legalAccess_register hlow halign) hbusy] at h
      cases h
      exact ⟨rfl, rfl⟩
    | false =>
      rw [hostWrite_register hlow halign hbusy, writeRegister_readOnly (.inl hreadOnly)] at h
      cases h
      exact ⟨rfl, rfl⟩

/-- Settles O8: the equations of `readRegister` and `writeRegister` at each offset. -/
theorem registerWindowReadsAndWrites : Obligations.RegisterWindowReadsAndWrites := by
  intro s v hidle
  have hresult : hostRead 0x02C .word s = .next (record (.read 0x02C .word) (.data (openRead s.regs.result s).1)
      (openRead s.regs.result s).2) := hostRead_register (by decide) (by decide)
  have hresultHi : hostRead 0x030 .word s = .next (record (.read 0x030 .word) (.data (openRead s.regs.resultHi s).1)
      (openRead s.regs.resultHi s).2) := hostRead_register (by decide) (by decide)
  rw [openRead_idle _ hidle] at hresult hresultHi
  refine ⟨hostWrite_register (by decide) (by decide) hidle v, hostWrite_register (by decide) (by decide) hidle v,
    hostWrite_register (by decide) (by decide) hidle v, hostWrite_register (by decide) (by decide) hidle v,
    hostWrite_register (by decide) (by decide) hidle v, hostRead_register (by decide) (by decide),
    hostRead_register (by decide) (by decide), hostRead_register (by decide) (by decide),
    hostRead_register (by decide) (by decide), hostRead_register (by decide) (by decide),
    hostRead_register (by decide) (by decide), hresult, hresultHi, fun off hlow halign hoff => ?_,
    fun off hreserved hlow halign => ?_⟩
  · have hreadOnly : off.toNat ≤ 0x00C ∨ off.toNat = 0x014 ∨ 0x02C ≤ off.toNat :=
      hoff.imp BitVec.le_def.1 (.imp (congrArg BitVec.toNat) BitVec.le_def.1)
    rw [hostWrite_register hlow halign hidle, writeRegister_readOnly hreadOnly]
  · rw [hostRead_register hlow halign, readRegister_reserved hreserved]

/-- Settles O9: an idle write to CMD is accepted, a busy one ignored. -/
theorem cmdWriteIssuesACommand : Obligations.CmdWriteIssuesACommand := fun _ w =>
  ⟨fun hidle => hostWrite_register (by decide) (by decide) hidle w,
    fun hbusy => hostWrite_busy (by decide) hbusy w, hostRead_register (by decide) (by decide)⟩

/-- Settles O15: each field is read off the number STATUS shows. -/
theorem statusWordLayout : Obligations.StatusWordLayout := by
  intro st
  have hcode : st.code.toNat ≤ 10 := by cases st.code <;> decide
  have hbusy := st.busy.toNat_le
  have herr := st.err.toNat_le
  have hsticky := st.sticky.toNat_le
  have hovr := st.ovr.toNat_le
  have hbit {n : Nat} {b : Bool} (h : (statusWord st).toNat / 2 ^ n % 2 = b.toNat) : (statusWord st).getLsbD n = b := by
    rw [getLsbD_eq, h]
    cases b <;> rfl
  have hfield : bits (statusWord st) 8 4 = st.code.toNat := by
    rw [bits_eq, statusWord_toNat]
    omega
  refine ⟨hbit ?_, hbit ?_, hbit ?_, hbit ?_, ?_, ?_, hfield.trans (by cases st.code <;> rfl)⟩
  all_goals
    simp only [bits_eq, statusWord_toNat]
    omega

/-- Settles O24: from reset every slot is empty, so the invariant holds and `reset_launch` applies. -/
theorem resetMeetsTheInvariant : Obligations.ResetMeetsTheInvariant := by
  refine fun p hp => ⟨inv_iff.2 ⟨hp, List.length_replicate, fun x hx => ?_, ⟨rfl, nofun⟩, rfl, rfl, nofun, nofun⟩,
    reset_launch p⟩
  obtain rfl : x = .empty := List.eq_of_mem_replicate hx
  exact ⟨rfl, trivial⟩

/-- Settles O25: reset's state on the old state's parameters. -/
theorem resetValues : Obligations.ResetValues := by
  intro s
  have hslots : ∀ n, readSlot n (assertReset s) = .empty :=
    readSlot_of_forall_slots (P := (· = .empty)) rfl fun _ hx => List.eq_of_mem_replicate hx
  exact ⟨rfl, rfl, BitVec.eq_of_toNat_eq (statusWord_toNat _), rfl, List.length_replicate, hslots, fun _ => rfl, rfl⟩

end Sys2Proof.Proofs
end

section
/-! PROOFS. Memory access (20_memory.md): which accesses are legal, what a host read and a write through the blob
window do, the unwritten bytes, and the turns of the two agents. -/

namespace Sys2Proof.Proofs

open Sys2Proof Sys2Proof.Machine Sys2Proof.Claim

/-! ### Legal accesses (R63, R64) -/

section

variable {off : BitVec 20} {w : Width} {s t : State}

theorem legalAccess_iff : legalAccess off w = true ↔ legal off w := by
  unfold legalAccess legal blobBase
  split
  · rename_i hlow
    rw [or_iff_left (fun h => absurd hlow (Nat.not_lt.2 h.1)), and_iff_right hlow, Bool.and_eq_true, beq_iff_eq,
      beq_iff_eq]
  · rename_i hlow
    rw [or_iff_right (fun h => hlow h.1), and_iff_right (Nat.not_lt.1 hlow), beq_iff_eq]

theorem hostRead_illegal (h : ¬ legal off w) : hostRead off w s = .next (record (.read off w) .buserr s) := by
  rw [hostRead, if_neg (mt legalAccess_iff.1 h)]

theorem hostWrite_illegal (h : ¬ legal off w) (v : Word) :
    hostWrite off w v s = .next (record (.write off w v) .buserr s) := by
  rw [hostWrite, if_neg (mt legalAccess_iff.1 h)]

theorem hostWrite_legal (h : legal off w) (v : Word) :
    hostWrite off w v s = .next (record (.write off w v) .done (busWrite off w v s)) := by
  rw [hostWrite, if_pos (legalAccess_iff.2 h)]

/-- A read that does not fault is BUSERR, or legal and answered with data by the bus. -/
theorem hostRead_cases (h : hostRead off w s = .next t) :
    (¬ legal off w ∧ t = record (.read off w) .buserr s) ∨
      ∃ v u, legal off w ∧ busRead off w s = .ok (v, u) ∧ t = record (.read off w) (.data v) u := by
  by_cases hlegal : legal off w
  · rw [hostRead, if_pos (legalAccess_iff.2 hlegal)] at h
    split at h
    · cases h
    · rename_i v u hread
      cases h
      exact .inr ⟨v, u, hlegal, hread, rfl⟩
  · rw [hostRead_illegal hlegal] at h
    cases h
    exact .inl ⟨hlegal, rfl⟩

/-! ### What a read leaves (R67) -/

/-- A read leaves the state as it was, or, while BUSY = 1, takes one free value. -/
def TakesAtMostAFreeValue (s u : State) : Prop :=
  u = s ∨ (s.status.busy = true ∧ u = { s with draws := s.draws + 1 })

theorem openRead_takes (v : Word) (s : State) : TakesAtMostAFreeValue s (openRead v s).2 := by
  unfold openRead
  split
  · rename_i hbusy
    exact .inr ⟨hbusy, rfl⟩
  · exact .inl rfl

theorem readRegister_takes (n : Nat) (s : State) : TakesAtMostAFreeValue s (readRegister n s).2 := by
  unfold readRegister
  split
  any_goals exact .inl rfl
  all_goals exact openRead_takes _ s

theorem readBlob_takes {a n : Nat} {v : Word} (h : readBlob a n s = .ok (v, t)) : TakesAtMostAFreeValue s t := by
  unfold readBlob at h
  split at h
  · cases h
  · split at h
    · rename_i hbusy
      cases h
      exact .inr ⟨hbusy, rfl⟩
    · cases h
      exact .inl rfl

theorem busRead_takes {v : Word} (h : busRead off w s = .ok (v, t)) : TakesAtMostAFreeValue s t := by
  unfold busRead at h
  split at h
  · obtain rfl : (readRegister off.toNat s).2 = t := by
      injection h with e
      rw [e]
    exact readRegister_takes _ s
  · exact readBlob_takes h

/-! ### The blob window (R61 to R63) -/

theorem busRead_blob (h : blobBase ≤ off.toNat) : busRead off w s = readBlob (off.toNat - blobBase) w.bytes s := by
  rw [busRead, if_neg (Nat.not_lt.2 h)]

/-- A legal read that covers an unwritten byte below the limit (R66). -/
theorem hostRead_unwritten (hlegal : legal off w) (hblob : blobBase ≤ off.toNat)
    (hgap : HasGap s.blob (off.toNat - blobBase) (min (off.toNat - blobBase + w.bytes) s.params.blobBytes)) :
    hostRead off w s = .fault .unwrittenBlobByte := by
  have hnone : blobBytesAt s (off.toNat - blobBase) (leBytes w.bytes (Config.freeWord s.draws).toNat) = none :=
    blobBytesAt_eq_none.2 (by rwa [leBytes_length])
  rw [hostRead, if_pos (legalAccess_iff.2 hlegal), busRead_blob hblob, readBlob, hnone]

theorem busWrite_blob (hblob : blobBase ≤ off.toNat) (hidle : s.status.busy = false) (v : Word) :
    busWrite off w v s = writeBlob (off.toNat - blobBase) w.bytes v s := by
  rw [busWrite, if_neg (ne_true_of_eq_false hidle), if_neg (Nat.not_lt.2 hblob)]

/-- Byte `i` of a value's little-endian bytes (R62). -/
theorem getElem?_leBytes {n i : Nat} (h : i < n) (v : Nat) :
    (leBytes n v)[i]? = some (BitVec.ofNat 8 (v / 2 ^ (8 * i))) := by
  induction n generalizing i v with
  | zero => omega
  | succ n ih =>
    cases i with
    | zero => simp [leBytes]
    | succ i =>
      rw [leBytes, List.getElem?_cons_succ, ih (by omega), Nat.div_div_eq_div_mul, ← Nat.pow_add,
        show 8 + 8 * i = 8 * (i + 1) by omega]

/-- The bytes of a value cut to its lowest `k` bytes: its own below `k`, 0 above. -/
theorem byte_of_mod (v k i : Nat) : BitVec.ofNat 8 (v % 2 ^ (8 * k) / 2 ^ (8 * i)) =
    if i < k then BitVec.ofNat 8 (v / 2 ^ (8 * i)) else 0 := by
  split
  · rename_i hi
    obtain ⟨d, rfl⟩ : ∃ d, k = i + (d + 1) := ⟨k - i - 1, by omega⟩
    have hdvd : 2 ^ 8 ∣ 2 ^ (8 * (d + 1)) := Nat.pow_dvd_pow 2 (by omega)
    apply BitVec.eq_of_toNat_eq
    rw [BitVec.toNat_ofNat, BitVec.toNat_ofNat, Nat.mul_add, Nat.pow_add, Nat.mod_mul_right_div_self,
      Nat.mod_mod_of_dvd _ hdvd]
  · rename_i hi
    have hle : 2 ^ (8 * k) ≤ 2 ^ (8 * i) := Nat.pow_le_pow_right (by omega) (by omega)
    rw [Nat.div_eq_of_lt (Nat.lt_of_lt_of_le (Nat.mod_lt v (Nat.two_pow_pos _)) hle)]
    rfl

/-- A blob-window read of `n` bytes gives the bytes of `v` where each byte it reads is the one of `v`. -/
theorem blobBytesAt_leBytes {a n x v : Nat}
    (h : ∀ i < n, blobByte s (a + i) (BitVec.ofNat 8 (x / 2 ^ (8 * i))) = some (BitVec.ofNat 8 (v / 2 ^ (8 * i)))) :
    blobBytesAt s a (leBytes n x) = some (leBytes n v) := by
  induction n generalizing a x v with
  | zero => rfl
  | succ n ih =>
    have hfirst : blobByte s a (BitVec.ofNat 8 x) = some (BitVec.ofNat 8 v) := by simpa using h 0 (by omega)
    have hrest : blobBytesAt s (a + 1) (leBytes n (x / 2 ^ 8)) = some (leBytes n (v / 2 ^ 8)) := by
      refine ih fun i hi => ?_
      have hnext := h (i + 1) (by omega)
      rwa [show a + (i + 1) = a + 1 + i by omega, show 8 * (i + 1) = 8 + 8 * i by omega, Nat.pow_add,
        ← Nat.div_div_eq_div_mul, ← Nat.div_div_eq_div_mul] at hnext
    rw [leBytes, leBytes, blobBytesAt, hfirst, hrest]

/-- A legal read through the blob window has the value `x` where each byte it reads is the one of `x`. -/
theorem hostRead_blob {x : Nat} (hlegal : legal off w) (hblob : blobBase ≤ off.toNat) (hx : x < 2 ^ (8 * w.bytes))
    (hbytes : ∀ i < w.bytes, blobByte s (off.toNat - blobBase + i)
      (BitVec.ofNat 8 ((Config.freeWord s.draws).toNat / 2 ^ (8 * i))) = some (BitVec.ofNat 8 (x / 2 ^ (8 * i)))) :
    hostRead off w s = .next (record (.read off w) (.data (BitVec.ofNat 32 x))
      (if s.status.busy then { s with draws := s.draws + 1 } else s)) := by
  rw [hostRead, if_pos (legalAccess_iff.2 hlegal), busRead_blob hblob, readBlob, blobBytesAt_leBytes hbytes]
  simp only [leValue_leBytes, Nat.mod_eq_of_lt hx]

theorem blobByte_beyond {a : Nat} (h : s.params.blobBytes ≤ a) (free : Byte) : blobByte s a free = some 0 := by
  rw [blobByte, if_pos h]

theorem blobByte_idle {a : Nat} {b : Byte} (hidle : s.status.busy = false) (hlimit : a < s.params.blobBytes)
    (hb : Memory.read s.blob a = some b) (free : Byte) : blobByte s a free = some b := by
  rw [blobByte, if_neg (Nat.not_le.2 hlimit), hb]
  simp [hidle]

/-- A write through the blob window stores the low bytes of its data below the limit and changes no other byte. -/
theorem read_writeBlob (a n : Nat) (v : Word) (s : State) (x : Nat) :
    Memory.read (writeBlob a n v s).blob x =
      if a ≤ x ∧ x < a + min n (s.params.blobBytes - a) then some (BitVec.ofNat 8 (v.toNat / 2 ^ (8 * (x - a))))
      else Memory.read s.blob x := by
  rw [writeBlob, setBlob_blob, Memory.read_writeList, List.length_take, leBytes_length, Nat.min_comm]
  split
  · rw [List.getElem?_take_of_lt (by omega), getElem?_leBytes (by omega)]
  · rfl

/-- What an idle write through the blob window stored reads back, with 0 at and above the limit. -/
theorem hostRead_writeBlob {o : Nat} (ho : off.toNat - blobBase = o) (hlegal : legal off w)
    (hblob : blobBase ≤ off.toNat) (hidle : s.status.busy = false) (v : Word) (a : Access) (r : Reply) :
    hostRead off w (record a r (writeBlob o w.bytes v s)) = .next (record (.read off w)
      (.data (BitVec.ofNat 32 (v.toNat % 2 ^ (8 * min w.bytes (s.params.blobBytes - o)))))
      (record a r (writeBlob o w.bytes v s))) := by
  have hidle' : (record a r (writeBlob o w.bytes v s)).status.busy = false := hidle
  have hvalue : v.toNat % 2 ^ (8 * min w.bytes (s.params.blobBytes - o)) < 2 ^ (8 * w.bytes) :=
    Nat.lt_of_lt_of_le (Nat.mod_lt _ (Nat.two_pow_pos _)) (Nat.pow_le_pow_right (by omega) (by omega))
  rw [hostRead_blob hlegal hblob hvalue fun i hi => ?_, if_neg (ne_true_of_eq_false hidle')]
  rw [byte_of_mod, ho]
  split
  · refine blobByte_idle hidle' (show o + i < s.params.blobBytes by omega) ?_ _
    rw [record_blob, read_writeBlob, if_pos (by omega), Nat.add_sub_cancel_left]
  · have hlimit : (record a r (writeBlob o w.bytes v s)).params.blobBytes ≤ o + i := by
      show s.params.blobBytes ≤ o + i
      omega
    exact blobByte_beyond hlimit _

end

/-! ### A deserializer's unwritten bytes (R66, 46_serdes.md R214, R216) -/

section

variable {s : State} {sa : SlotNo}

theorem execMhDes_unwritten_k (hlimit : bufferLen s ≤ s.params.blobBytes) (hlen : 12 ≤ bufferLen s)
    (hk : memRead s.blob 8 4 = none) : execMhDes sa s = .fault .unwrittenBlobByte := by
  simp only [execMhDes, mhDesWith, decide_eq_true hlimit, decide_eq_true hlen, require_true, hk, onWritten]

/-- Once the checks pass, MH_DES reads the seed and then the hash values, before it generates (log 15). -/
theorem execMhDes_unwritten_payload {k : Nat} (hlimit : bufferLen s ≤ s.params.blobBytes)
    (hk : memRead s.blob 8 4 = some k) (hpos : k ≠ 0) (hsize : 12 + 4 * k ≤ bufferLen s) (hmax : k ≤ s.params.kmax)
    (hpayload : memRead s.blob 0 8 = none ∨ readWords s.blob 12 k = none) :
    execMhDes sa s = .fault .unwrittenBlobByte := by
  have hlen : 12 ≤ bufferLen s := by omega
  have hfits : mhBlobSize k ≤ bufferLen s := hsize
  simp only [execMhDes, mhDesWith, decide_eq_true hlimit, decide_eq_true hlen, hk, onWritten,
    decide_eq_true hpos, decide_eq_true hfits, decide_eq_true hmax, require_true]
  rcases hpayload with hseed | hwords
  · rw [hseed]
  · rw [hwords]
    cases memRead s.blob 0 8 <;> rfl

theorem execHllDes_unwritten_p (hlimit : bufferLen s ≤ s.params.blobBytes) (hlen : 1 ≤ bufferLen s)
    (hp : memRead s.blob 0 1 = none) : execHllDes sa s = .fault .unwrittenBlobByte := by
  simp only [execHllDes, decide_eq_true hlimit, decide_eq_true hlen, require_true, hp, onWritten]

theorem execHllDes_unwritten_registers {p : Nat} (hlimit : bufferLen s ≤ s.params.blobBytes)
    (hp : memRead s.blob 0 1 = some p) (hlo : 4 ≤ p) (hhi : p ≤ 16) (hsize : 1 + 2 ^ p ≤ bufferLen s)
    (hmax : p ≤ s.params.pmax) (hreg : Memory.readList s.blob 1 (2 ^ p) = none) :
    execHllDes sa s = .fault .unwrittenBlobByte := by
  have hlen : 1 ≤ bufferLen s := Nat.le_of_add_right_le hsize
  have hfits : hllBlobSize p ≤ bufferLen s := hsize
  simp only [execHllDes, decide_eq_true hlimit, decide_eq_true hlen, hp, onWritten, decide_eq_true hlo,
    decide_eq_true hhi, decide_eq_true hfits, decide_eq_true hmax, Bool.and_self, require_true, hreg]

/-- A byte of a value that has been read is written. -/
theorem read_ne_none_of_memRead {m : Memory} {o n v a : Nat} (h : memRead m o n = some v) (hlo : o ≤ a)
    (hhi : a < o + n) : Memory.read m a ≠ none :=
  fun hnone => Option.some_ne_none v (h.symm.trans (memRead_eq_none.2 ⟨a, hlo, hhi, hnone⟩))

end

/-! ### A command and the host's side (R70) -/

/-- The same state with another host side. -/
def withHost (h : HostSide) (s : State) : State := { s with host := h }

/-- The outcome `o'` is the outcome `o` with the host's side `h`. -/
def SameButHost (h : HostSide) (o o' : StepOutcome) : Prop := o' = mapNext (withHost h) o

section

variable {h : HostSide} {s : State}

theorem SameButHost.finish (s : State) : SameButHost h (Machine.finish s) (Machine.finish (withHost h s)) := rfl

theorem SameButHost.raise (c : ResultCode) (s : State) :
    SameButHost h (Machine.raise c s) (Machine.raise c (withHost h s)) := rfl

theorem SameButHost.hang (s : State) : SameButHost h (Machine.hang s) (Machine.hang (withHost h s)) := rfl

theorem SameButHost.require {ok : Bool} {c : ResultCode} {k k' : StepOutcome} (hk : SameButHost h k k') :
    SameButHost h (Machine.require ok c s k) (Machine.require ok c (withHost h s) k') := by
  cases ok
  · rfl
  · exact hk

theorem SameButHost.requirePrecision {p : Nat} {k k' : StepOutcome} (hk : SameButHost h k k') :
    SameButHost h (Machine.requirePrecision p s k) (Machine.requirePrecision p (withHost h s) k') :=
  .require (.require hk)

theorem SameButHost.onWritten {α : Type} {v : Option α} {k k' : α → StepOutcome}
    (hk : ∀ x, SameButHost h (k x) (k' x)) : SameButHost h (Machine.onWritten v k) (Machine.onWritten v k') := by
  cases v with
  | none => rfl
  | some x => exact hk x

theorem readSlot_withHost (n : SlotNo) : readSlot n (withHost h s) = readSlot n s := rfl

theorem SameButHost.onMinHash {n : SlotNo} {k k' : MinHash → StepOutcome} (hk : ∀ m, SameButHost h (k m) (k' m)) :
    SameButHost h (Machine.onMinHash n s k) (Machine.onMinHash n (withHost h s) k') := by
  unfold Machine.onMinHash
  rw [readSlot_withHost]
  split
  · exact hk _
  · exact .raise _ s

theorem SameButHost.onHll {n : SlotNo} {k k' : Hll → StepOutcome} (hk : ∀ x, SameButHost h (k x) (k' x)) :
    SameButHost h (Machine.onHll n s k) (Machine.onHll n (withHost h s) k') := by
  unfold Machine.onHll
  rw [readSlot_withHost]
  split
  · exact hk _
  · exact .raise _ s

theorem SameButHost.onHmh {n : SlotNo} {k k' : Hmh → StepOutcome} (hk : ∀ x, SameButHost h (k x) (k' x)) :
    SameButHost h (Machine.onHmh n s k) (Machine.onHmh n (withHost h s) k') := by
  unfold Machine.onHmh
  rw [readSlot_withHost]
  split
  · exact hk _
  · exact .raise _ s

theorem SameButHost.onOneBit {n : SlotNo} {k k' : OneBit → StepOutcome} (hk : ∀ x, SameButHost h (k x) (k' x)) :
    SameButHost h (Machine.onOneBit n s k) (Machine.onOneBit n (withHost h s) k') := by
  unfold Machine.onOneBit
  rw [readSlot_withHost]
  split
  · exact hk _
  · exact .raise _ s

theorem SameButHost.serialize {size : Nat} {bytes : List Byte} :
    SameButHost h (Machine.serialize size bytes s) (Machine.serialize size bytes (withHost h s)) :=
  .require (.require (.finish _))

end

/-! #### Each command -/

@[simp] theorem seedOperand_withHost (h : HostSide) (s : State) : seedOperand (withHost h s) = seedOperand s := rfl
@[simp] theorem kOperand_withHost (h : HostSide) (s : State) : kOperand (withHost h s) = kOperand s := rfl
@[simp] theorem maskedSlots_withHost (mask : BitVec 16) (h : HostSide) (s : State) :
    maskedSlots mask (withHost h s) = maskedSlots mask s := rfl

theorem execMhNew_sameButHost (h : HostSide) (sa : SlotNo) (s : State) :
    SameButHost h (execMhNew sa s) (execMhNew sa (withHost h s)) := by
  refine .require (.require ?_)
  rw [seedOperand_withHost, kOperand_withHost]
  split
  · exact .hang s
  · exact .finish _

theorem execMhDes_sameButHost (h : HostSide) (sa : SlotNo) (s : State) :
    SameButHost h (execMhDes sa s) (execMhDes sa (withHost h s)) := by
  refine .require (.require (.onWritten fun k => .require (.require (.require (.onWritten fun seed =>
    .onWritten fun hv => ?_)))))
  split
  · exact .hang s
  · exact .finish _

theorem execMhAgree_sameButHost (h : HostSide) (mask : BitVec 16) (s : State) :
    SameButHost h (execMhAgree mask s) (execMhAgree mask (withHost h s)) := by
  refine .require ?_
  rw [maskedSlots_withHost]
  split
  · exact .raise _ s
  · exact .raise _ s
  · exact .require (.finish _)

theorem execObXorpop_sameButHost (h : HostSide) (mask : BitVec 16) (s : State) :
    SameButHost h (execObXorpop mask s) (execObXorpop mask (withHost h s)) := by
  refine .require ?_
  rw [maskedSlots_withHost]
  split
  · exact .raise _ s
  · exact .raise _ s
  · exact .require (.finish _)

theorem execMhSeed_sameButHost (h : HostSide) (sa : SlotNo) (s : State) :
    SameButHost h (execMhSeed sa s) (execMhSeed sa (withHost h s)) := by
  unfold execMhSeed
  rw [readSlot_withHost]
  split
  · exact .finish _
  · exact .finish _
  · exact .raise _ s

/-- A command does the same whatever the host's side is, and leaves it as it is (20_memory.md R70). -/
theorem exec_sameButHost (i : Instr) (h : HostSide) (s : State) :
    SameButHost h (exec i s) (exec i (withHost h s)) := by
  cases i with
  | nop => exact .finish s
  | clrstat => exact .finish (clearAccumulated s)
  | free sa => exact .finish (writeSlot sa .empty s)
  | info sa => exact .finish (setResult _ _ s)
  | lzc32 => exact .finish (setResult _ _ s)
  | extract hi lo => exact .require (.finish _)
  | popcnt32 => exact .finish (setResult _ _ s)
  | mhPerm sa => exact .onMinHash fun _ => .require (.finish _)
  | mhRdperm sa => exact .onMinHash fun _ => .require (.finish _)
  | mhNew sa => exact execMhNew_sameButHost h sa s
  | mhDigest sa => exact .onMinHash fun _ => .finish _
  | mhClear sa => exact .onMinHash fun _ => .finish _
  | mhMerge sa sb => exact .onMinHash fun _ => .onMinHash fun _ => .require (.finish _)
  | mhAgree mask => exact execMhAgree_sameButHost h mask s
  | mhRdval sa => exact .onMinHash fun _ => .require (.finish _)
  | mhSeed sa => exact execMhSeed_sameButHost h sa s
  | obExport sa sb => exact .onMinHash fun _ => .finish _
  | obXorpop mask => exact execObXorpop_sameButHost h mask s
  | obRdword sa => exact .onOneBit fun _ => .require (.finish _)
  | hllNew sa p => exact .requirePrecision (.finish _)
  | hllDigest sa => exact .onHll fun _ => .finish _
  | hllClear sa => exact .onHll fun _ => .finish _
  | hllMerge sa sb => exact .onHll fun _ => .onHll fun _ => .require (.finish _)
  | hllRdreg sa => exact .onHll fun _ => .require (.finish _)
  | hmhNew sa p => exact .requirePrecision (.finish _)
  | hmhAdd sa => exact .onHmh fun _ => .finish _
  | hmhMerge sa sb => exact .onHmh fun _ => .onHmh fun _ => .require (.finish _)
  | hmhAgree sa sb => exact .onHmh fun _ => .onHmh fun _ => .require (.finish _)
  | hmhRdreg sa => exact .onHmh fun _ => .require (.finish _)
  | hmhRdmin sa => exact .onHmh fun _ => .require (.finish _)
  | mhSer sa => exact .onMinHash fun _ => .serialize
  | mhDes sa => exact execMhDes_sameButHost h sa s
  | hllSer sa => exact .onHll fun _ => .serialize
  | hllDes sa =>
    exact .require (.require (.onWritten fun _ => .require (.require (.require (.onWritten fun _ => .finish _)))))

/-! ### The turns of the two agents (R69, R70) -/

section

variable {s : State}

theorem step_engine (h : nextAgent s = .engine) : step s = engineTurn (popTurn s) := by
  rw [step, h]

theorem step_host (h : nextAgent s = .host) : step s = hostTurn (popTurn s) := by
  rw [step, h]

theorem engineTurn_idle (h : s.pending = none) : engineTurn s = .next s := by
  rw [engineTurn, h]

theorem engineTurn_pending {w : Word} (h : s.pending = some w) : engineTurn s = runCommand w s := by
  rw [engineTurn, h]

theorem hostTurn_over (h : s.host.prog = []) : hostTurn s = .next s := by
  rw [hostTurn, h]

theorem hostTurn_read {off : BitVec 20} {w : Width} {rest : List HostOp}
    (h : s.host.prog = .access (.read off w) :: rest) : hostTurn s = hostRead off w (setProg rest s) := by
  rw [hostTurn, h]

theorem hostTurn_write {off : BitVec 20} {w : Width} {v : Word} {rest : List HostOp}
    (h : s.host.prog = .access (.write off w v) :: rest) : hostTurn s = hostWrite off w v (setProg rest s) := by
  rw [hostTurn, h]

/-- One turn of the poll loop reads STATUS, and leaves the loop where BUSY = 0 (30_encoding.md R99). -/
theorem hostTurn_poll {rest : List HostOp} (h : s.host.prog = .poll :: rest) :
    hostTurn s = .next (record (.read statusOffset .word) (.data (statusWord s.status))
      (if s.status.busy then s else setProg rest s)) := by
  rw [hostTurn, h]
  show hostRead _ _ _ = _
  rw [hostRead_register (by decide) (by decide)]
  split <;> rfl

/-- With the schedule used up the engine moves exactly where a command is pending (log 4). -/
theorem nextAgent_of_no_sched (h : s.host.sched = []) : nextAgent s = .engine ↔ s.pending ≠ none := by
  rw [nextAgent, h]
  cases s.pending <;> simp

theorem nextAgent_of_sched {a : Agent} {rest : List Agent} (h : s.host.sched = a :: rest) : nextAgent s = a := by
  rw [nextAgent, h]

end

/-! ### The obligations -/

/-- Settles O12: a read that answers leaves the state as it was, or takes one free value while BUSY = 1. -/
theorem readsHaveNoSideEffect : Obligations.ReadsHaveNoSideEffect := by
  intro s t off w h
  rcases hostRead_cases h with ⟨-, rfl⟩ | ⟨v, u, -, hread, rfl⟩
  · exact ⟨.buserr, rfl, fun _ => rfl⟩
  · refine ⟨.data v, ?_⟩
    rcases busRead_takes hread with rfl | ⟨hbusy, rfl⟩
    · exact ⟨rfl, fun _ => rfl⟩
    · exact ⟨rfl, fun hidle => absurd hbusy (by simp [hidle])⟩

/-- Settles O13: what `read_writeBlob` says of each byte of the write, read back. -/
theorem blobWindowReadsWhatWasWritten : Obligations.BlobWindowReadsWhatWasWritten := by
  intro s off w v hidle hlegal hblob o kept
  have ho : off.toNat - blobBase = o := by simp only [blobBase, o]
  clear_value o
  have hread := read_writeBlob o w.bytes v s
  refine ⟨(writeBlob o w.bytes v s).blob, ?_, hostRead_writeBlob ho hlegal hblob hidle v _ _, fun n hn => ?_,
    fun a ha => ?_⟩
  · rw [hostWrite_legal hlegal, busWrite_blob hblob hidle, ho]
    rfl
  · rw [hread, if_pos ⟨Nat.le_add_right o n, Nat.add_lt_add_left hn o⟩, Nat.add_sub_cancel_left]
  · rw [hread, if_neg ha]

/-- Settles O14: the bytes the read needs have a gap. -/
theorem unwrittenBlobByteFaults : Obligations.UnwrittenBlobByteFaults := by
  refine ⟨fun s off w n hlegal hblob hn hlimit hnone => ?_, fun s sa a hlimit hlen hnone ha => ?_,
    fun s sa a hlimit hlen hnone ha => ?_⟩
  · exact hostRead_unwritten hlegal hblob ⟨_, Nat.le_add_right _ n, by simp only [blobBase]; omega, hnone⟩
  · rcases ha with ⟨hlo, hhi⟩ | ⟨k, hk, hpos, hsize, hmax, hhi⟩
    · exact execMhDes_unwritten_k hlimit hlen (memRead_eq_none.2 ⟨a, hlo, hhi, hnone⟩)
    · refine execMhDes_unwritten_payload hlimit hk hpos hsize hmax ?_
      rcases Nat.lt_or_ge a 8 with hseed | h8
      · exact .inl (memRead_eq_none.2 ⟨a, Nat.zero_le a, hseed, hnone⟩)
      · have h12 : 12 ≤ a := Nat.le_of_not_lt fun hlt => read_ne_none_of_memRead hk h8 hlt hnone
        exact .inr (readWords_eq_none.2 ⟨a, h12, hhi, hnone⟩)
  · rcases ha with rfl | ⟨p, hp, hlo, hhi, hsize, hmax, ha⟩
    · exact execHllDes_unwritten_p hlimit hlen (memRead_eq_none.2 ⟨0, Nat.le_refl 0, Nat.one_pos, hnone⟩)
    · have h1 : 1 ≤ a := Nat.le_of_not_lt fun hlt => read_ne_none_of_memRead hp (Nat.zero_le a) hlt hnone
      exact execHllDes_unwritten_registers hlimit hp hlo hhi hsize hmax (readList_eq_none.2 ⟨a, h1, ha, hnone⟩)

/-- Settles O22: an Illegal word completes, and every command is the same but for the host's side. -/
theorem commandsIgnoreTheHostSide : Obligations.CommandsIgnoreTheHostSide := by
  intro s w h
  show runCommand w (withHost h s) = mapNext (withHost h) (runCommand w s)
  cases hd : decode s.params.nslot w with
  | error e =>
    rw [runCommand_illegal hd, runCommand_illegal (s := withHost h s) hd]
    rfl
  | ok i =>
    rw [runCommand_ok hd, runCommand_ok (s := withHost h s) hd]
    exact exec_sameButHost i h s

/-- Settles O5: the engine's turn on the pending word, and on the word `withFetchWord` places. -/
theorem stepRunsTheDecodedCommand : Obligations.StepRunsTheDecodedCommand := by
  refine ⟨fun s w hpending hengine => ?_, fun s w i hd => ?_⟩
  · rw [step_engine hengine, engineTurn_pending (s := popTurn s) hpending]
    exact ⟨fun i hd => runCommand_ok (s := popTurn s) hd, fun e hd => runCommand_illegal (s := popTurn s) hd⟩
  · rw [step_engine rfl, engineTurn_pending (w := BitVec.ofNat 32 (w % 2 ^ 32)) rfl]
    exact runCommand_ok hd

/-- Settles O6: the turns of the two agents, case by case. -/
theorem stepTakesTheHostsNextAccess : Obligations.StepTakesTheHostsNextAccess := by
  intro s s0 advance
  refine ⟨fun hhost hprog => ?_, fun hengine hpending => ?_, fun hhost off w rest hprog => ?_,
    fun hhost off w v rest hprog => ?_, fun hhost rest hprog => ?_, nextAgent_of_no_sched,
    fun a rest => nextAgent_of_sched⟩
  · rw [step_host hhost]
    exact hostTurn_over hprog
  · rw [step_engine hengine]
    exact engineTurn_idle hpending
  · rw [step_host hhost]
    exact hostTurn_read hprog
  · rw [step_host hhost]
    exact hostTurn_write hprog
  · obtain ⟨hbusy, -⟩ := statusWordLayout s.status
    rw [step_host hhost, hbusy]
    exact hostTurn_poll (s := popTurn s) hprog

/-- Settles O11: BUSERR answers exactly the accesses that are not legal. -/
theorem illegalAccessIsBusErr : Obligations.IllegalAccessIsBusErr := by
  intro s off w v
  refine ⟨fun h => ⟨hostRead_illegal h, hostWrite_illegal h v, rfl⟩, fun h => ⟨fun hread => ?_, hostWrite_legal h v⟩⟩
  rcases hostRead_cases hread with ⟨hillegal, -⟩ | ⟨u, t, -, -, ht⟩
  · exact hillegal h
  · have hlog := congrArg (fun t => t.host.log.head?) ht
    simp at hlog

end Sys2Proof.Proofs
end

section
/-! PROOFS. The encoding (30_encoding.md): the fields of a command word, the decoder as one condition on them, the round
trip of decoder and encoder, and the encodings R97 lists. -/

namespace Sys2Proof.Proofs

open Sys2Proof Sys2Proof.Machine Sys2Proof.Claim

/-! ### The fields of a word (R91) -/

section

variable (w : Word)

theorem opField_lt : opField w < 64 := Nat.div_lt_of_lt_mul w.isLt

theorem opField_eq : opField w = bits w 26 6 := by
  rw [bits_eq, ← opField]
  exact (Nat.mod_eq_of_lt (opField_lt w)).symm

theorem saField_val : (saField w).val = bits w 22 4 := (bits_eq w 22 4).symm

theorem sbField_val : (sbField w).val = bits w 18 4 := (bits_eq w 18 4).symm

theorem immField_toNat : (immField w).toNat = bits w 0 16 := by
  rw [bits_eq, immField, BitVec.toNat_ofNat, Nat.pow_zero, Nat.div_one]

/-- A word is the sum of its five fields. -/
theorem toNat_eq_fields : w.toNat =
    bits w 26 6 * 2 ^ 26 + bits w 22 4 * 2 ^ 22 + bits w 18 4 * 2 ^ 18 + bits w 16 2 * 2 ^ 16 + bits w 0 16 := by
  have := w.isLt
  simp only [bits_eq]
  omega

end

section

variable {op sa sb imm : Nat}

theorem assemble_toNat (hop : op < 64) (hsa : sa < 16) (hsb : sb < 16) (himm : imm < 2 ^ 16) :
    (assemble op sa sb imm).toNat = op * 2 ^ 26 + sa * 2 ^ 22 + sb * 2 ^ 18 + imm := by
  rw [assemble, BitVec.toNat_ofNat]
  omega

/-- The fields of an assembled word are the ones it was assembled from, and RSV is zero. -/
theorem bits_assemble (hop : op < 64) (hsa : sa < 16) (hsb : sb < 16) (himm : imm < 2 ^ 16) :
    bits (assemble op sa sb imm) 26 6 = op ∧ bits (assemble op sa sb imm) 22 4 = sa ∧
      bits (assemble op sa sb imm) 18 4 = sb ∧ bits (assemble op sa sb imm) 16 2 = 0 ∧
      bits (assemble op sa sb imm) 0 16 = imm := by
  simp only [bits_eq, assemble_toNat hop hsa hsb himm]
  omega

end

/-- A word whose RSV is zero is assembled from its own fields. -/
theorem assemble_fields {w : Word} (hrsv : bits w 16 2 = 0) :
    assemble (bits w 26 6) (bits w 22 4) (bits w 18 4) (bits w 0 16) = w := by
  refine BitVec.eq_of_toNat_eq ?_
  rw [assemble, BitVec.toNat_ofNat, ← Nat.mod_eq_of_lt w.isLt]
  congr 1
  have := toNat_eq_fields w
  omega

/-! ### The static mask (R92) -/

/-- The form uses IMM16 (R92). -/
def usesImm : Form → Bool
  | .i => true
  | .ai => true
  | .z => false
  | .a => false
  | .ab => false

theorem usesImm_eq_false_iff {f : Form} : usesImm f = false ↔ f = .z ∨ f = .a ∨ f = .ab := by
  cases f <;> decide

/-- RSV and the fields the form does not use are zero. -/
def UnusedZero (f : Form) (w : Word) : Prop :=
  bits w 16 2 = 0 ∧ (f.usesA = false → bits w 22 4 = 0) ∧ (f.usesB = false → bits w 18 4 = 0) ∧
    (usesImm f = false → bits w 0 16 = 0)

theorem bits_and_of_allOnes {m : Word} {lo n : Nat} (h : m.extractLsb' lo n = BitVec.allOnes n) (w : Word) :
    bits (w &&& m) lo n = bits w lo n := by
  rw [bits, BitVec.extractLsb'_and, h, BitVec.and_allOnes, bits]

theorem bits_and_of_zero {m : Word} {lo n : Nat} (h : m.extractLsb' lo n = 0#n) (w : Word) :
    bits (w &&& m) lo n = 0 := by
  rw [bits, BitVec.extractLsb'_and, h, BitVec.and_zero, BitVec.toNat_zero]

/-- The static mask keeps OP, RSV and the unused fields, and clears the used ones. -/
theorem bits_and_staticMask (f : Form) (w : Word) :
    bits (w &&& f.staticMask) 26 6 = bits w 26 6 ∧
      bits (w &&& f.staticMask) 22 4 = (if f.usesA then 0 else bits w 22 4) ∧
      bits (w &&& f.staticMask) 18 4 = (if f.usesB then 0 else bits w 18 4) ∧
      bits (w &&& f.staticMask) 16 2 = bits w 16 2 ∧
      bits (w &&& f.staticMask) 0 16 = (if usesImm f then 0 else bits w 0 16) := by
  cases f with
  | z => exact ⟨bits_and_of_allOnes rfl w, bits_and_of_allOnes rfl w, bits_and_of_allOnes rfl w,
      bits_and_of_allOnes rfl w, bits_and_of_allOnes rfl w⟩
  | i => exact ⟨bits_and_of_allOnes rfl w, bits_and_of_allOnes rfl w, bits_and_of_allOnes rfl w,
      bits_and_of_allOnes rfl w, bits_and_of_zero rfl w⟩
  | a => exact ⟨bits_and_of_allOnes rfl w, bits_and_of_zero rfl w, bits_and_of_allOnes rfl w,
      bits_and_of_allOnes rfl w, bits_and_of_allOnes rfl w⟩
  | ai => exact ⟨bits_and_of_allOnes rfl w, bits_and_of_zero rfl w, bits_and_of_allOnes rfl w,
      bits_and_of_allOnes rfl w, bits_and_of_zero rfl w⟩
  | ab => exact ⟨bits_and_of_allOnes rfl w, bits_and_of_zero rfl w, bits_and_of_zero rfl w,
      bits_and_of_allOnes rfl w, bits_and_of_allOnes rfl w⟩

/-- The decoder's test of the static bits (R96) says that RSV and the unused fields are zero. -/
theorem and_staticMask_eq_iff {f : Form} {w : Word} :
    (w &&& f.staticMask).toNat = opField w * 2 ^ 26 ↔ UnusedZero f w := by
  obtain ⟨hop, hsa, hsb, hrsv, himm⟩ := bits_and_staticMask f w
  have hsum := toNat_eq_fields (w &&& f.staticMask)
  rw [hop, hsa, hsb, hrsv, himm] at hsum
  rw [opField_eq, UnusedZero, hsum]
  cases f.usesA <;> cases f.usesB <;> cases usesImm f <;> simp <;> omega

/-! ### The opcode map (R95) -/

/-- The operands the form uses are legal for `NSLOT` slots (R97). -/
def UsedInRange (nslot op : Nat) (f : Form) (sa sb : SlotNo) (imm : BitVec 16) : Prop :=
  (f.usesA = true → slotOk nslot sa) ∧ (f.usesB = true → slotOk nslot sb) ∧
    (takesMask op = true → maskOk nslot imm)

section

variable {op : Nat} {row : OpRow}

theorem opRow_eq_none_iff (hop : op < 64) : opRow op = none ↔ op ∈ reservedOps := by
  have h : ∀ n < 64, (opRow n).isNone = true ↔ n ∈ reservedOps := by decide
  rw [← Option.isNone_iff_eq_none, h op hop]

/-- A row's form uses exactly the fields that the lists of OP values in R92 and R95 say. -/
theorem opRow_form (h : opRow op = some row) :
    (row.form.usesA = false ↔ op ∈ opsWithoutSA) ∧ (row.form.usesB = true ↔ op ∈ opsWithSB) ∧
      (usesImm row.form = true ↔ op ∈ opsWithImm) := by
  unfold opRow at h
  split at h <;> cases h <;> decide

theorem wellFormed_make (h : opRow op = some row) (nslot : Nat) (sa sb : SlotNo) (imm : BitVec 16) :
    (row.make sa sb imm).wellFormed nslot = true ↔ UsedInRange nslot op row.form sa sb imm := by
  unfold opRow at h
  split at h <;> cases h <;> simp [Instr.wellFormed, UsedInRange, Form.usesA, Form.usesB, takesMask]

/-- IMM16 is its two bytes (R93). -/
theorem immHi_immLo_toNat (imm : BitVec 16) : (immHi imm).toNat * 2 ^ 8 + (immLo imm).toNat = imm.toNat := by
  have := imm.isLt
  simp only [immHi, immLo, BitVec.toNat_ofNat]
  omega

/-- The word of the command a row makes carries the fields its form uses, and zero in the others. -/
theorem encode_make (h : opRow op = some row) (sa sb : SlotNo) (imm : BitVec 16) :
    encode (row.make sa sb imm) = assemble op (if row.form.usesA then sa.val else 0)
      (if row.form.usesB then sb.val else 0) (if usesImm row.form then imm.toNat else 0) := by
  unfold opRow at h
  split at h <;> cases h
  case h_6.refl => exact congrArg (assemble 0x05 0 0) (immHi_immLo_toNat imm)
  all_goals rfl

end

/-- Every command has a row of the opcode map and field values that make it. -/
theorem fields_statement (i : Instr) : Laws.Fields.Statement i := by
  cases i with
  | nop => exact Laws.Fields.nop
  | clrstat => exact Laws.Fields.clrstat
  | free sa => exact Laws.Fields.free sa
  | info sa => exact Laws.Fields.info sa
  | lzc32 => exact Laws.Fields.lzc32
  | extract hi lo => exact Laws.Fields.extract hi lo
  | popcnt32 => exact Laws.Fields.popcnt32
  | mhPerm sa => exact Laws.Fields.mhPerm sa
  | mhRdperm sa => exact Laws.Fields.mhRdperm sa
  | mhNew sa => exact Laws.Fields.mhNew sa
  | mhDigest sa => exact Laws.Fields.mhDigest sa
  | mhClear sa => exact Laws.Fields.mhClear sa
  | mhMerge sa sb => exact Laws.Fields.mhMerge sa sb
  | mhAgree mask => exact Laws.Fields.mhAgree mask
  | mhRdval sa => exact Laws.Fields.mhRdval sa
  | mhSeed sa => exact Laws.Fields.mhSeed sa
  | obExport sa sb => exact Laws.Fields.obExport sa sb
  | obXorpop mask => exact Laws.Fields.obXorpop mask
  | obRdword sa => exact Laws.Fields.obRdword sa
  | hllNew sa p => exact Laws.Fields.hllNew sa p
  | hllDigest sa => exact Laws.Fields.hllDigest sa
  | hllClear sa => exact Laws.Fields.hllClear sa
  | hllMerge sa sb => exact Laws.Fields.hllMerge sa sb
  | hllRdreg sa => exact Laws.Fields.hllRdreg sa
  | hmhNew sa p => exact Laws.Fields.hmhNew sa p
  | hmhAdd sa => exact Laws.Fields.hmhAdd sa
  | hmhMerge sa sb => exact Laws.Fields.hmhMerge sa sb
  | hmhAgree sa sb => exact Laws.Fields.hmhAgree sa sb
  | hmhRdreg sa => exact Laws.Fields.hmhRdreg sa
  | hmhRdmin sa => exact Laws.Fields.hmhRdmin sa
  | mhSer sa => exact Laws.Fields.mhSer sa
  | mhDes sa => exact Laws.Fields.mhDes sa
  | hllSer sa => exact Laws.Fields.hllSer sa
  | hllDes sa => exact Laws.Fields.hllDes sa

/-! ### The decoder as one condition (R96) -/

section

variable {nslot : Nat} {w : Word} {i : Instr} {row : OpRow}

theorem decode_of_opRow_none (h : opRow (opField w) = none) : decode nslot w = .error .reservedOpcode := by
  simp [decode, h]

/-- A word with a row decodes to the command the row makes of its fields, exactly if its unused fields are zero and
its used ones in range; else it is rejected. -/
theorem decode_of_opRow_some (h : opRow (opField w) = some row) :
    (UnusedZero row.form w ∧ UsedInRange nslot (opField w) row.form (saField w) (sbField w) (immField w) ∧
      decode nslot w = .ok (row.make (saField w) (sbField w) (immField w))) ∨
    (¬ (UnusedZero row.form w ∧ UsedInRange nslot (opField w) row.form (saField w) (sbField w) (immField w)) ∧
      ∃ e, decode nslot w = .error e) := by
  simp only [decode, h]
  split
  · next hmask => exact .inr ⟨fun ⟨hzero, _⟩ => hmask (and_staticMask_eq_iff.2 hzero), _, rfl⟩
  next hmask =>
  split
  · next hA => exact .inr ⟨fun ⟨_, hrange, _⟩ => hA.2 (hrange hA.1), _, rfl⟩
  next hA =>
  split
  · next hB => exact .inr ⟨fun ⟨_, _, hrange, _⟩ => hB.2 (hrange hB.1), _, rfl⟩
  next hB =>
  split
  · next hM => exact .inr ⟨fun ⟨_, _, _, hrange⟩ => hM.2 (hrange hM.1), _, rfl⟩
  next hM =>
  exact .inl ⟨and_staticMask_eq_iff.1 (not_not.1 hmask), ⟨by tauto, by tauto, by tauto⟩, rfl⟩

theorem decode_ok_iff : decode nslot w = .ok i ↔ ∃ row, opRow (opField w) = some row ∧ UnusedZero row.form w ∧
    UsedInRange nslot (opField w) row.form (saField w) (sbField w) (immField w) ∧
    row.make (saField w) (sbField w) (immField w) = i := by
  cases hrow : opRow (opField w) with
  | none => simp [decode_of_opRow_none hrow]
  | some row =>
    rcases decode_of_opRow_some (nslot := nslot) hrow with ⟨hzero, hrange, hd⟩ | ⟨hnot, e, hd⟩
    · simp [hd, hzero, hrange]
    · simpa [hd] using fun hzero hrange => absurd ⟨hzero, hrange⟩ hnot

/-- Where OP has a row, R97's list says that an unused field is not zero or a used one out of range. -/
theorem illegalWord_iff_of_opRow_some (h : opRow (opField w) = some row) : illegalWord nslot w ↔
    ¬ (UnusedZero row.form w ∧
      UsedInRange nslot (opField w) row.form (saField w) (sbField w) (immField w)) := by
  obtain ⟨hA, hB, hI⟩ := opRow_form h
  have hop : opField w ∉ reservedOps := fun hres =>
    absurd ((opRow_eq_none_iff (opField_lt w)).2 hres) (by simp [h])
  have hmask : takesMask (opField w) = true ↔ opField w = 0x14 ∨ opField w = 0x19 := by simp [takesMask]
  rw [iff_not_comm]
  simp only [illegalWord, UnusedZero, UsedInRange, slotOk, maskOk, saField_val, sbField_val, immField_toNat,
    ← opField_eq, hop, hmask, ← hA, ← hB, ← hI, not_or, not_and, not_not, not_le, ne_eq, Bool.not_eq_true,
    Bool.not_eq_false, not_false_eq_true, true_and, and_assoc]

theorem decode_error_iff : (∃ e, decode nslot w = .error e) ↔ illegalWord nslot w := by
  cases hrow : opRow (opField w) with
  | none =>
    have hres := (opRow_eq_none_iff (opField_lt w)).1 hrow
    rw [opField_eq] at hres
    exact iff_of_true ⟨_, decode_of_opRow_none hrow⟩ (.inl hres)
  | some row =>
    rw [illegalWord_iff_of_opRow_some hrow]
    rcases decode_of_opRow_some (nslot := nslot) hrow with ⟨hzero, hrange, hd⟩ | ⟨hnot, e, hd⟩
    · simp [hd, hzero, hrange]
    · exact iff_of_true ⟨e, hd⟩ hnot

/-- The round trip from a command. -/
theorem decode_encode (h : i.wellFormed nslot = true) : decode nslot (encode i) = .ok i := by
  obtain ⟨op, sa, sb, imm, row, hword, hop, hrow, rfl, hA, hB, hI⟩ := fields_statement i
  obtain ⟨hopw, hsaw, hsbw, hrsv, himmw⟩ := bits_assemble hop sa.isLt sb.isLt imm.isLt
  rw [← hword] at hopw hsaw hsbw hrsv himmw
  have hsa : saField (encode (row.make sa sb imm)) = sa := Fin.ext ((saField_val _).trans hsaw)
  have hsb : sbField (encode (row.make sa sb imm)) = sb := Fin.ext ((sbField_val _).trans hsbw)
  have himm : immField (encode (row.make sa sb imm)) = imm :=
    BitVec.eq_of_toNat_eq ((immField_toNat _).trans himmw)
  rw [decode_ok_iff, opField_eq, hopw, hsa, hsb, himm]
  refine ⟨row, hrow, ⟨hrsv, fun h => ?_, fun h => ?_, fun h => ?_⟩, (wellFormed_make hrow ..).1 h, rfl⟩
  · rw [hsaw, hA h]; rfl
  · rw [hsbw, hB h]; rfl
  · rw [himmw, hI (usesImm_eq_false_iff.1 h)]; rfl

/-- The encoder gives the word of the rule's "Encoding" line: no field carries into another or out of the word. -/
theorem encode_toNat (i : Instr) : (encode i).toNat = ruleWord i := by
  cases i <;> simp only [encode, ruleWord, assemble, BitVec.toNat_ofNat] <;> omega

theorem wellFormed_of_decode (h : decode nslot w = .ok i) : i.wellFormed nslot = true := by
  obtain ⟨row, hrow, -, hrange, rfl⟩ := decode_ok_iff.1 h
  exact (wellFormed_make hrow ..).2 hrange

/-- The round trip from a word. -/
theorem encode_of_decode (h : decode nslot w = .ok i) : encode i = w := by
  obtain ⟨row, hrow, ⟨hrsv, hA, hB, hI⟩, -, rfl⟩ := decode_ok_iff.1 h
  rw [encode_make hrow, opField_eq, saField_val, sbField_val, immField_toNat]
  conv_rhs => rw [← assemble_fields hrsv]
  congr 1
  · exact ite_eq_left_iff.2 fun h => (hA (by simpa using h)).symm
  · exact ite_eq_left_iff.2 fun h => (hB (by simpa using h)).symm
  · exact ite_eq_left_iff.2 fun h => (hI (by simpa using h)).symm

end

/-! ### The obligations -/

/-- Settles O1: the fields of a command's word are those its row of the opcode map makes the command from. -/
theorem decodeOfEncodeIsTheCommand : Obligations.DecodeOfEncodeIsTheCommand := by
  intro nslot i h
  have hword : BitVec.ofNat 32 (ruleWord i) = encode i := by
    rw [← encode_toNat, BitVec.ofNat_toNat, BitVec.setWidth_eq]
  exact ⟨decode_encode h, encode_toNat i, hword ▸ decode_encode h⟩

/-- Settles O2: no bit of a word that decodes is dropped, and its operands passed the decoder's range checks. -/
theorem encodeOfDecodeIsTheWord : Obligations.EncodeOfDecodeIsTheWord :=
  fun _ _ _ h => ⟨encode_of_decode h, wellFormed_of_decode h⟩

/-- Settles O3: the decoder's checks are R97's list, and the engine completes a rejected word. -/
theorem illegalEncodingsGiveIllegalCommand : Obligations.IllegalEncodingsGiveIllegalCommand := by
  refine fun s w => ⟨decode_error_iff, fun h => ?_⟩
  obtain ⟨e, hd⟩ := decode_error_iff.2 h
  exact runCommand_illegal hd

/-- Settles O4: each of the words is run through the decoder. -/
theorem specWordsDecodeToTheirCommands : Obligations.SpecWordsDecodeToTheirCommands :=
  ⟨rfl, rfl, rfl, rfl, rfl, rfl, rfl, rfl, rfl, rfl, rfl⟩

end Sys2Proof.Proofs
end

section
/-! PROOFS. The bit operations (40_bitops.md): each primitive in the words of its rule, and what the three commands that
read it out write. -/

namespace Sys2Proof.Proofs

open Sys2Proof Sys2Proof.Machine

/-! ### Leading zeros (R120) -/

theorem size_eq_log2_add_one {n : Nat} (h : n ≠ 0) : n.size = n.log2 + 1 :=
  Nat.le_antisymm (Nat.size_le.2 Nat.lt_log2_self) (Nat.lt_size.2 (Nat.log2_self_le h))

theorem lzc32_zero : lzc32 0 = 32 := rfl

/-- The highest bit of a word that is not 0 is the one at its logarithm. -/
theorem lzc32_of_ne_zero {x : Word} (h : x ≠ 0) : lzc32 x = 31 - x.toNat.log2 := by
  have hsum := lzc32_add_size x
  rw [size_eq_log2_add_one (BitVec.toNat_ne_iff_ne.2 h)] at hsum
  omega

theorem lzc32_eq_ite (x : Word) : lzc32 x = if x = 0 then 32 else 31 - x.toNat.log2 := by
  split
  case isTrue h => rw [h, lzc32_zero]
  case isFalse h => exact lzc32_of_ne_zero h

/-! ### A field of bits (R121) -/

section

variable (v : Word) (hi lo : Nat)

theorem testBit_extractBits (j : Nat) :
    (extractBits v hi lo).testBit j = (decide (lo + j < hi) && v.getLsbD (lo + j)) := by
  rw [extractBits, Nat.testBit_mod_two_pow, Nat.testBit_div_two_pow, BitVec.testBit_toNat, Nat.add_comm j lo]
  congr 2
  exact propext (by omega)

/-- No field is wider than the word it is taken from. -/
theorem extractBits_lt : extractBits v hi lo < 2 ^ 32 :=
  calc extractBits v hi lo ≤ v.toNat / 2 ^ lo := Nat.mod_le _ _
    _ ≤ v.toNat := Nat.div_le_self _ _
    _ < 2 ^ 32 := v.isLt

end

/-! ### Bits that are 1 (R122) -/

theorem onesBelow_eq_count (x : Word) (n : Nat) : onesBelow x n = Nat.count (fun j => x.getLsbD j = true) n := by
  induction n with
  | zero => rfl
  | succ n ih => rw [onesBelow, Nat.count_succ, ih, Nat.add_comm]

theorem popcount32_eq_card (x : Word) : popcount32 x = ((Finset.range 32).filter fun j => x.getLsbD j = true).card := by
  rw [popcount32, onesBelow_eq_count, Nat.count_eq_card_filter_range]

/-! ### The commands (R123 to R125) -/

section

variable (s : State)

theorem exec_lzc32 : exec .lzc32 s = finish (setResult (BitVec.ofNat 32 (lzc32 s.regs.arg)) 0 s) := rfl

theorem exec_popcnt32 : exec .popcnt32 s = finish (setResult (BitVec.ofNat 32 (popcount32 s.regs.arg)) 0 s) := rfl

/-- The range check of R124 fails. -/
theorem exec_extract_of_out_of_range {hi lo : BitVec 8} (h : 32 < hi.toNat ∨ hi.toNat < lo.toNat) :
    exec (.extract hi lo) s = raise .invalidArgument s := by
  have hcheck : (decide (hi.toNat ≤ 32) && decide (lo.toNat ≤ hi.toNat)) = false := by
    rw [Bool.and_eq_false_iff, decide_eq_false_iff_not, decide_eq_false_iff_not, Nat.not_le, Nat.not_le]
    exact h
  rw [exec, execExtract, hcheck, require_false, raise]

theorem exec_extract_of_in_range {hi lo : BitVec 8} (hhi : hi.toNat ≤ 32) (hlo : lo.toNat ≤ hi.toNat) :
    exec (.extract hi lo) s =
      finish (setResult (BitVec.ofNat 32 (extractBits s.regs.arg hi.toNat lo.toNat)) 0 s) := by
  rw [exec, execExtract, decide_eq_true hhi, decide_eq_true hlo, Bool.and_self, require_true]

end

/-! ### The obligations -/

/-- Settles O29: leading zeros and the length of the value make up the word. -/
theorem leadingZeroCount : Obligations.LeadingZeroCount := by
  intro s
  rw [exec_lzc32, lzc32_eq_ite, finish]

/-- Settles O30: the field fits RESULT, so no bit of it is cut off there. -/
theorem extractedField : Obligations.ExtractedField := by
  intro s hi lo
  refine ⟨exec_extract_of_out_of_range s, fun hhi hlo => ?_⟩
  refine ⟨_, exec_extract_of_in_range s hhi hlo, ?_, fun j hj => ?_⟩
  · exact Nat.mod_eq_of_lt (extractBits_lt ..)
  · rw [BitVec.getLsbD_ofNat, decide_eq_true hj, Bool.true_and, testBit_extractBits]

/-- Settles O31: the count over the bit positions, one at a time, is the number of those at which ARG holds 1. -/
theorem populationCount : Obligations.PopulationCount := by
  intro s
  rw [exec_popcnt32, popcount32_eq_card, finish]

end Sys2Proof.Proofs
end

section
/-! PROOFS. Permutations (41_permutation.md): the 64-bit arithmetic, what MH_PERM and MH_RDPERM read, and the generation
as a run over the generator's draws. -/

namespace Sys2Proof.Proofs

open Sys2Proof Sys2Proof.Machine Sys2Proof.Claim

/-! ### The 64-bit arithmetic (R133, R134) -/

/-- `2^61` is 1 modulo `2^61 - 1`, so the top bits count as they stand. -/
theorem folded_modEq (t : Nat) : t % 2 ^ 61 + t / 2 ^ 61 ≡ t [MOD Config.mersennePrime] :=
  calc t % 2 ^ 61 + t / 2 ^ 61
    _ ≡ t % 2 ^ 61 + t / 2 ^ 61 + Config.mersennePrime * (t / 2 ^ 61) [MOD Config.mersennePrime] := by
        simp [Nat.ModEq]
    _ = t := by
        rw [Config.mersennePrime]
        omega

/-- One fold leaves a 64-bit value below `2p`, so one subtraction ends the reduction. -/
theorem reduceMersenne_eq_mod {t : Nat} (h : t < 2 ^ 64) : reduceMersenne t = t % Config.mersennePrime := by
  have hlt : t % 2 ^ 61 + t / 2 ^ 61 < Config.mersennePrime + Config.mersennePrime := by
    rw [Config.mersennePrime]
    omega
  rw [← folded_modEq t, reduceMersenne]
  split
  case isTrue hle =>
    rw [Nat.mod_eq_sub_mod hle]
    exact (Nat.mod_eq_of_lt (by omega)).symm
  case isFalse hle => exact (Nat.mod_eq_of_lt (Nat.not_le.1 hle)).symm

theorem mul_add_le (a b x : Word) : a.toNat * x.toNat + b.toNat ≤ 2 ^ 64 - 2 ^ 32 := by
  have hmul : a.toNat * x.toNat ≤ (2 ^ 32 - 1) * (2 ^ 32 - 1) :=
    Nat.mul_le_mul (Nat.le_sub_one_of_lt a.isLt) (Nat.le_sub_one_of_lt x.isLt)
  omega

/-- The 64-bit multiply-add does not wrap around. -/
theorem mul_add_toNat (a b x : Word) :
    (a.setWidth 64 * x.setWidth 64 + b.setWidth 64 : BitVec 64).toNat = a.toNat * x.toNat + b.toNat := by
  have hle := mul_add_le a b x
  have hwide (w : Word) : (w.setWidth 64).toNat = w.toNat := BitVec.toNat_setWidth_of_le (by decide)
  rw [BitVec.toNat_add, BitVec.toNat_mul, hwide, hwide, hwide, Nat.mod_add_mod, Nat.mod_eq_of_lt (by omega)]

theorem permBy64_eq_perm (a b x : Word) : permBy64 a b x = perm a b x := by
  have hle := mul_add_le a b x
  rw [permBy64, perm, mul_add_toNat, reduceMersenne_eq_mod (by omega)]

theorem perm_toNat (a b x : Word) : (perm a b x).toNat = permFormula a b x := BitVec.toNat_ofNat _ _

/-! ### The commands (R135, R136) -/

/-- What MH_PERM and MH_RDPERM share: `k` goes on with the parameters of permutation ARG of slot A. -/
def onPermutation (sa : SlotNo) (s : State) (k : Word × Word → StepOutcome) : StepOutcome :=
  onMinHash sa s fun m => require (decide (argIndex s < m.k)) .invalidArgument s (k (m.perm.getD (argIndex s) (0, 0)))

section

variable {sa : SlotNo} {s : State} {m : MinHash}

theorem exec_mhPerm : exec (.mhPerm sa) s =
    onPermutation sa s fun ab => finish (setResult (perm ab.1 ab.2 s.regs.hash) 0 s) := rfl

theorem exec_mhRdperm : exec (.mhRdperm sa) s = onPermutation sa s fun ab => finish (setResult ab.1 ab.2 s) := rfl

variable (k : Word × Word → StepOutcome)

theorem onPermutation_of_not_minhash (h : ∀ m, readSlot sa s ≠ .minhash m) :
    onPermutation sa s k = .next (complete .slotKind s) := by
  obtain ⟨m, hm, -⟩ | ⟨-, hraise⟩ := onMinHash_cases sa s _
  · exact absurd hm (h m)
  · exact hraise

theorem onPermutation_of_minhash (h : readSlot sa s = .minhash m) : onPermutation sa s k =
    require (decide (argIndex s < m.k)) .invalidArgument s (k (m.perm.getD (argIndex s) (0, 0))) := by
  rw [onPermutation, onMinHash, h]

theorem onPermutation_of_index_ge (h : readSlot sa s = .minhash m) (hk : m.k ≤ s.regs.arg.toNat) :
    onPermutation sa s k = .next (complete .invalidArgument s) := by
  rw [onPermutation_of_minhash k h, argIndex, decide_eq_false (Nat.not_lt.2 hk), require_false]

theorem onPermutation_of_index_lt {ab : Word × Word} (h : readSlot sa s = .minhash m) (hk : s.regs.arg.toNat < m.k)
    (hab : m.perm[s.regs.arg.toNat]? = some ab) : onPermutation sa s k = k ab := by
  rw [onPermutation_of_minhash k h, argIndex, decide_eq_true hk, require_true, List.getD_eq_getElem?_getD, hab,
    Option.getD_some]

end

/-! ### The generator's draws (R130) -/

/-- The generator's state after `n` draws. -/
def stateAfter (g : Prng) (n : Nat) (st : BitVec g.stateBits) : BitVec g.stateBits := (fun st => (g.next st).2)^[n] st

/-- Draw number `n` is the first nonzero one from `st`. -/
def FirstNonzero (g : Prng) (n : Nat) (st : BitVec g.stateBits) : Prop :=
  (drawAt g n st).1 ≠ 0 ∧ ∀ j < n, (drawAt g j st).1 = 0

section

variable {g : Prng} {n : Nat} {st : BitVec g.stateBits}

theorem stateAfter_add (g : Prng) (m n : Nat) (st : BitVec g.stateBits) :
    stateAfter g (m + n) st = stateAfter g n (stateAfter g m st) := by
  rw [Nat.add_comm, stateAfter, Function.iterate_add_apply, stateAfter, stateAfter]

theorem drawAt_eq_next (g : Prng) (n : Nat) (st : BitVec g.stateBits) : drawAt g n st = g.next (stateAfter g n st) := by
  induction n generalizing st with
  | zero => rfl
  | succ n ih => exact ih _

/-- The draws after the first `m` are the draws from the state these leave. -/
theorem drawAt_add (g : Prng) (m n : Nat) (st : BitVec g.stateBits) :
    drawAt g (m + n) st = drawAt g n (stateAfter g m st) := by
  rw [drawAt_eq_next, stateAfter_add, drawAt_eq_next]

theorem drawAt_snd (g : Prng) (n : Nat) (st : BitVec g.stateBits) : (drawAt g n st).2 = stateAfter g (n + 1) st := by
  rw [drawAt_eq_next, stateAfter_add]
  rfl

/-- Some draw is the first nonzero one, or every draw is zero. -/
theorem exists_firstNonzero_or_zeros (g : Prng) (st : BitVec g.stateBits) :
    (∃ n, FirstNonzero g n st) ∨ ∀ n, (drawAt g n st).1 = 0 := by
  refine or_iff_not_imp_right.2 fun h => ?_
  have hex : ∃ n, (drawAt g n st).1 ≠ 0 := not_forall.1 h
  exact ⟨Nat.find hex, Nat.find_spec hex, fun j hj => not_not.1 (Nat.find_min hex hj)⟩

/-- The states up to the first nonzero draw are distinct: where one came back, that draw would come before itself. -/
theorem FirstNonzero.stateAfter_ne (h : FirstNonzero g n st) {i j : Nat} (hij : i < j) (hj : j ≤ n) :
    stateAfter g i st ≠ stateAfter g j st := by
  obtain ⟨hne, hzero⟩ := h
  intro heq
  refine hne ?_
  calc (drawAt g n st).1
    _ = (drawAt g (i + (n - j)) st).1 := by rw [drawAt_add, heq, ← drawAt_add, Nat.add_sub_cancel' hj]
    _ = 0 := hzero _ (by omega)

/-- A first nonzero draw comes within as many draws as the generator has states (log 2). -/
theorem FirstNonzero.lt_states (h : FirstNonzero g n st) : n < 2 ^ g.stateBits := by
  have hinj : Set.InjOn (fun i => (stateAfter g i st).toNat) (Finset.range (n + 1)) := by
    intro i hi j hj heq
    have hstate := BitVec.eq_of_toNat_eq heq
    rw [Finset.mem_coe, Finset.mem_range] at hi hj
    obtain hlt | rfl | hlt := Nat.lt_trichotomy i j
    · exact absurd hstate (h.stateAfter_ne hlt (by omega))
    · rfl
    · exact absurd hstate.symm (h.stateAfter_ne hlt (by omega))
  have hcard := Finset.card_le_card_of_injOn (t := Finset.range (2 ^ g.stateBits)) _
    (fun i _ => Finset.mem_coe.2 (Finset.mem_range.2 (stateAfter g i st).isLt)) hinj
  rwa [Finset.card_range, Finset.card_range] at hcard

end

/-! ### Drawing a multiplier (R131) -/

section

variable {g : Prng} {n : Nat} {st : BitVec g.stateBits}

theorem drawNonzero_succ_of_ne_zero {fuel : Nat} (h : (g.next st).1 ≠ 0) :
    drawNonzero g (fuel + 1) st = some (g.next st) := if_pos h

theorem drawNonzero_succ_of_zero {fuel : Nat} (h : (g.next st).1 = 0) :
    drawNonzero g (fuel + 1) st = drawNonzero g fuel (g.next st).2 := if_neg (not_not.2 h)

theorem FirstNonzero.drawNonzero_of_lt {fuel : Nat} (h : FirstNonzero g n st) (hn : n < fuel) :
    drawNonzero g fuel st = some (drawAt g n st) := by
  obtain ⟨hne, hzero⟩ := h
  induction n generalizing st fuel with
  | zero =>
    obtain ⟨fuel, rfl⟩ := Nat.exists_eq_add_one.2 hn
    exact drawNonzero_succ_of_ne_zero hne
  | succ n ih =>
    obtain ⟨fuel, rfl⟩ := Nat.exists_eq_add_one.2 (Nat.zero_lt_of_lt hn)
    rw [drawNonzero_succ_of_zero (hzero 0 n.succ_pos)]
    exact ih (Nat.lt_of_succ_lt_succ hn) hne fun j hj => hzero (j + 1) (Nat.succ_lt_succ hj)

theorem FirstNonzero.drawNonzero_eq (h : FirstNonzero g n st) :
    drawNonzero g (2 ^ g.stateBits) st = some (drawAt g n st) := h.drawNonzero_of_lt h.lt_states

theorem drawNonzero_of_zeros (fuel : Nat) (h : ∀ n, (drawAt g n st).1 = 0) : drawNonzero g fuel st = none := by
  induction fuel generalizing st with
  | zero => rfl
  | succ fuel ih =>
    rw [drawNonzero_succ_of_zero (h 0)]
    exact ih fun n => h (n + 1)

theorem drawNonzero_eq_none_iff : drawNonzero g (2 ^ g.stateBits) st = none ↔ ∀ n, (drawAt g n st).1 = 0 := by
  refine ⟨fun hnone => ?_, drawNonzero_of_zeros _⟩
  obtain ⟨n, hn⟩ | hzeros := exists_firstNonzero_or_zeros g st
  · rw [hn.drawNonzero_eq] at hnone
    cases hnone
  · exact hzeros

end

/-! ### The generation, index by index (R131, R132) -/

section

variable {g : Prng} {k : Nat} {st : BitVec g.stateBits}

theorem FirstNonzero.genPerms_succ {n : Nat} (h : FirstNonzero g n st) (k : Nat) : genPerms g (k + 1) st =
    (genPerms g k (drawAt g (n + 1) st).2).map fun rest =>
      ((drawAt g n st).1, (drawAt g (n + 1) st).1) :: rest := by
  have hb : drawAt g (n + 1) st = g.next (drawAt g n st).2 := by rw [drawAt_eq_next, drawAt_snd]
  simp only [genPerms, h.drawNonzero_eq, hb]
  cases genPerms g k (g.next (drawAt g n st).2).2 <;> rfl

theorem genPerms_succ_of_zeros (h : ∀ n, (drawAt g n st).1 = 0) (k : Nat) : genPerms g (k + 1) st = none := by
  simp only [genPerms, drawNonzero_of_zeros _ h]

/-- What a generation that ends did for its first index. -/
theorem genPerms_succ_eq_some {ps : List (Word × Word)} (h : genPerms g (k + 1) st = some ps) :
    ∃ n rest, FirstNonzero g n st ∧ genPerms g k (drawAt g (n + 1) st).2 = some rest ∧
      ps = ((drawAt g n st).1, (drawAt g (n + 1) st).1) :: rest := by
  obtain ⟨n, hn⟩ | hzeros := exists_firstNonzero_or_zeros g st
  · rw [hn.genPerms_succ, Option.map_eq_some_iff] at h
    obtain ⟨rest, hrest, rfl⟩ := h
    exact ⟨n, rest, hn, hrest, rfl⟩
  · rw [genPerms_succ_of_zeros hzeros] at h
    cases h

theorem genPerms_isSome (hg : prngNonzeroEventually g) (k : Nat) (st : BitVec g.stateBits) :
    (genPerms g k st).isSome = true := by
  induction k generalizing st with
  | zero => rfl
  | succ k ih =>
    obtain ⟨n, hn⟩ | hzeros := exists_firstNonzero_or_zeros g st
    · rw [hn.genPerms_succ, Option.isSome_map]
      exact ih _
    · obtain ⟨n, hne⟩ := hg st
      exact absurd (hzeros n) hne

theorem genPerms_take {ps : List (Word × Word)} (h : genPerms g k st = some ps) {j : Nat} (hj : j ≤ k) :
    genPerms g j st = some (ps.take j) := by
  induction j generalizing k st ps with
  | zero => rfl
  | succ j ih =>
    obtain ⟨k, rfl⟩ := Nat.exists_eq_add_one.2 (Nat.zero_lt_of_lt hj)
    obtain ⟨n, rest, hn, hrest, rfl⟩ := genPerms_succ_eq_some h
    rw [hn.genPerms_succ, ih hrest (Nat.le_of_succ_le_succ hj), Option.map_some, List.take_succ_cons]

end

/-! ### The order of the draws (R131) -/

/-- The draw that index `i` starts at: the one after the `b` of index `i - 1`. -/
def startDraw (aDraw : Nat → Nat) (i : Nat) : Nat := if i = 0 then 0 else aDraw (i - 1) + 2

/-- `ps` holds the draws from `st` in order, `aDraw i` being the number of the draw index `i` takes as its `a`. -/
def DrawsInOrder (g : Prng) (k : Nat) (st : BitVec g.stateBits) (ps : List (Word × Word)) (aDraw : Nat → Nat) : Prop :=
  ∀ i < k, startDraw aDraw i ≤ aDraw i ∧
    (∀ j, startDraw aDraw i ≤ j → j < aDraw i → (drawAt g j st).1 = 0) ∧
    (drawAt g (aDraw i) st).1 ≠ 0 ∧
    ps[i]? = some ((drawAt g (aDraw i) st).1, (drawAt g (aDraw i + 1) st).1)

/-- The numbering with an index put in front that takes draws `n` and `n + 1`. -/
def consDraw (n : Nat) (aDraw : Nat → Nat) : Nat → Nat
  | 0 => n
  | i + 1 => n + 2 + aDraw i

theorem startDraw_consDraw_succ (n : Nat) (aDraw : Nat → Nat) (i : Nat) :
    startDraw (consDraw n aDraw) (i + 1) = n + 2 + startDraw aDraw i := by
  cases i <;> rfl

section

variable {g : Prng} {k n : Nat} {st : BitVec g.stateBits} {ps rest : List (Word × Word)}

theorem DrawsInOrder.cons {aDraw : Nat → Nat} (hn : FirstNonzero g n st)
    (hrest : DrawsInOrder g k (drawAt g (n + 1) st).2 rest aDraw) :
    DrawsInOrder g (k + 1) st (((drawAt g n st).1, (drawAt g (n + 1) st).1) :: rest) (consDraw n aDraw) := by
  rw [drawAt_snd] at hrest
  obtain ⟨hne, hzero⟩ := hn
  intro i hi
  cases i with
  | zero => exact ⟨Nat.zero_le n, fun j _ hj => hzero j hj, hne, rfl⟩
  | succ i =>
    obtain ⟨hstart, hbefore, hnonzero, hpair⟩ := hrest i (Nat.lt_of_succ_lt_succ hi)
    rw [startDraw_consDraw_succ, consDraw, List.getElem?_cons_succ, Nat.add_assoc (n + 2), drawAt_add, drawAt_add]
    refine ⟨Nat.add_le_add_left hstart _, fun j hlo hhi => ?_, hnonzero, hpair⟩
    obtain ⟨j, rfl⟩ := Nat.exists_eq_add_of_le (Nat.le_of_add_right_le hlo)
    rw [drawAt_add]
    exact hbefore j (Nat.le_of_add_le_add_left hlo) (Nat.lt_of_add_lt_add_left hhi)

theorem exists_drawsInOrder (h : genPerms g k st = some ps) : ∃ aDraw, DrawsInOrder g k st ps aDraw := by
  induction k generalizing st ps with
  | zero => exact ⟨id, nofun⟩
  | succ k ih =>
    obtain ⟨n, rest, hn, hrest, rfl⟩ := genPerms_succ_eq_some h
    obtain ⟨aDraw, horder⟩ := ih hrest
    exact ⟨consDraw n aDraw, horder.cons hn⟩

end

/-! ### The obligations -/

/-- Settles O32: the multiply-add fits 64 bits and one fold leaves less than `2p`. -/
theorem sixtyFourBitArithmeticIsExact : Obligations.SixtyFourBitArithmeticIsExact :=
  ⟨fun a b x => ⟨mul_add_le a b x, permBy64_eq_perm a b x, perm_toNat a b x⟩, fun _ => reduceMersenne_eq_mod,
    by decide, by decide⟩

/-- Settles O33: both commands go through the same checks to permutation ARG. -/
theorem permutationReads : Obligations.PermutationReads := by
  intro s sa
  rw [exec_mhPerm, exec_mhRdperm]
  refine ⟨fun h => ⟨onPermutation_of_not_minhash _ h, onPermutation_of_not_minhash _ h⟩, fun m hm => ⟨fun hk => ?_,
    fun hk a b hab => ?_⟩⟩
  · exact ⟨onPermutation_of_index_ge _ hm hk, onPermutation_of_index_ge _ hm hk⟩
  · rw [← perm_toNat, BitVec.ofNat_toNat, BitVec.setWidth_eq]
    exact ⟨onPermutation_of_index_lt _ hm hk hab, onPermutation_of_index_lt _ hm hk hab⟩

/-- Settles O34: each index takes the first nonzero draw and the next, and the rest is generated from there. -/
theorem generatedPermutations : Obligations.GeneratedPermutations := by
  intro g seed k ps h
  obtain ⟨hlen, hne⟩ := genPerms_spec h
  exact ⟨hlen, hne, fun _ => genPerms_take h, exists_drawsInOrder h⟩

/-- Settles O35: a generator that gives as many zeros as it has states has come back to a state, so no nonzero draw
follows. -/
theorem generationHangsExactlyOnZeros : Obligations.GenerationHangsExactlyOnZeros :=
  fun _ => ⟨fun _ => drawNonzero_eq_none_iff, fun _ _ hne hzero => FirstNonzero.drawNonzero_eq ⟨hne, hzero⟩,
    fun _ _ => rfl, fun _ => rfl, fun _ k _ hne hzero => FirstNonzero.genPerms_succ ⟨hne, hzero⟩ k,
    fun _ k hzeros => genPerms_succ_of_zeros hzeros k, fun hg _ k => genPerms_isSome hg k _⟩

end Sys2Proof.Proofs
end

section
/-! PROOFS. MinHash signatures (42_minhash.md): what each command does to a signature, its hash values as minima, and the
agreement over a mask. -/

namespace Sys2Proof.Proofs

open Sys2Proof Sys2Proof.Machine Sys2Proof.Claim

/-! ### Slots that hold a signature (10_state.md R31) -/

section

variable {n : SlotNo} {s : State} {m : MinHash}

theorem readSlot_complete (c : ResultCode) (n : SlotNo) (s : State) : readSlot n (complete c s) = readSlot n s := rfl

theorem onMinHash_of_minhash (h : readSlot n s = .minhash m) (k : MinHash → StepOutcome) : onMinHash n s k = k m := by
  rw [onMinHash, h]

theorem onMinHash_of_not_minhash (h : ∀ m, readSlot n s ≠ .minhash m) (k : MinHash → StepOutcome) :
    onMinHash n s k = .next (complete .slotKind s) := by
  obtain ⟨m, hm, -⟩ | ⟨-, hraise⟩ := onMinHash_cases n s k
  · exact absurd hm (h m)
  · exact hraise

theorem onHll_of_minhash (h : readSlot n s = .minhash m) (k : Hll → StepOutcome) :
    onHll n s k = .next (complete .slotKind s) := by
  rw [onHll, h, raise]

theorem onHmh_of_minhash (h : readSlot n s = .minhash m) (k : Hmh → StepOutcome) :
    onHmh n s k = .next (complete .slotKind s) := by
  rw [onHmh, h, raise]

/-- A slot number at or above NSLOT reads EMPTY, so a signature is in a slot that exists. -/
theorem lt_length_of_minhash (h : readSlot n s = .minhash m) : n.val < s.slots.length := by
  by_contra hn
  rw [readSlot, List.getD_eq_default _ _ (Nat.not_lt.1 hn)] at h
  cases h

theorem shaped_of_minhash (hs : s.slotsShaped) (h : readSlot n s = .minhash m) : m.shaped s.params :=
  of_decide_eq_true (h ▸ readSlot_shaped hs n : (Slot.minhash m).shaped s.params = true)

end

/-! ### Hash values as minima (R141, R143) -/

theorem umin_toNat {w : Nat} (a b : BitVec w) : (umin a b).toNat = min a.toNat b.toNat := by
  rw [min_comm, min_def_lt]
  exact apply_ite BitVec.toNat _ _ _

theorem getD_digestValues {perms : List (Word × Word)} {hv : List Word} {i : Nat} (hp : i < perms.length)
    (hi : i < hv.length) (h : Word) : (digestValues perms hv h).getD i 0 =
      umin (hv.getD i 0) (perm (perms.getD i (0, 0)).1 (perms.getD i (0, 0)).2 h) := by
  rw [List.getD_eq_getElem _ _ (by rw [digestValues, List.length_zipWith]; omega), List.getD_eq_getElem _ _ hp,
    List.getD_eq_getElem _ _ hi]
  exact List.getElem_zipWith

/-- The hash values after folding in a list of hashes, one by one. -/
def digestAll (perms : List (Word × Word)) (hv hs : List Word) : List Word := hs.foldl (digestValues perms) hv

section

variable {perms : List (Word × Word)} {hv : List Word} (hlen : perms.length = hv.length)
include hlen

theorem digestAll_length (hs : List Word) : (digestAll perms hv hs).length = hv.length := by
  induction hs generalizing hv with
  | nil => rfl
  | cons h hs ih =>
    have hstep := digestValues_length h hlen
    exact (ih (hlen.trans hstep.symm)).trans hstep

/-- A hash value after digesting is the least of the old one and the permutations of the hashes. -/
theorem le_digestAll_iff {i : Nat} (hi : i < hv.length) (hs : List Word) (v : Nat) :
    v ≤ ((digestAll perms hv hs).getD i 0).toNat ↔ v ≤ (hv.getD i 0).toNat ∧
      ∀ h ∈ hs, v ≤ (perm (perms.getD i (0, 0)).1 (perms.getD i (0, 0)).2 h).toNat := by
  induction hs generalizing hv with
  | nil => simp [digestAll]
  | cons h hs ih =>
    have hstep := digestValues_length h hlen
    have hrest := ih (hlen.trans hstep.symm) (hstep ▸ hi)
    rw [getD_digestValues (hlen ▸ hi) hi, umin_toNat, le_min_iff] at hrest
    rw [List.forall_mem_cons, ← and_assoc]
    exact hrest

/-- Merging what `xs` and `ys` gave is digesting both, in any order and multiplicity (R148). -/
theorem zipWith_umin_digestAll {xs ys zs : List Word} (hmem : ∀ h, h ∈ zs ↔ h ∈ xs ∨ h ∈ ys) :
    List.zipWith umin (digestAll perms hv xs) (digestAll perms hv ys) = digestAll perms hv zs := by
  refine List.ext_getElem (by simp [digestAll_length hlen]) fun i _ hi => ?_
  have hall (hs : List Word) : i < (digestAll perms hv hs).length := by
    rwa [digestAll_length hlen] at hi ⊢
  have hhv : i < hv.length := digestAll_length hlen zs ▸ hi
  rw [← List.getD_eq_getElem _ 0, ← List.getD_eq_getElem _ 0, getD_zipWith (hall xs) (hall ys)]
  refine BitVec.eq_of_toNat_eq (eq_of_forall_le_iff fun v => ?_)
  simp only [umin_toNat, le_min_iff, le_digestAll_iff hlen hhv, hmem, or_imp, forall_and]
  tauto

end

/-! ### MH_NEW (R140) -/

section

variable {s : State}

theorem kOperand_neg (h : s.regs.arg.getLsbD 31 = true) : kOperand s < 0 :=
  BitVec.toInt_neg_of_msb_true ((BitVec.msb_eq_getLsbD_last _).trans h)

theorem kOperand_eq_toNat (h : s.regs.arg.getLsbD 31 = false) : kOperand s = s.regs.arg.toNat :=
  BitVec.toInt_eq_toNat_of_msb ((BitVec.msb_eq_getLsbD_last _).trans h)

theorem kOperand_pos (hne : s.regs.arg ≠ 0) (hbit : s.regs.arg.getLsbD 31 = false) : 0 < kOperand s := by
  rw [kOperand_eq_toNat hbit, Int.natCast_pos]
  exact Nat.pos_of_ne_zero (BitVec.toNat_ne_iff_ne.2 hne)

theorem seedOperand_eq (s : State) :
    seedOperand s = BitVec.ofNat 64 (s.regs.seedHi.toNat * 2 ^ 32 + s.regs.seedLo.toNat) := by
  have hcat : (seedOperand s).toNat = s.regs.seedHi.toNat * 2 ^ 32 + s.regs.seedLo.toNat := by
    rw [seedOperand, BitVec.toNat_append, ← Nat.shiftLeft_add_eq_or_of_lt s.regs.seedLo.isLt, Nat.shiftLeft_eq]
  rw [← hcat, BitVec.ofNat_toNat, BitVec.setWidth_eq]

variable (sa : SlotNo)

theorem exec_mhNew_of_nonpos (h : kOperand s ≤ 0) : exec (.mhNew sa) s = .next (complete .invalidArgument s) := by
  rw [exec, execMhNew, mhNewWith, decide_eq_false (Int.not_lt.2 h), require_false]

theorem exec_mhNew_of_gt_kmax (hpos : 0 < kOperand s) (hmax : s.params.kmax < kOperand s) :
    exec (.mhNew sa) s = .next (complete .capacityExceeded s) := by
  rw [exec, execMhNew, mhNewWith, decide_eq_true hpos, require_true, decide_eq_false (Int.not_le.2 hmax), require_false]

section

variable (hpos : 0 < kOperand s) (hmax : kOperand s ≤ s.params.kmax)
include hpos hmax

theorem exec_mhNew_of_hang (hgen : permGen Config.prng (seedOperand s) (kOperand s).toNat = none) :
    exec (.mhNew sa) s = .next s := by
  simp only [exec, execMhNew, mhNewWith, decide_eq_true hpos, decide_eq_true hmax, require_true, hgen, hang]

theorem exec_mhNew_of_generated {ps : List (Word × Word)}
    (hgen : permGen Config.prng (seedOperand s) (kOperand s).toNat = some ps) : exec (.mhNew sa) s =
      .next (complete .ok (writeSlot sa (.minhash (freshMinHash (seedOperand s) (kOperand s).toNat ps)) s)) := by
  simp only [exec, execMhNew, mhNewWith, decide_eq_true hpos, decide_eq_true hmax, require_true, hgen, finish]

end

end

/-! ### MH_DIGEST and MH_MERGE (R141, R143) -/

section

variable {sa sb : SlotNo} {s : State} {m d o : MinHash}

theorem exec_mhDigest_of_minhash (h : readSlot sa s = .minhash m) : exec (.mhDigest sa) s =
    .next (complete .ok (writeSlot sa (.minhash { m with hv := digestValues m.perm m.hv s.regs.hash }) s)) :=
  onMinHash_of_minhash h _

theorem exec_mhMerge_of_minhash (hd : readSlot sa s = .minhash d) (ho : readSlot sb s = .minhash o) :
    exec (.mhMerge sa sb) s = require (d.seed == o.seed && d.k == o.k) .incompatibleSketch s
      (.next (complete .ok (writeSlot sa (.minhash { d with hv := List.zipWith umin d.hv o.hv }) s))) :=
  (onMinHash_of_minhash hd _).trans (onMinHash_of_minhash ho _)

theorem exec_mhMerge_of_compatible (hd : readSlot sa s = .minhash d) (ho : readSlot sb s = .minhash o)
    (hseed : d.seed = o.seed) (hk : d.k = o.k) : exec (.mhMerge sa sb) s =
      .next (complete .ok (writeSlot sa (.minhash { d with hv := List.zipWith umin d.hv o.hv }) s)) := by
  rw [exec_mhMerge_of_minhash hd ho, hseed, hk, beq_self_eq_true, beq_self_eq_true, Bool.and_self, require_true]

theorem exec_mhMerge_of_not_minhash (h : (∀ m, readSlot sa s ≠ .minhash m) ∨ ∀ m, readSlot sb s ≠ .minhash m) :
    exec (.mhMerge sa sb) s = .next (complete .slotKind s) := by
  obtain ⟨d, hd, he⟩ | ⟨-, he⟩ := onMinHash_cases sa s _
  · exact he.trans (onMinHash_of_not_minhash (h.resolve_left fun h => h d hd) _)
  · exact he

theorem exec_mhMerge_of_incompatible (hd : readSlot sa s = .minhash d) (ho : readSlot sb s = .minhash o)
    (h : d.seed ≠ o.seed ∨ d.k ≠ o.k) : exec (.mhMerge sa sb) s = .next (complete .incompatibleSketch s) := by
  have hcheck : (d.seed == o.seed && d.k == o.k) = false := by
    rwa [Bool.and_eq_false_iff, beq_eq_false_iff_ne, beq_eq_false_iff_ne]
  rw [exec_mhMerge_of_minhash hd ho, hcheck, require_false]

end

/-! ### Digesting a list (R148) -/

/-- The host has written `h` to HASH. -/
def withHash (h : Word) (s : State) : State := { s with regs := { s.regs with hash := h } }

theorem feed_cons {i : Instr} {h : Word} {s t : State} (he : exec i (withHash h s) = .next t) (hs : List Word) :
    feed i (h :: hs) s = feed i hs t := by
  rw [feed, ← withHash, he]

section

variable {sa : SlotNo} {s : State} {m : MinHash} (hm : readSlot sa s = .minhash m)
include hm

theorem exec_mhDigest_withHash (h : Word) : ∃ t, exec (.mhDigest sa) (withHash h s) = .next t ∧
    readSlot sa t = .minhash { m with hv := digestValues m.perm m.hv h } ∧ ∀ n, n ≠ sa → readSlot n t = readSlot n s :=
  ⟨_, exec_mhDigest_of_minhash hm, readSlot_writeSlot_same sa _ (withHash h s) (lt_length_of_minhash hm),
    fun _ hn => readSlot_writeSlot_other _ (withHash h s) hn⟩

/-- Digesting a list ends with its minima in the slot and every other slot as it was. -/
theorem feed_mhDigest (hs : List Word) : ∃ t, feed (.mhDigest sa) hs s = .next t ∧
    readSlot sa t = .minhash { m with hv := digestAll m.perm m.hv hs } ∧ ∀ n, n ≠ sa → readSlot n t = readSlot n s := by
  induction hs generalizing s m with
  | nil => exact ⟨s, rfl, hm, fun _ _ => rfl⟩
  | cons h hs ih =>
    obtain ⟨u, hexec, hslot, hother⟩ := exec_mhDigest_withHash hm h
    obtain ⟨t, hfeed, hslots, hothers⟩ := ih hslot
    exact ⟨t, (feed_cons hexec hs).trans hfeed, hslots, fun n hn => (hothers n hn).trans (hother n hn)⟩

end

/-! ### Hash values never rise (R147) -/

/-- Slot `n` still holds the signature `m`, none of its hash values risen. -/
def HoldsNoHigher (n : SlotNo) (m : MinHash) (t : State) : Prop :=
  ∃ hv : List Word, readSlot n t = .minhash { m with hv := hv } ∧ hv.length = m.k ∧
    ∀ j < m.k, (hv.getD j 0).toNat ≤ (m.hv.getD j 0).toNat

section

variable {n sb : SlotNo} {s t : State} {m : MinHash}

theorem HoldsNoHigher.of_same (hlen : m.hv.length = m.k) (h : readSlot n t = .minhash m) : HoldsNoHigher n m t :=
  ⟨m.hv, h, hlen, fun _ _ => le_rfl⟩

/-- A command that writes a MINHASH slot and does not replace, release or clear it is MH_DIGEST or MH_MERGE, or it
wants a slot of another kind. -/
theorem exec_onto_minhash {i : Instr} (hi : destSlot i = some n ∧ replacesSlot i = false)
    (hm : readSlot n s = .minhash m) :
    i = .mhDigest n ∨ (∃ sb, i = .mhMerge n sb) ∨ exec i s = .next (complete .slotKind s) := by
  cases i with
  | mhDigest sa =>
    cases hi.1
    exact .inl rfl
  | mhMerge sa sb =>
    cases hi.1
    exact .inr (.inl ⟨sb, rfl⟩)
  | hllDigest sa =>
    cases hi.1
    exact .inr (.inr (onHll_of_minhash hm _))
  | hllClear sa =>
    cases hi.1
    exact .inr (.inr (onHll_of_minhash hm _))
  | hllMerge sa sb =>
    cases hi.1
    exact .inr (.inr (onHll_of_minhash hm _))
  | hmhAdd sa =>
    cases hi.1
    exact .inr (.inr (onHmh_of_minhash hm _))
  | hmhMerge sa sb =>
    cases hi.1
    exact .inr (.inr (onHmh_of_minhash hm _))
  | _ => exact absurd hi nofun

theorem mhDigest_holdsNoHigher (hm : readSlot n s = .minhash m) (hshape : m.shaped s.params)
    (he : exec (.mhDigest n) s = .next t) : HoldsNoHigher n m t := by
  obtain ⟨-, hperm, hhv⟩ := hshape
  rw [exec_mhDigest_of_minhash hm] at he
  cases he
  refine ⟨_, readSlot_writeSlot_same n _ s (lt_length_of_minhash hm), ?_, fun j hj => ?_⟩
  · rw [digestValues_length _ (hperm.trans hhv.symm), hhv]
  · rw [getD_digestValues (hperm ▸ hj) (hhv ▸ hj), umin_toNat]
    exact min_le_left _ _

theorem mhMerge_holdsNoHigher (hs : s.slotsShaped) (hm : readSlot n s = .minhash m)
    (he : exec (.mhMerge n sb) s = .next t) : HoldsNoHigher n m t := by
  obtain ⟨-, -, hhv⟩ := shaped_of_minhash hs hm
  by_cases hb : ∃ o, readSlot sb s = .minhash o
  · obtain ⟨o, ho⟩ := hb
    by_cases hc : m.seed = o.seed ∧ m.k = o.k
    · obtain ⟨hseed, hk⟩ := hc
      obtain ⟨-, -, hhvo⟩ := shaped_of_minhash hs ho
      rw [exec_mhMerge_of_compatible hm ho hseed hk] at he
      cases he
      refine ⟨_, readSlot_writeSlot_same n _ s (lt_length_of_minhash hm), by simp [hhv, hhvo, hk], fun j hj => ?_⟩
      rw [getD_zipWith (hhv ▸ hj) (hhvo ▸ hk ▸ hj), umin_toNat]
      exact min_le_left _ _
    · rw [exec_mhMerge_of_incompatible hm ho (not_and_or.1 hc)] at he
      cases he
      exact .of_same hhv hm
  · rw [exec_mhMerge_of_not_minhash (.inr (not_exists.1 hb))] at he
    cases he
    exact .of_same hhv hm

theorem exec_holdsNoHigher {i : Instr} (hs : s.slotsShaped) (he : exec i s = .next t) (hm : readSlot n s = .minhash m)
    (hi : destSlot i = some n → replacesSlot i = false) : HoldsNoHigher n m t := by
  have hshape := shaped_of_minhash hs hm
  have hsame (h : readSlot n t = readSlot n s) : HoldsNoHigher n m t := .of_same hshape.2.2 (h.trans hm)
  by_cases hd : destSlot i = some n
  · obtain rfl | ⟨sb, rfl⟩ | hraise := exec_onto_minhash ⟨hd, hi hd⟩ hm
    · exact mhDigest_holdsNoHigher hm hshape he
    · exact mhMerge_holdsNoHigher hs hm he
    · cases hraise.symm.trans he
      exact hsame rfl
  · obtain hslots | ⟨n', x, hn', hslots⟩ := (he ▸ exec_ends i s : CommandEnds i s (.next t)).slots_eq
    · exact hsame (readSlot_congr hslots n)
    · have hne : n ≠ n' := fun e => hd (e ▸ hn')
      exact hsame ((readSlot_congr (s := writeSlot n' x s) hslots n).trans (readSlot_writeSlot_other x s hne))

end

/-! ### MH_AGREE (R144) -/

theorem length_filter_range (n : Nat) (p : Nat → Bool) :
    ((List.range n).filter p).length = ((Finset.range n).filter fun i => p i = true).card := by
  rw [← Nat.count_eq_card_filter_range, Nat.count, ← List.countP_eq_length_filter]
  simp only [Bool.decide_eq_true]

section

variable {mask : BitVec 16} {n n0 : Nat}

theorem maskSize_eq_length (mask : BitVec 16) : maskSize mask = (maskSlots mask).length :=
  (length_filter_range 16 _).symm

theorem mem_maskSlots : n ∈ maskSlots mask ↔ n < 16 ∧ mask.getLsbD n = true := by
  rw [maskSlots, List.mem_filter, List.mem_range]

theorem forall_mem_maskSlots {P : Nat → Prop} :
    (∀ n ∈ maskSlots mask, P n) ↔ ∀ n : Fin 16, mask.getLsbD n = true → P n := by
  simp only [mem_maskSlots, and_imp, Fin.forall_iff]

/-- The slots of a mask ascend, so its lowest slot comes first. -/
theorem maskSlots_eq_cons (h : lowestOf mask n0) : ∃ rest, maskSlots mask = n0 :: rest := by
  obtain ⟨hlt, hbit, hbelow⟩ := h
  have hmem : n0 ∈ maskSlots mask := mem_maskSlots.2 ⟨hlt, hbit⟩
  have hsorted : (maskSlots mask).Pairwise (· < ·) := List.pairwise_lt_range.filter _
  cases hslots : maskSlots mask with
  | nil => simp [hslots] at hmem
  | cons n rest =>
    have hn : mask.getLsbD n = true := (mem_maskSlots.1 (hslots ▸ List.mem_cons_self)).2
    rw [hslots] at hmem hsorted
    obtain rfl | hrest := List.mem_cons.1 hmem
    · exact ⟨rest, rfl⟩
    · have hless : n < n0 := (List.pairwise_cons.1 hsorted).1 n0 hrest
      rw [hbelow n hless] at hn
      cases hn

end

theorem collect_eq_none_of_mem {α : Type} {l : List (Option α)} (h : none ∈ l) : collect l = none := by
  induction l with
  | nil => cases h
  | cons x l ih =>
    cases x with
    | none => rfl
    | some a =>
      have hl : none ∈ l := (List.mem_cons.1 h).resolve_left nofun
      rw [collect, ih hl]

theorem collect_map_some {α β : Type} (f : α → β) (l : List α) : collect (l.map fun x => some (f x)) = some (l.map f) := by
  induction l with
  | nil => rfl
  | cons x l ih => rw [List.map_cons, collect, ih, List.map_cons]

/-- The number of indices at which every list of `vs` holds what `v0` holds. -/
theorem agreeCount_eq_card {n : Nat} {v0 : List Word} {vs : List (List Word)} (h0 : v0.length = n)
    (hvs : ∀ v ∈ vs, v.length = n) : agreeCount n v0 vs =
      ((Finset.range n).filter fun i => ∀ v ∈ vs, v.getD i 0 = v0.getD i 0).card := by
  rw [agreeCount, length_filter_range]
  refine congrArg Finset.card (Finset.filter_congr fun i hi => ?_)
  rw [List.all_eq_true]
  refine forall₂_congr fun v hv => ?_
  have hi : i < n := Finset.mem_range.1 hi
  rw [beq_iff_eq, List.getElem?_eq_getElem (hvs v hv ▸ hi), List.getElem?_eq_getElem (h0 ▸ hi),
    List.getD_eq_getElem _ _ (hvs v hv ▸ hi), List.getD_eq_getElem _ _ (h0 ▸ hi), Option.some_inj]

section

variable {mask : BitVec 16} {s : State}

theorem exec_mhAgree_of_few (h : maskSize mask < 2) : exec (.mhAgree mask) s = .next (complete .invalidArgument s) := by
  rw [maskSize_eq_length] at h
  rw [exec, execMhAgree, decide_eq_false (Nat.not_le.2 h), require_false]

variable (h2 : 2 ≤ maskSize mask)
include h2

theorem exec_mhAgree_of_not_minhash {n : Nat} (hn : n ∈ maskSlots mask) (h : ∀ m, slotAt s n ≠ .minhash m) :
    exec (.mhAgree mask) s = .next (complete .slotKind s) := by
  have hnone : Slot.minhash? (slotAt s n) = none := by
    cases hx : slotAt s n with
    | minhash m => exact absurd hx (h m)
    | _ => rfl
  have hmem : none ∈ (maskedSlots mask s).map Slot.minhash? :=
    List.mem_map.2 ⟨_, List.mem_map.2 ⟨n, hn, rfl⟩, hnone⟩
  rw [maskSize_eq_length] at h2
  rw [exec, execMhAgree, decide_eq_true h2, require_true, collect_eq_none_of_mem hmem, raise]

variable {sig : Nat → MinHash} (hsig : ∀ n ∈ maskSlots mask, slotAt s n = .minhash (sig n))
  {n0 : Nat} {rest : List Nat} (hslots : maskSlots mask = n0 :: rest)
include hsig hslots

/-- With a signature in every masked slot, the lowest of them is the reference for the others. -/
theorem exec_mhAgree_of_minhash : exec (.mhAgree mask) s =
    require (rest.all fun n => (sig n).seed == (sig n0).seed && (sig n).k == (sig n0).k) .incompatibleSketch s
      (.next (complete .ok (setResult
        (BitVec.ofNat 32 (agreeCount (sig n0).k (sig n0).hv (rest.map fun n => (sig n).hv)))
        (BitVec.ofNat 32 (sig n0).k) s))) := by
  have hmap : (maskedSlots mask s).map Slot.minhash? = (maskSlots mask).map fun n => some (sig n) := by
    rw [maskedSlots, List.map_map]
    exact List.map_congr_left fun n hn => congrArg Slot.minhash? (hsig n hn)
  rw [maskSize_eq_length] at h2
  rw [exec, execMhAgree, decide_eq_true h2, require_true, hmap, collect_map_some, hslots]
  simp only [List.map_cons, List.map_map, List.all_map, Function.comp_def, finish]

theorem exec_mhAgree_of_incompatible {n : Nat} (hn : n ∈ maskSlots mask)
    (hdiff : (sig n).seed ≠ (sig n0).seed ∨ (sig n).k ≠ (sig n0).k) :
    exec (.mhAgree mask) s = .next (complete .incompatibleSketch s) := by
  have hrest : n ∈ rest := by
    rw [hslots] at hn
    refine (List.mem_cons.1 hn).resolve_left ?_
    rintro rfl
    exact hdiff.elim (absurd rfl) (absurd rfl)
  have hcheck : (rest.all fun n => (sig n).seed == (sig n0).seed && (sig n).k == (sig n0).k) = false := by
    refine List.all_eq_false.2 ⟨n, hrest, ?_⟩
    rwa [Bool.and_eq_true, beq_iff_eq, beq_iff_eq, not_and_or]
  rw [exec_mhAgree_of_minhash h2 hsig hslots, hcheck, require_false]

theorem exec_mhAgree_of_compatible (hlen : ∀ n ∈ maskSlots mask, (sig n).hv.length = (sig n).k)
    (hcompat : ∀ n ∈ maskSlots mask, (sig n).seed = (sig n0).seed ∧ (sig n).k = (sig n0).k) :
    exec (.mhAgree mask) s = .next (complete .ok (setResult
      (BitVec.ofNat 32 ((Finset.range (sig n0).k).filter fun i =>
        ∀ n ∈ maskSlots mask, (sig n).hv.getD i 0 = (sig n0).hv.getD i 0).card)
      (BitVec.ofNat 32 (sig n0).k) s)) := by
  rw [hslots, List.forall_mem_cons] at hlen hcompat
  obtain ⟨hlen0, hlen⟩ := hlen
  obtain ⟨-, hcompat⟩ := hcompat
  have hcheck : (rest.all fun n => (sig n).seed == (sig n0).seed && (sig n).k == (sig n0).k) = true := by
    refine List.all_eq_true.2 fun n hn => ?_
    rw [Bool.and_eq_true, beq_iff_eq, beq_iff_eq]
    exact hcompat n hn
  have hall : ∀ v ∈ rest.map fun n => (sig n).hv, v.length = (sig n0).k :=
    List.forall_mem_map.2 fun n hn => (hlen n hn).trans (hcompat n hn).2
  rw [exec_mhAgree_of_minhash h2 hsig hslots, hcheck, require_true, agreeCount_eq_card hlen0 hall]
  simp only [hslots, List.forall_mem_map, List.forall_mem_cons, true_and]

end

/-! ### MH_RDVAL and MH_SEED (R145, R146) -/

section

variable {sa : SlotNo} {s : State} {m : MinHash}

theorem exec_mhRdval_of_minhash (h : readSlot sa s = .minhash m) : exec (.mhRdval sa) s =
    require (decide (s.regs.arg.toNat < m.k)) .invalidArgument s
      (.next (complete .ok (setResult (m.hv.getD s.regs.arg.toNat 0) 0 s))) := onMinHash_of_minhash h _

theorem seedResult_eq (seed : Seed) (s : State) : seedResult seed s = .next (complete .ok (setResult
    (BitVec.ofNat 32 (seed.toNat % 2 ^ 32)) (BitVec.ofNat 32 (seed.toNat / 2 ^ 32)) s)) := by
  have hlo : seed.extractLsb' 0 32 = BitVec.ofNat 32 (seed.toNat % 2 ^ 32) :=
    BitVec.eq_of_toNat_eq (Nat.mod_mod _ _).symm
  have hhi : seed.extractLsb' 32 32 = BitVec.ofNat 32 (seed.toNat / 2 ^ 32) := by
    rw [← Nat.shiftRight_eq_div_pow]
    rfl
  rw [seedResult, hlo, hhi, finish]

theorem exec_mhSeed_of_minhash (h : readSlot sa s = .minhash m) : exec (.mhSeed sa) s = seedResult m.seed s := by
  rw [exec, execMhSeed, h]

theorem exec_mhSeed_of_onebit {b : OneBit} (h : readSlot sa s = .onebit b) :
    exec (.mhSeed sa) s = seedResult b.seed s := by
  rw [exec, execMhSeed, h]

theorem exec_mhSeed_of_other (hm : ∀ m, readSlot sa s ≠ .minhash m) (hb : ∀ b, readSlot sa s ≠ .onebit b) :
    exec (.mhSeed sa) s = .next (complete .slotKind s) := by
  rw [exec, execMhSeed]
  cases hx : readSlot sa s with
  | minhash m => exact absurd hx (hm m)
  | onebit b => exact absurd hx (hb b)
  | _ => rfl

end

/-! ### The obligations -/

/-- Settles O37: MH_DIGEST takes at each index the minimum of the hash value and its permutation of HASH. -/
theorem mhDigestTakesSmallerValues : Obligations.MhDigestTakesSmallerValues := by
  intro s sa
  refine ⟨fun h => onMinHash_of_not_minhash h _, fun m hm ⟨_, hperm, hhv⟩ => ?_⟩
  refine ⟨_, exec_mhDigest_of_minhash hm, (digestValues_length _ (hperm.trans hhv.symm)).trans hhv, ?_⟩
  intro i hi a b hab
  have hperm_i : m.perm.getD i (0, 0) = (a, b) := by rw [List.getD_eq_getElem?_getD, hab, Option.getD_some]
  rw [getD_digestValues (hperm ▸ hi) (hhv ▸ hi), umin_toNat, perm_toNat, hperm_i, min_comm, min_def_lt]

/-- Settles O38: MH_MERGE takes the minimum at each index once the kinds, then seed and `k` are checked. -/
theorem mhMergeTakesMinima : Obligations.MhMergeTakesMinima := by
  intro s sa sb
  refine ⟨exec_mhMerge_of_not_minhash, fun d o hd ho => ⟨exec_mhMerge_of_incompatible hd ho, ?_⟩⟩
  intro hseed hk ⟨_, _, hhvd⟩ ⟨_, _, hhvo⟩
  refine ⟨_, exec_mhMerge_of_compatible hd ho hseed hk, by simp [hhvd, hhvo, hk], fun i hi => ?_⟩
  rw [getD_zipWith (hhvd ▸ hi) (hhvo ▸ hk ▸ hi), umin_toNat]

/-- Settles O39: the reference is the first slot of the mask, and the others are compared with it. -/
theorem mhAgreeCountsEqualValues : Obligations.MhAgreeCountsEqualValues := by
  intro s mask
  refine ⟨exec_mhAgree_of_few, fun h2 n hn hbit => exec_mhAgree_of_not_minhash h2 (mem_maskSlots.2 ⟨hn, hbit⟩), ?_⟩
  intro h2 sig n0 hsig hlow
  obtain ⟨rest, hslots⟩ := maskSlots_eq_cons hlow
  have hmasked {n : Nat} (hn : n ∈ maskSlots mask) : n < 16 ∧ mask.getLsbD n = true := mem_maskSlots.1 hn
  have hheld : ∀ n ∈ maskSlots mask, slotAt s n = .minhash (sig n) :=
    fun n hn => (hsig n (hmasked hn).1 (hmasked hn).2).1
  refine ⟨fun n hn hbit => exec_mhAgree_of_incompatible h2 hheld hslots (mem_maskSlots.2 ⟨hn, hbit⟩), fun hcompat => ?_⟩
  rw [exec_mhAgree_of_compatible h2 hheld hslots (fun n hn => (hsig n (hmasked hn).1 (hmasked hn).2).2)
    fun n hn => hcompat n (hmasked hn).1 (hmasked hn).2]
  simp only [forall_mem_maskSlots]

/-- Settles O41: of the commands that may write the slot, MH_DIGEST and MH_MERGE take minima and the others raise. -/
theorem hashValuesNeverRise : Obligations.HashValuesNeverRise :=
  fun _ _ _ _ _ hs he hm hi => exec_holdsNoHigher hs he hm hi

/-- Settles O42: each hash value is a minimum over the hashes digested, and a minimum over both lists is the minimum of
the two minima. -/
theorem mhMergeIsUnion : Obligations.MhMergeIsUnion := by
  intro s a b c m xs ys zs hab hac hbc _ _ _ ⟨_, hperm, hhv⟩ _ ha hb hc hmem
  obtain ⟨t1, hfeed1, ha1, hother1⟩ := feed_mhDigest ha xs
  obtain ⟨t2, hfeed2, hb2, hother2⟩ := feed_mhDigest ((hother1 b hab.symm).trans hb) ys
  have hc2 : readSlot c t2 = .minhash m := (hother2 c hbc.symm).trans ((hother1 c hac.symm).trans hc)
  obtain ⟨t3, hfeed3, hc3, hother3⟩ := feed_mhDigest hc2 zs
  have ha3 : readSlot a t3 = .minhash { m with hv := digestAll m.perm m.hv xs } :=
    (hother3 a hac).trans ((hother2 a hab).trans ha1)
  have hb3 : readSlot b t3 = .minhash { m with hv := digestAll m.perm m.hv ys } := (hother3 b hbc).trans hb2
  refine ⟨t1, t2, t3, _, hfeed1, hfeed2, hfeed3, exec_mhMerge_of_compatible ha3 hb3 rfl rfl, rfl, ?_⟩
  rw [readSlot_complete, readSlot_complete, readSlot_writeSlot_same a _ _ (lt_length_of_minhash ha3),
    readSlot_writeSlot_other _ _ hac.symm, hc3, zipWith_umin_digestAll (hperm.trans hhv.symm) hmem]

/-- Settles O36: with bit 31 clear ARG is its own signed value, and no `k` that is 0 or negative passes. -/
theorem mhNewCreatesASignature : Obligations.MhNewCreatesASignature := by
  intro s sa
  refine ⟨?_, fun hne hbit hmax => ?_, fun hne hbit hmax => ?_⟩
  · rintro (hzero | hbit)
    · exact exec_mhNew_of_nonpos sa (by rw [kOperand, hzero]; decide)
    · exact exec_mhNew_of_nonpos sa (kOperand_neg hbit).le
  · exact exec_mhNew_of_gt_kmax sa (kOperand_pos hne hbit) (kOperand_eq_toNat hbit ▸ Int.ofNat_lt.2 hmax)
  · have hpos := kOperand_pos hne hbit
    have hfits : kOperand s ≤ s.params.kmax := kOperand_eq_toNat hbit ▸ Int.ofNat_le.2 hmax
    have hk : s.regs.arg.toNat = (kOperand s).toNat := by rw [kOperand_eq_toNat hbit, Int.toNat_natCast]
    rw [← seedOperand_eq, hk]
    cases hgen : permGen Config.prng (seedOperand s) (kOperand s).toNat with
    | none => exact exec_mhNew_of_hang sa hpos hfits hgen
    | some ps => exact exec_mhNew_of_generated sa hpos hfits hgen

/-- Settles O40: each command goes on with what its slot holds, or ends with SlotKind. -/
theorem mhClearAndReadBack : Obligations.MhClearAndReadBack := by
  intro s sa
  refine ⟨fun h => ⟨onMinHash_of_not_minhash h _, onMinHash_of_not_minhash h _⟩, fun m hm => ⟨?_, fun hk => ?_, ?_⟩,
    fun hm hb => ?_, ?_⟩
  · exact onMinHash_of_minhash hm _
  · rw [exec_mhRdval_of_minhash hm, decide_eq_false (Nat.not_lt.2 hk), require_false]
  · intro hk v hv
    rw [exec_mhRdval_of_minhash hm, decide_eq_true hk, require_true, List.getD_eq_getElem?_getD, hv, Option.getD_some]
  · exact exec_mhSeed_of_other hm hb
  · rintro seed (⟨m, hm, rfl⟩ | ⟨b, hb, rfl⟩)
    · exact (exec_mhSeed_of_minhash hm).trans (seedResult_eq _ s)
    · exact (exec_mhSeed_of_onebit hb).trans (seedResult_eq _ s)

end Sys2Proof.Proofs
end

section
/-! PROOFS. One-bit signatures (43_onebit.md): the lowest bits OB_EXPORT takes, the word OB_RDWORD reads, and the XOR over
a mask as a parity. -/

namespace Sys2Proof.Proofs

open Sys2Proof Sys2Proof.Machine Sys2Proof.Claim

/-! ### Slots that hold a one-bit signature (10_state.md R34) -/

section

variable {n : SlotNo} {s : State}

theorem onOneBit_of_onebit {b : OneBit} (h : readSlot n s = .onebit b) (k : OneBit → StepOutcome) :
    onOneBit n s k = k b := by
  rw [onOneBit, h]

theorem onOneBit_of_not_onebit (h : ∀ b, readSlot n s ≠ .onebit b) (k : OneBit → StepOutcome) :
    onOneBit n s k = .next (complete .slotKind s) := by
  obtain ⟨b, hb, -⟩ | ⟨-, hraise⟩ := onOneBit_cases n s k
  · exact absurd hb (h b)
  · exact hraise

theorem onebit?_eq_none {x : Slot} (h : ∀ b, x ≠ .onebit b) : x.onebit? = none := by
  cases x with
  | onebit b => exact absurd rfl (h b)
  | _ => rfl

end

/-! ### The lowest bits of the hash values (R160) -/

section

variable {m : MinHash} (hlen : m.hv.length = m.k)
include hlen

theorem exportOneBit_bits_length : (exportOneBit m).bits.length = min m.k 128 := by
  rw [exportOneBit, List.length_map, List.length_take, hlen]
  exact min_eq_left (min_le_left _ _)

theorem getD_exportOneBit_bits {i : Nat} (hi : i < min m.k 128) :
    (exportOneBit m).bits.getD i false = decide ((m.hv.getD i 0).toNat % 2 = 1) := by
  have hhv : i < m.hv.length := hlen ▸ (lt_min_iff.1 hi).1
  rw [List.getD_eq_getElem _ _ (exportOneBit_bits_length hlen ▸ hi), List.getD_eq_getElem _ _ hhv]
  simp only [exportOneBit, List.getElem_map, List.getElem_take, getLsbD_eq, pow_zero, Nat.div_one]

end

/-! ### One word of a signature (R162) -/

theorem bitsToNat_cons (b : Bool) (rest : List Bool) : bitsToNat (b :: rest) = Nat.bit b (bitsToNat rest) := by
  rw [Nat.bit_val, bitsToNat, Nat.add_comm]
  cases b <;> rfl

theorem testBit_bitsToNat (bs : List Bool) (j : Nat) : (bitsToNat bs).testBit j = bs.getD j false := by
  induction bs generalizing j with
  | nil => exact Nat.zero_testBit j
  | cons b rest ih =>
    rw [bitsToNat_cons]
    cases j with
    | zero => rw [Nat.testBit_bit_zero, List.getD_cons_zero]
    | succ j => rw [Nat.testBit_bit_succ, ih, List.getD_cons_succ]

/-- Bit `j` of word `w` is position `32 * w + j` of the signature, and 0 at or above its size. -/
theorem getLsbD_oneBitWord (b : OneBit) (w : Nat) {j : Nat} (hj : j < 32) : (oneBitWord b w).getLsbD j =
    (decide (32 * w + j < b.size) && b.bits.getD (32 * w + j) false) := by
  rw [oneBitWord, BitVec.getLsbD_ofNat, decide_eq_true hj, Bool.true_and, testBit_bitsToNat,
    List.getD_eq_getElem?_getD, List.getElem?_take_of_lt hj, List.getElem?_drop, List.getElem?_take,
    List.getD_eq_getElem?_getD]
  by_cases hsize : 32 * w + j < b.size
  · rw [if_pos hsize, decide_eq_true hsize, Bool.true_and]
  · rw [if_neg hsize, decide_eq_false hsize, Bool.false_and, Option.getD_none]

theorem exec_obRdword_of_onebit {sa : SlotNo} {s : State} {b : OneBit} (h : readSlot sa s = .onebit b) :
    exec (.obRdword sa) s = require (decide (s.regs.arg.toNat ≤ 3)) .invalidArgument s
      (.next (complete .ok (setResult (oneBitWord b s.regs.arg.toNat) 0 s))) := onOneBit_of_onebit h _

/-! ### The XOR over lists as a parity (R161, 90_conflicts.md C3) -/

/-- Folding in a bit per list turns the start value over once for every list that holds 1. -/
theorem foldl_xor_eq_parity (i : Nat) (vs : List (List Bool)) (acc : Bool) :
    vs.foldl (fun acc v => acc ^^ v.getD i false) acc =
      (acc ^^ decide (vs.countP (fun v => v.getD i false) % 2 = 1)) := by
  induction vs generalizing acc with
  | nil => simp
  | cons v vs ih =>
    rw [List.foldl_cons, ih, Bool.xor_assoc, List.countP_cons]
    cases v.getD i false with
    | false => simp
    | true =>
      have hflip : (vs.countP (fun v => v.getD i false) + 1) % 2 = 1 ↔
          ¬ vs.countP (fun v => v.getD i false) % 2 = 1 := by omega
      simp only [if_true, hflip, decide_not, Bool.true_xor]

theorem xorAt_eq_true_iff {vs : List (List Bool)} {i : Nat} :
    xorAt vs i = true ↔ vs.countP (fun v => v.getD i false) % 2 = 1 := by
  rw [xorAt, foldl_xor_eq_parity, Bool.false_xor, decide_eq_true_iff]

theorem xorPopcount_eq_card (n : Nat) (vs : List (List Bool)) : xorPopcount n vs =
    ((Finset.range n).filter fun i => vs.countP (fun v => v.getD i false) % 2 = 1).card := by
  simp only [xorPopcount, length_filter_range, xorAt_eq_true_iff]

/-! ### What the masked slots hold (30_encoding.md R93) -/

section

variable {mask : BitVec 16} {n : Nat}

theorem countP_maskSlots (mask : BitVec 16) (p : Nat → Bool) : (maskSlots mask).countP p =
    ((Finset.range 16).filter fun n => mask.getLsbD n = true ∧ p n = true).card := by
  rw [maskSlots, List.countP_filter, List.countP_eq_length_filter, length_filter_range]
  simp only [Bool.and_eq_true, and_comm]

variable {α : Type} {s : State} {content : Slot → Option α}

theorem collect_maskedSlots_eq_none (hn : n ∈ maskSlots mask) (h : content (slotAt s n) = none) :
    collect ((maskedSlots mask s).map content) = none :=
  collect_eq_none_of_mem (List.mem_map.2 ⟨_, List.mem_map.2 ⟨n, hn, rfl⟩, h⟩)

theorem collect_maskedSlots_eq_some {sig : Nat → α}
    (h : ∀ n ∈ maskSlots mask, content (slotAt s n) = some (sig n)) :
    collect ((maskedSlots mask s).map content) = some ((maskSlots mask).map sig) := by
  rw [maskedSlots, List.map_map, ← collect_map_some]
  exact congrArg collect (List.map_congr_left h)

end

/-! ### OB_XORPOP (R161) -/

section

variable {mask : BitVec 16} {s : State}

theorem exec_obXorpop_of_few (h : maskSize mask < 2) :
    exec (.obXorpop mask) s = .next (complete .invalidArgument s) := by
  rw [maskSize_eq_length] at h
  rw [exec, execObXorpop, decide_eq_false (Nat.not_le.2 h), require_false]

variable (h2 : 2 ≤ maskSize mask)
include h2

theorem exec_obXorpop_of_not_onebit {n : Nat} (hn : n ∈ maskSlots mask) (h : ∀ b, slotAt s n ≠ .onebit b) :
    exec (.obXorpop mask) s = .next (complete .slotKind s) := by
  rw [maskSize_eq_length] at h2
  rw [exec, execObXorpop, decide_eq_true h2, require_true,
    collect_maskedSlots_eq_none hn (onebit?_eq_none h), raise]

variable {sig : Nat → OneBit} (hsig : ∀ n ∈ maskSlots mask, slotAt s n = .onebit (sig n)) {n0 : Nat}
  (hlow : lowestOf mask n0)
include hsig hlow

/-- With a one-bit signature in every masked slot, all of them are held against the lowest, itself among them. -/
theorem exec_obXorpop_of_onebit : exec (.obXorpop mask) s =
    require (decide (∀ n ∈ maskSlots mask, (sig n).seed = (sig n0).seed ∧ (sig n).size = (sig n0).size))
      .incompatibleSketch s (.next (complete .ok (setResult
        (BitVec.ofNat 32 (xorPopcount (sig n0).size ((maskSlots mask).map fun n => (sig n).bits)))
        (BitVec.ofNat 32 (sig n0).size) s))) := by
  obtain ⟨rest, hslots⟩ := maskSlots_eq_cons hlow
  have hcollect := collect_maskedSlots_eq_some (content := Slot.onebit?) (sig := sig)
    fun n hn => congrArg Slot.onebit? (hsig n hn)
  have hcheck : ((rest.map sig).all fun b => b.seed == (sig n0).seed && b.size == (sig n0).size) =
      decide (∀ n ∈ n0 :: rest, (sig n).seed = (sig n0).seed ∧ (sig n).size = (sig n0).size) := by
    rw [Bool.eq_iff_iff, decide_eq_true_iff]
    simp
  rw [maskSize_eq_length] at h2
  rw [exec, execObXorpop, decide_eq_true h2, require_true, hcollect, hslots]
  simp only [List.map_cons, hcheck, List.map_map, Function.comp_def, finish]

theorem exec_obXorpop_of_incompatible {n : Nat} (hn : n ∈ maskSlots mask)
    (hdiff : (sig n).seed ≠ (sig n0).seed ∨ (sig n).size ≠ (sig n0).size) :
    exec (.obXorpop mask) s = .next (complete .incompatibleSketch s) := by
  rw [exec_obXorpop_of_onebit h2 hsig hlow, decide_eq_false fun h => not_and_or.2 hdiff (h n hn), require_false]

theorem exec_obXorpop_of_compatible
    (hcompat : ∀ n ∈ maskSlots mask, (sig n).seed = (sig n0).seed ∧ (sig n).size = (sig n0).size) :
    exec (.obXorpop mask) s = .next (complete .ok (setResult
      (BitVec.ofNat 32 ((Finset.range (sig n0).size).filter fun i =>
        ((Finset.range 16).filter fun n =>
          mask.getLsbD n = true ∧ (sig n).bits.getD i false = true).card % 2 = 1).card)
      (BitVec.ofNat 32 (sig n0).size) s)) := by
  rw [exec_obXorpop_of_onebit h2 hsig hlow, decide_eq_true hcompat, require_true, xorPopcount_eq_card]
  simp only [List.countP_map, Function.comp_def, countP_maskSlots]

end

/-! ### The obligations -/

/-- Settles O44: the XOR of the masked bits is 1 where the number of ones among them is odd. -/
theorem obXorpopCountsOddPositions : Obligations.ObXorpopCountsOddPositions := by
  intro s mask
  refine ⟨exec_obXorpop_of_few, fun h2 n hn hbit => exec_obXorpop_of_not_onebit h2 (mem_maskSlots.2 ⟨hn, hbit⟩), ?_⟩
  intro h2 sig n0 hsig hlow
  have hmasked {P : Nat → Prop} (h : ∀ n < 16, mask.getLsbD n = true → P n) : ∀ n ∈ maskSlots mask, P n :=
    fun n hn => h n (mem_maskSlots.1 hn).1 (mem_maskSlots.1 hn).2
  exact ⟨fun n hn hbit => exec_obXorpop_of_incompatible h2 (hmasked hsig) hlow (mem_maskSlots.2 ⟨hn, hbit⟩),
    fun hcompat => exec_obXorpop_of_compatible h2 (hmasked hsig) hlow (hmasked hcompat)⟩

/-- Settles O45: with ARG at most 3 the word holds 32 positions of the signature cut off at its size. -/
theorem obRdwordReadsOneWord : Obligations.ObRdwordReadsOneWord := by
  intro s sa
  refine ⟨fun h => onOneBit_of_not_onebit h _, fun b hb => ⟨fun harg => ?_, fun harg => ?_⟩⟩
  · rw [exec_obRdword_of_onebit hb, decide_eq_false (Nat.not_le.2 harg), require_false]
  · refine ⟨_, ?_, fun j hj => getLsbD_oneBitWord b s.regs.arg.toNat hj⟩
    rw [exec_obRdword_of_onebit hb, decide_eq_true harg, require_true]

/-- Settles O43: the source is read before the target is written, so one slot may be both. -/
theorem obExportTakesLowestBits : Obligations.ObExportTakesLowestBits := by
  intro s sa sb
  refine ⟨fun h => onMinHash_of_not_minhash h _, fun m hm ⟨_, _, hhv⟩ => ?_⟩
  exact ⟨(exportOneBit m).bits, onMinHash_of_minhash hm _, exportOneBit_bits_length hhv,
    fun i hi => getD_exportOneBit_bits hhv hi⟩

end Sys2Proof.Proofs
end

section
/-! PROOFS. HyperLogLog and HllMinHash (44_hyperloglog.md, 45_hllminhash.md R190 to R195): the bucket and the window as
numbers, what each command does to the two arrays, and registers as maxima over the hashes digested. -/

namespace Sys2Proof.Proofs

open Sys2Proof Sys2Proof.Machine Sys2Proof.Claim

/-! ### Bucket, window and register value (R170, R171) -/

/-- A word has at least `n` leading zeros exactly if it fits the other bits. -/
theorem le_lzc32_iff {x : Word} {n : Nat} (hn : n ≤ 32) : n ≤ lzc32 x ↔ x.toNat < 2 ^ (32 - n) := by
  have hsum := lzc32_add_size x
  rw [← Nat.size_le]
  omega

section

variable (h : Word) {p : Nat}

/-- The register value fits its byte. -/
theorem rho_toNat (p : Nat) : (rho h p).toNat = lzc32 (window h p) + 1 := by
  have hsum := lzc32_add_size (window h p)
  rw [rho, BitVec.toNat_ofNat]
  omega

theorem two_pow_split (hp : p ≤ 32) : 2 ^ 32 = 2 ^ (32 - p) * 2 ^ p := by
  rw [← Nat.pow_add, Nat.sub_add_cancel hp]

theorem div_two_pow_lt (hp : p ≤ 32) : h.toNat / 2 ^ (32 - p) < 2 ^ p :=
  Nat.div_lt_of_lt_mul (two_pow_split hp ▸ h.isLt)

theorem bucket_eq_div (hp : p ≤ 32) : bucket h p = h.toNat / 2 ^ (32 - p) := by
  rw [bucket, extractBits, Nat.sub_sub_self hp, Nat.mod_eq_of_lt (div_two_pow_lt h hp)]

theorem window_toNat (hp : p ≤ 32) : (window h p).toNat = (h.toNat * 2 ^ p % 2 ^ 32 ||| 2 ^ (p - 1)) := by
  have hguard : 2 ^ (p - 1) < 2 ^ 32 := Nat.pow_lt_pow_right (by decide) (by omega)
  rw [window, BitVec.toNat_or, BitVec.toNat_shiftLeft, BitVec.toNat_shiftLeft, Nat.shiftLeft_eq, Nat.shiftLeft_eq,
    show (1#32).toNat = 1 from rfl, Nat.one_mul, Nat.mod_eq_of_lt hguard]

/-- The guard bit. -/
theorem window_getLsbD_guard (hp : p ≤ 32) : (window h p).getLsbD (p - 1) = true := by
  rw [← BitVec.testBit_toNat, window_toNat h hp, Nat.testBit_or, Nat.testBit_two_pow_self, Bool.or_true]

/-- The guard bit stops the count of leading zeros. -/
theorem lzc32_window_le (hpos : 1 ≤ p) (hp : p ≤ 32) : lzc32 (window h p) ≤ 32 - p := by
  have hguard : 2 ^ (p - 1) ≤ (window h p).toNat := window_toNat h hp ▸ Nat.right_le_or
  have hnot : ¬ 32 - p + 1 ≤ lzc32 (window h p) := by
    rw [le_lzc32_iff (by omega), Nat.not_lt, show 32 - (32 - p + 1) = p - 1 by omega]
    exact hguard
  omega

/-- Only the guard bit is left of the window where the bits of the hash below the bucket are 0. -/
theorem window_lt_two_pow_iff (hpos : 1 ≤ p) (hp : p ≤ 32) :
    (window h p).toNat < 2 ^ p ↔ h.toNat % 2 ^ (32 - p) = 0 := by
  have hguard : 2 ^ (p - 1) < 2 ^ p := Nat.pow_lt_pow_right (by decide) (by omega)
  rw [window_toNat h hp, two_pow_split hp, Nat.mul_mod_mul_right]
  constructor
  · intro hlt
    have hmul : h.toNat % 2 ^ (32 - p) * 2 ^ p < 1 * 2 ^ p := by
      rw [Nat.one_mul]
      exact Nat.lt_of_le_of_lt Nat.left_le_or hlt
    exact Nat.lt_one_iff.1 (Nat.lt_of_mul_lt_mul_right hmul)
  · intro hzero
    rwa [hzero, Nat.zero_mul, Nat.zero_or]

theorem rho_eq_max_iff (hpos : 1 ≤ p) (hp : p ≤ 32) : (rho h p).toNat = 33 - p ↔ h.toNat % 2 ^ (32 - p) = 0 := by
  have hle := lzc32_window_le h hpos hp
  have hzeros := le_lzc32_iff (x := window h p) (Nat.sub_le 32 p)
  rw [Nat.sub_sub_self hp, window_lt_two_pow_iff h hpos hp] at hzeros
  rw [rho_toNat, ← hzeros]
  omega

end

/-! ### Slots that hold a sketch (10_state.md R32, R33) -/

section

variable {n : SlotNo} {s : State}

theorem onHll_of_hll {h : Hll} (hn : readSlot n s = .hll h) (k : Hll → StepOutcome) : onHll n s k = k h := by
  rw [onHll, hn]

theorem onHll_of_not_hll (hn : ∀ h, readSlot n s ≠ .hll h) (k : Hll → StepOutcome) :
    onHll n s k = .next (complete .slotKind s) := by
  obtain ⟨h, hh, -⟩ | ⟨-, hraise⟩ := onHll_cases n s k
  · exact absurd hh (hn h)
  · exact hraise

theorem onHmh_of_hmh {x : Hmh} (hn : readSlot n s = .hmh x) (k : Hmh → StepOutcome) : onHmh n s k = k x := by
  rw [onHmh, hn]

theorem onHmh_of_not_hmh (hn : ∀ x, readSlot n s ≠ .hmh x) (k : Hmh → StepOutcome) :
    onHmh n s k = .next (complete .slotKind s) := by
  obtain ⟨x, hx, -⟩ | ⟨-, hraise⟩ := onHmh_cases n s k
  · exact absurd hx (hn x)
  · exact hraise

/-- A slot number at or above NSLOT reads EMPTY, so a sketch is in a slot that exists. -/
theorem lt_length_of_hll {h : Hll} (hn : readSlot n s = .hll h) : n.val < s.slots.length := by
  by_contra hlen
  rw [readSlot, List.getD_eq_default _ _ (Nat.not_lt.1 hlen)] at hn
  cases hn

end

/-! ### The precision checks (R172, R190) -/

section

variable {p : Nat} {s : State} (k : StepOutcome)

theorem requirePrecision_of_out_of_range (h : p < 4 ∨ 16 < p) :
    requirePrecision p s k = .next (complete .invalidArgument s) := by
  have hcheck : (decide (4 ≤ p) && decide (p ≤ 16)) = false := by
    rwa [Bool.and_eq_false_iff, decide_eq_false_iff_not, decide_eq_false_iff_not, Nat.not_le, Nat.not_le]
  rw [requirePrecision, hcheck, require_false]

variable (hlo : 4 ≤ p) (hhi : p ≤ 16)
include hlo hhi

theorem requirePrecision_of_in_range :
    requirePrecision p s k = require (decide (p ≤ s.params.pmax)) .capacityExceeded s k := by
  rw [requirePrecision, decide_eq_true hlo, decide_eq_true hhi, Bool.and_self, require_true]

theorem requirePrecision_of_gt_pmax (h : s.params.pmax < p) :
    requirePrecision p s k = .next (complete .capacityExceeded s) := by
  rw [requirePrecision_of_in_range k hlo hhi, decide_eq_false (Nat.not_le.2 h), require_false]

theorem requirePrecision_of_le_pmax (h : p ≤ s.params.pmax) : requirePrecision p s k = k := by
  rw [requirePrecision_of_in_range k hlo hhi, decide_eq_true h, require_true]

end

/-! ### Folding in a hash (R173, R191) -/

theorem umax_toNat {w : Nat} (a b : BitVec w) : (umax a b).toNat = max a.toNat b.toNat := by
  rw [max_def_lt]
  exact apply_ite BitVec.toNat _ _ _

section

variable {p : Nat} (hp : p ≤ 32) (h : Word) {j : Nat}
include hp

theorem getD_digestRegisters {reg : List Byte} (hj : j < reg.length) :
    ((digestRegisters p reg h).getD j 0).toNat = foldedRegister p h (reg.getD j 0).toNat j := by
  rw [digestRegisters, bucket_eq_div h hp, getD_set hj, foldedRegister]
  split
  case isTrue hbucket => rw [← hbucket, umax_toNat, rho_toNat]
  case isFalse => rfl

theorem getD_set_bucket_umin {minv : List Word} (hj : j < minv.length) :
    ((minv.set (bucket h p) (umin (minv.getD (bucket h p) 0) (window h p))).getD j 0).toNat =
      if j = h.toNat / 2 ^ (32 - p) then min (minv.getD j 0).toNat (window h p).toNat else (minv.getD j 0).toNat := by
  rw [bucket_eq_div h hp, getD_set hj]
  split
  case isTrue hbucket => rw [← hbucket, umin_toNat]
  case isFalse => rfl

end

theorem foldedRegister_le_iff {p old j v : Nat} {h : Word} : foldedRegister p h old j ≤ v ↔
    old ≤ v ∧ (h.toNat / 2 ^ (32 - p) = j → lzc32 (window h p) + 1 ≤ v) := by
  rw [foldedRegister]
  split
  case isTrue hj => rw [max_le_iff, imp_iff_right hj.symm]
  case isFalse hj => rw [and_iff_left fun h => absurd h.symm hj]

/-! ### HLL_MERGE and HMH_MERGE (R175, R192) -/

section

variable {sa sb : SlotNo} {s : State}

theorem exec_hllMerge_of_not_hll (h : (∀ h, readSlot sa s ≠ .hll h) ∨ ∀ h, readSlot sb s ≠ .hll h) :
    exec (.hllMerge sa sb) s = .next (complete .slotKind s) := by
  obtain ⟨d, hd, he⟩ | ⟨-, he⟩ := onHll_cases sa s _
  · exact he.trans (onHll_of_not_hll (h.resolve_left fun h => h d hd) _)
  · exact he

theorem exec_hmhMerge_of_not_hmh (h : (∀ x, readSlot sa s ≠ .hmh x) ∨ ∀ x, readSlot sb s ≠ .hmh x) :
    exec (.hmhMerge sa sb) s = .next (complete .slotKind s) := by
  obtain ⟨d, hd, he⟩ | ⟨-, he⟩ := onHmh_cases sa s _
  · exact he.trans (onHmh_of_not_hmh (h.resolve_left fun h => h d hd) _)
  · exact he

section

variable {d o : Hll} (hd : readSlot sa s = .hll d) (ho : readSlot sb s = .hll o)
include hd ho

theorem exec_hllMerge_of_hll : exec (.hllMerge sa sb) s = require (d.p == o.p) .incompatibleSketch s
    (.next (complete .ok (writeSlot sa (.hll { d with reg := List.zipWith umax d.reg o.reg }) s))) :=
  (onHll_of_hll hd _).trans (onHll_of_hll ho _)

theorem exec_hllMerge_of_incompatible (h : d.p ≠ o.p) :
    exec (.hllMerge sa sb) s = .next (complete .incompatibleSketch s) := by
  rw [exec_hllMerge_of_hll hd ho, beq_eq_false_iff_ne.2 h, require_false]

theorem exec_hllMerge_of_compatible (h : d.p = o.p) : exec (.hllMerge sa sb) s =
    .next (complete .ok (writeSlot sa (.hll { d with reg := List.zipWith umax d.reg o.reg }) s)) := by
  rw [exec_hllMerge_of_hll hd ho, beq_iff_eq.2 h, require_true]

end

section

variable {d o : Hmh} (hd : readSlot sa s = .hmh d) (ho : readSlot sb s = .hmh o)
include hd ho

theorem exec_hmhMerge_of_hmh : exec (.hmhMerge sa sb) s = require (d.p == o.p) .incompatibleSketch s
    (.next (complete .ok (writeSlot sa (.hmh
      { d with reg := List.zipWith umax d.reg o.reg, minv := List.zipWith umin d.minv o.minv }) s))) :=
  (onHmh_of_hmh hd _).trans (onHmh_of_hmh ho _)

theorem exec_hmhMerge_of_incompatible (h : d.p ≠ o.p) :
    exec (.hmhMerge sa sb) s = .next (complete .incompatibleSketch s) := by
  rw [exec_hmhMerge_of_hmh hd ho, beq_eq_false_iff_ne.2 h, require_false]

theorem exec_hmhMerge_of_compatible (h : d.p = o.p) : exec (.hmhMerge sa sb) s =
    .next (complete .ok (writeSlot sa (.hmh
      { d with reg := List.zipWith umax d.reg o.reg, minv := List.zipWith umin d.minv o.minv }) s)) := by
  rw [exec_hmhMerge_of_hmh hd ho, beq_iff_eq.2 h, require_true]

end

end

/-! ### Reading back an entry (R176, R194, R195) -/

/-- What HLL_RDREG, HMH_RDREG and HMH_RDMIN share: entry ARG of an array of `n` entries, given as RESULT. -/
def readEntry {w : Nat} (n : Nat) (entries : List (BitVec w)) (s : State) : StepOutcome :=
  require (decide (argIndex s < n)) .invalidArgument s
    (finish (setResult ((entries.getD (argIndex s) 0).setWidth 32) 0 s))

section

variable {sa : SlotNo} {s : State}

theorem exec_hllRdreg : exec (.hllRdreg sa) s = onHll sa s fun h => readEntry (2 ^ h.p) h.reg s := rfl

theorem exec_hmhRdreg : exec (.hmhRdreg sa) s = onHmh sa s fun x => readEntry (2 ^ x.p) x.reg s := rfl

theorem exec_hmhRdmin : exec (.hmhRdmin sa) s = onHmh sa s fun x => readEntry (2 ^ x.p) x.minv s := by
  simp only [exec, execHmhRdmin, readEntry, BitVec.setWidth_eq]

variable {w n : Nat} {entries : List (BitVec w)}

theorem readEntry_of_ge (h : n ≤ s.regs.arg.toNat) : readEntry n entries s = .next (complete .invalidArgument s) := by
  rw [readEntry, argIndex, decide_eq_false (Nat.not_lt.2 h), require_false]

theorem readEntry_of_lt {v : BitVec w} (h : s.regs.arg.toNat < n) (hv : entries[s.regs.arg.toNat]? = some v) :
    readEntry n entries s = .next (complete .ok (setResult (BitVec.ofNat 32 v.toNat) 0 s)) := by
  rw [readEntry, argIndex, decide_eq_true h, require_true, List.getD_eq_getElem?_getD, hv, Option.getD_some, finish,
    BitVec.ofNat_toNat]

end

/-! ### Registers as maxima over a list of hashes (R177) -/

/-- The registers after folding in a list of hashes, one by one. -/
def digestAllRegisters (p : Nat) (reg : List Byte) (hs : List Word) : List Byte := hs.foldl (digestRegisters p) reg

section

variable {p : Nat} {reg : List Byte}

theorem digestAllRegisters_length (hs : List Word) : (digestAllRegisters p reg hs).length = reg.length := by
  induction hs generalizing reg with
  | nil => rfl
  | cons h hs ih => exact ih.trans (digestRegisters_length p reg h)

variable (hp : p ≤ 32)
include hp

/-- A register after digesting is the largest of the old one and the register values of the hashes routed to it. -/
theorem digestAllRegisters_le_iff {j : Nat} (hj : j < reg.length) (hs : List Word) (v : Nat) :
    ((digestAllRegisters p reg hs).getD j 0).toNat ≤ v ↔ (reg.getD j 0).toNat ≤ v ∧
      ∀ h ∈ hs, h.toNat / 2 ^ (32 - p) = j → lzc32 (window h p) + 1 ≤ v := by
  induction hs generalizing reg with
  | nil => simp [digestAllRegisters]
  | cons h hs ih =>
    have hrest := ih (reg := digestRegisters p reg h) (digestRegisters_length p reg h ▸ hj)
    rw [getD_digestRegisters hp h hj, foldedRegister_le_iff] at hrest
    rw [List.forall_mem_cons, ← and_assoc]
    exact hrest

/-- Merging what `xs` and `ys` gave is digesting both, in any order and multiplicity. -/
theorem zipWith_umax_digestAllRegisters {xs ys zs : List Word} (hmem : ∀ h, h ∈ zs ↔ h ∈ xs ∨ h ∈ ys) :
    List.zipWith umax (digestAllRegisters p reg xs) (digestAllRegisters p reg ys) = digestAllRegisters p reg zs := by
  refine List.ext_getElem (by simp [digestAllRegisters_length]) fun j _ hj => ?_
  have hreg : j < reg.length := digestAllRegisters_length zs ▸ hj
  have hall (hs : List Word) : j < (digestAllRegisters p reg hs).length := (digestAllRegisters_length hs).symm ▸ hreg
  rw [← List.getD_eq_getElem _ 0, ← List.getD_eq_getElem _ 0, getD_zipWith (hall xs) (hall ys)]
  refine BitVec.eq_of_toNat_eq (eq_of_forall_ge_iff fun v => ?_)
  simp only [umax_toNat, max_le_iff, digestAllRegisters_le_iff hp hreg, hmem, or_imp, forall_and]
  tauto

end

theorem foldr_max_le_iff {l : List Nat} {v : Nat} : l.foldr max 0 ≤ v ↔ ∀ x ∈ l, x ≤ v := by
  induction l with
  | nil => simp
  | cons x l ih => rw [List.foldr_cons, max_le_iff, ih, List.forall_mem_cons]

/-- From empty registers, each becomes the maximum of 0 and the register values of the hashes routed to it. -/
theorem digestAllRegisters_of_zeros {p j : Nat} (hp : p ≤ 32) (hj : j < 2 ^ p) (hs : List Word) :
    ((digestAllRegisters p (List.replicate (2 ^ p) 0) hs).getD j 0).toNat =
      ((hs.filter fun h => h.toNat / 2 ^ (32 - p) == j).map fun h => lzc32 (window h p) + 1).foldr max 0 := by
  refine eq_of_forall_ge_iff fun v => ?_
  have hempty : (0 : Byte).toNat ≤ v := Nat.zero_le v
  rw [digestAllRegisters_le_iff hp (by rwa [List.length_replicate]), List.getD_replicate _ hj, and_iff_right hempty,
    foldr_max_le_iff, List.forall_mem_map]
  simp only [List.mem_filter, beq_iff_eq, and_imp]

/-! ### Digesting a list (R173, R177) -/

section

variable {sa : SlotNo} {s : State} {h : Hll} (hslot : readSlot sa s = .hll h)
include hslot

theorem exec_hllDigest_withHash (x : Word) : ∃ t, exec (.hllDigest sa) (withHash x s) = .next t ∧
    readSlot sa t = .hll { h with reg := digestRegisters h.p h.reg x } ∧ ∀ n, n ≠ sa → readSlot n t = readSlot n s :=
  ⟨_, onHll_of_hll (s := withHash x s) hslot _,
    readSlot_writeSlot_same sa _ (withHash x s) (lt_length_of_hll hslot),
    fun _ hn => readSlot_writeSlot_other _ (withHash x s) hn⟩

/-- Digesting a list ends with its maxima in the slot and every other slot as it was. -/
theorem feed_hllDigest (xs : List Word) : ∃ t, feed (.hllDigest sa) xs s = .next t ∧
    readSlot sa t = .hll { h with reg := digestAllRegisters h.p h.reg xs } ∧
      ∀ n, n ≠ sa → readSlot n t = readSlot n s := by
  induction xs generalizing s h with
  | nil => exact ⟨s, rfl, hslot, fun _ _ => rfl⟩
  | cons x xs ih =>
    obtain ⟨u, hexec, hu, hother⟩ := exec_hllDigest_withHash hslot x
    obtain ⟨t, hfeed, ht, hothers⟩ := ih hu
    exact ⟨t, (feed_cons hexec xs).trans hfeed, ht, fun n hn => (hothers n hn).trans (hother n hn)⟩

end

/-! ### The obligations -/

/-- Settles O47: the guard bit bounds the window's leading zeros, and is alone there where the low bits are 0. -/
theorem bucketAndWindowBounds : Obligations.BucketAndWindowBounds := by
  intro h p hlo hhi
  have hpos : 1 ≤ p := by omega
  have hp : p ≤ 32 := by omega
  have hbucket := bucket_eq_div h hp
  exact ⟨hbucket, hbucket ▸ div_two_pow_lt h hp, window_toNat h hp, window_getLsbD_guard h hp,
    lzc32_window_le h hpos hp, rho_toNat h p, rho_eq_max_iff h hpos hp⟩

/-- Settles O48: both arrays are set at the hash's bucket alone. -/
theorem digestsUpdateOneBucket : Obligations.DigestsUpdateOneBucket := by
  rintro s sa ⟨-, -, ⟨-, hpmax⟩, -⟩
  refine ⟨fun hs => onHll_of_not_hll hs _, fun hs => onHmh_of_not_hmh hs _, fun h hs => ?_, fun x hs => ?_⟩
  · rintro ⟨⟨-, hp⟩, hreg⟩
    refine ⟨_, onHll_of_hll hs _, (digestRegisters_length ..).trans hreg, fun j hj => ?_⟩
    exact getD_digestRegisters (by omega) _ (hreg ▸ hj)
  · rintro ⟨⟨-, hp⟩, hreg, hminv⟩
    refine ⟨_, _, onHmh_of_hmh hs _, (digestRegisters_length ..).trans hreg, List.length_set.trans hminv,
      fun j hj => ?_⟩
    exact ⟨getD_digestRegisters (by omega) _ (hreg ▸ hj), getD_set_bucket_umin (by omega) _ (hminv ▸ hj)⟩

/-- Settles O50: the arrays are merged entry by entry once the kinds and then the precisions are checked. -/
theorem precisionMergesTakeExtremes : Obligations.PrecisionMergesTakeExtremes := by
  intro s sa sb
  refine ⟨exec_hllMerge_of_not_hll, exec_hmhMerge_of_not_hmh,
    fun d o hd ho => ⟨exec_hllMerge_of_incompatible hd ho, ?_⟩,
    fun d o hd ho => ⟨exec_hmhMerge_of_incompatible hd ho, ?_⟩⟩
  · rintro hp ⟨-, hregd⟩ ⟨-, hrego⟩
    refine ⟨_, exec_hllMerge_of_compatible hd ho hp, by simp [hregd, hrego, hp], fun j hj => ?_⟩
    rw [getD_zipWith (hregd ▸ hj) (hrego ▸ hp ▸ hj), umax_toNat]
  · rintro hp ⟨-, hregd, hminvd⟩ ⟨-, hrego, hminvo⟩
    refine ⟨_, _, exec_hmhMerge_of_compatible hd ho hp, by simp [hregd, hrego, hp], by simp [hminvd, hminvo, hp],
      fun j hj => ⟨?_, ?_⟩⟩
    · rw [getD_zipWith (hregd ▸ hj) (hrego ▸ hp ▸ hj), umax_toNat]
    · rw [getD_zipWith (hminvd ▸ hj) (hminvo ▸ hp ▸ hj), umin_toNat]

/-- Settles O52: each register is a maximum over the hashes digested, and a maximum over both lists is the maximum of
the two maxima. -/
theorem hllRegistersAreMaximaOfTheUnion : Obligations.HllRegistersAreMaximaOfTheUnion := by
  rintro s a b c h xs ys zs ⟨-, -, ⟨-, hpmax⟩, -⟩ hab hac hbc - - - ⟨⟨-, hmax⟩, -⟩ hzeros ha hb hc hmem
  have hp : h.p ≤ 32 := by omega
  obtain ⟨t1, hfeed1, ha1, hother1⟩ := feed_hllDigest ha xs
  obtain ⟨t2, hfeed2, hb2, hother2⟩ := feed_hllDigest ((hother1 b hab.symm).trans hb) ys
  have hc2 : readSlot c t2 = .hll h := (hother2 c hbc.symm).trans ((hother1 c hac.symm).trans hc)
  obtain ⟨t3, hfeed3, hc3, hother3⟩ := feed_hllDigest hc2 zs
  have ha3 : readSlot a t3 = .hll { h with reg := digestAllRegisters h.p h.reg xs } :=
    (hother3 a hac).trans ((hother2 a hab).trans ha1)
  have hb3 : readSlot b t3 = .hll { h with reg := digestAllRegisters h.p h.reg ys } := (hother3 b hbc).trans hb2
  refine ⟨t1, t2, t3, _, hfeed1, hfeed2, hfeed3, exec_hllMerge_of_compatible ha3 hb3 rfl, rfl, ?_,
    digestAllRegisters h.p h.reg zs, ?_, fun j hj => ?_⟩
  · rw [readSlot_complete, readSlot_complete, readSlot_writeSlot_same a _ _ (lt_length_of_hll ha3),
      readSlot_writeSlot_other _ _ hac.symm, hc3, zipWith_umax_digestAllRegisters hp hmem]
  · rw [readSlot_complete, readSlot_writeSlot_other _ _ hac.symm, hc3]
  · rw [hzeros, digestAllRegisters_of_zeros hp hj]

/-- Settles O46: both commands make the same two checks before their fresh sketch. -/
theorem precisionSketchesStartEmpty : Obligations.PrecisionSketchesStartEmpty := by
  refine fun s sa p => ⟨fun h => ?_, fun hlo hhi h => ?_, fun hlo hhi h => ?_⟩
  · exact ⟨requirePrecision_of_out_of_range _ h, requirePrecision_of_out_of_range _ h⟩
  · exact ⟨requirePrecision_of_gt_pmax _ hlo hhi h, requirePrecision_of_gt_pmax _ hlo hhi h⟩
  · exact ⟨requirePrecision_of_le_pmax _ hlo hhi h, requirePrecision_of_le_pmax _ hlo hhi h⟩

/-- Settles O49: the three reads are one read of entry ARG, of the registers or of the minValues. -/
theorem hllClearAndReadBack : Obligations.HllClearAndReadBack := by
  intro s sa
  refine ⟨fun h => ⟨onHll_of_not_hll h _, onHll_of_not_hll h _⟩,
    fun h => ⟨onHmh_of_not_hmh h _, onHmh_of_not_hmh h _⟩, fun h hs => ?_, fun x hs => ?_⟩
  · rw [exec_hllRdreg, onHll_of_hll hs]
    exact ⟨onHll_of_hll hs _, readEntry_of_ge, fun hlt r hr => readEntry_of_lt hlt hr⟩
  · rw [exec_hmhRdreg, exec_hmhRdmin, onHmh_of_hmh hs, onHmh_of_hmh hs]
    refine ⟨fun hge => ⟨readEntry_of_ge hge, readEntry_of_ge hge⟩,
      fun hlt => ⟨fun r hr => readEntry_of_lt hlt hr, fun v hv => ?_⟩⟩
    rw [readEntry_of_lt hlt hv, BitVec.ofNat_toNat, BitVec.setWidth_eq]

end Sys2Proof.Proofs
end

section
/-! PROOFS. HMH_AGREE (45_hllminhash.md R193): its checks in order, and its count as a cardinality over buckets. -/

namespace Sys2Proof.Proofs

open Sys2Proof Sys2Proof.Machine

/-- For two lists of one length, the count of agreement is the number of indices with equal entries. -/
theorem agreeCount_singleton_eq_card {n : Nat} {v w : List Word} (hv : v.length = n) (hw : w.length = n) :
    agreeCount n v [w] = ((Finset.range n).filter fun i => v.getD i 0 = w.getD i 0).card := by
  rw [agreeCount_eq_card hv (List.forall_mem_singleton.2 hw)]
  exact congrArg Finset.card (Finset.filter_congr fun i _ => List.forall_mem_singleton.trans eq_comm)

section

variable {sa sb : SlotNo} {s : State}

theorem exec_hmhAgree_of_not_hmh (h : (∀ x, readSlot sa s ≠ .hmh x) ∨ ∀ x, readSlot sb s ≠ .hmh x) :
    exec (.hmhAgree sa sb) s = .next (complete .slotKind s) := by
  obtain ⟨a, ha, he⟩ | ⟨-, he⟩ := onHmh_cases sa s _
  · exact he.trans (onHmh_of_not_hmh (h.resolve_left fun h => h a ha) _)
  · exact he

variable {a b : Hmh} (ha : readSlot sa s = .hmh a) (hb : readSlot sb s = .hmh b)
include ha hb

theorem exec_hmhAgree_of_hmh : exec (.hmhAgree sa sb) s = require (a.p == b.p) .incompatibleSketch s
    (.next (complete .ok (setResult (BitVec.ofNat 32 (agreeCount (2 ^ a.p) a.minv [b.minv]))
      (BitVec.ofNat 32 (2 ^ a.p)) s))) :=
  (onHmh_of_hmh ha _).trans (onHmh_of_hmh hb _)

theorem exec_hmhAgree_of_incompatible (h : a.p ≠ b.p) :
    exec (.hmhAgree sa sb) s = .next (complete .incompatibleSketch s) := by
  rw [exec_hmhAgree_of_hmh ha hb, beq_eq_false_iff_ne.2 h, require_false]

theorem exec_hmhAgree_of_compatible (h : a.p = b.p) : exec (.hmhAgree sa sb) s =
    .next (complete .ok (setResult (BitVec.ofNat 32 (agreeCount (2 ^ a.p) a.minv [b.minv]))
      (BitVec.ofNat 32 (2 ^ a.p)) s)) := by
  rw [exec_hmhAgree_of_hmh ha hb, beq_iff_eq.2 h, require_true]

end

/-- Settles O51: after the kinds and the precisions are checked, both minValue arrays have `2^P` entries, so the count
is over all buckets. -/
theorem hmhAgreeCountsEqualMinima : Obligations.HmhAgreeCountsEqualMinima := by
  intro s sa sb
  refine ⟨exec_hmhAgree_of_not_hmh, fun a b ha hb => ⟨exec_hmhAgree_of_incompatible ha hb, ?_⟩⟩
  rintro hp ⟨-, -, hminva⟩ ⟨-, -, hminvb⟩
  rw [exec_hmhAgree_of_compatible ha hb hp, agreeCount_singleton_eq_card hminva (hp ▸ hminvb)]

end Sys2Proof.Proofs
end

section
/-! PROOFS. The serializers and deserializers (46_serdes.md): the blob as consecutive bytes in memory, what each command
does after its checks, and the round trips of R217. -/

namespace Sys2Proof.Proofs

open Sys2Proof Sys2Proof.Machine

/-! ### Consecutive bytes in blob memory (20_memory.md R62) -/

/-- From address `a` up, memory holds the bytes `bs`. -/
def HoldsBytes (m : Memory) (a : Nat) (bs : List Byte) : Prop := ∀ i < bs.length, Memory.read m (a + i) = bs[i]?

section

variable {m : Memory} {a n : Nat} {bs : List Byte}

theorem holdsBytes_nil (m : Memory) (a : Nat) : HoldsBytes m a [] := nofun

theorem holdsBytes_append {cs : List Byte} :
    HoldsBytes m a (bs ++ cs) ↔ HoldsBytes m a bs ∧ HoldsBytes m (a + bs.length) cs := by
  unfold HoldsBytes
  rw [List.length_append]
  constructor
  · refine fun h => ⟨fun i hi => ?_, fun i hi => ?_⟩
    · rw [h i (by omega), List.getElem?_append_left hi]
    · rw [Nat.add_assoc, h _ (by omega), List.getElem?_append_right (by omega), Nat.add_sub_cancel_left]
  · rintro ⟨hbs, hcs⟩ i hi
    rcases Nat.lt_or_ge i bs.length with hlt | hge
    · rw [hbs i hlt, List.getElem?_append_left hlt]
    · obtain ⟨j, rfl⟩ := Nat.exists_eq_add_of_le hge
      rw [← Nat.add_assoc, hcs j (by omega), List.getElem?_append_right hge, Nat.add_sub_cancel_left]

theorem readList_eq_some_iff : Memory.readList m a n = some bs ↔ bs.length = n ∧ HoldsBytes m a bs := by
  rw [Memory.readList_eq_some]
  exact and_congr_right fun hlen => hlen ▸ Iff.rfl

theorem holdsBytes_writeList (m : Memory) (a : Nat) (bs : List Byte) :
    HoldsBytes (Memory.writeList m a bs) a bs := by
  intro i hi
  rw [Memory.read_writeList, if_pos (by omega), Nat.add_sub_cancel_left]

/-- Writing bytes over themselves changes no byte. -/
theorem read_writeList_of_holdsBytes (h : HoldsBytes m a bs) (x : Nat) :
    Memory.read (Memory.writeList m a bs) x = Memory.read m x := by
  rw [Memory.read_writeList]
  split
  · have hx := h (x - a) (by omega)
    rw [← hx, Nat.add_sub_of_le (by omega)]
  · rfl

theorem holdsBytes_leBytes {v : Nat} : HoldsBytes m a (leBytes n v) ↔
    ∀ i < n, Memory.read m (a + i) = some (BitVec.ofNat 8 (v / 2 ^ (8 * i))) := by
  unfold HoldsBytes
  rw [leBytes_length]
  exact forall₂_congr fun i hi => by rw [getElem?_leBytes hi]

theorem leValue_lt (bs : List Byte) : leValue bs < 2 ^ (8 * bs.length) := by
  have h := leValue_leBytes bs.length (leValue bs)
  rw [leBytes_leValue] at h
  exact h ▸ Nat.mod_lt _ (Nat.two_pow_pos _)

theorem memRead_eq_some_iff {v : Nat} :
    memRead m a n = some v ↔ v < 2 ^ (8 * n) ∧ HoldsBytes m a (leBytes n v) := by
  simp only [memRead, Option.map_eq_some_iff, readList_eq_some_iff]
  constructor
  · rintro ⟨bs, ⟨rfl, hbs⟩, rfl⟩
    exact ⟨leValue_lt bs, (leBytes_leValue bs).symm ▸ hbs⟩
  · rintro ⟨hv, hbs⟩
    exact ⟨_, ⟨leBytes_length n v, hbs⟩, by rw [leValue_leBytes, Nat.mod_eq_of_lt hv]⟩

theorem memRead_byte {b : Byte} : memRead m a 1 = some b.toNat ↔ Memory.read m a = some b := by
  rw [memRead_eq_some_iff, and_iff_right b.isLt, holdsBytes_leBytes]
  simp

theorem memRead_word {v : Word} : memRead m a 4 = some v.toNat ↔ HoldsBytes m a (leBytes 4 v.toNat) := by
  rw [memRead_eq_some_iff, and_iff_right v.isLt]

theorem readWords_succ_eq_some {w : Word} {ws : List Word} : readWords m a (n + 1) = some (w :: ws) ↔
    memRead m a 4 = some w.toNat ∧ readWords m (a + 4) n = some ws := by
  rw [readWords]
  constructor
  · intro h
    split at h
    · rename_i v rest hv hrest
      cases h
      rw [hv, BitVec.toNat_ofNat, Nat.mod_eq_of_lt (memRead_eq_some_iff.1 hv).1]
      exact ⟨rfl, hrest⟩
    · cases h
  · rintro ⟨hw, hws⟩
    simp only [hw, hws, BitVec.ofNat_toNat, BitVec.setWidth_eq]

/-- Reading words gives those whose bytes stand one after the other. -/
theorem readWords_eq_some_iff {ws : List Word} : readWords m a n = some ws ↔
    ws.length = n ∧ HoldsBytes m a (ws.flatMap fun v => leBytes 4 v.toNat) := by
  induction n generalizing a ws with
  | zero => cases ws <;> simp [readWords, holdsBytes_nil]
  | succ n ih =>
    cases ws with
    | nil => exact ⟨fun h => absurd (readWords_length h) nofun, nofun⟩
    | cons w ws =>
      rw [readWords_succ_eq_some, ih, memRead_word, List.flatMap_cons, holdsBytes_append, leBytes_length,
        List.length_cons, Nat.add_right_cancel_iff]
      exact and_left_comm

/-- The bytes of words, word by word. -/
theorem holdsBytes_words {ws : List Word} : HoldsBytes m a (ws.flatMap fun v => leBytes 4 v.toNat) ↔
    ∀ j < ws.length, memRead m (a + 4 * j) 4 = some (ws.getD j 0).toNat := by
  induction ws generalizing a with
  | nil => simp [holdsBytes_nil]
  | cons w ws ih =>
    rw [List.flatMap_cons, holdsBytes_append, leBytes_length, ih, ← memRead_word, List.length_cons,
      Nat.forall_lt_succ_left]
    simp only [List.getD_cons_zero, List.getD_cons_succ, Nat.mul_zero, Nat.add_zero, Nat.mul_add_one,
      Nat.add_comm (4 * _) 4, Nat.add_assoc]

end

/-! ### The two blob layouts (R211, R212) -/

/-- Memory holds a MinHash blob exactly if MH_DES's reads give the signature's seed, `k` and hash values. -/
theorem holdsBytes_mhBlob {m : Memory} {x : MinHash} (hlen : x.hv.length = x.k) (hk : x.k < 2 ^ 32) :
    HoldsBytes m 0 (mhBlob x) ↔
      memRead m 0 8 = some x.seed.toNat ∧ memRead m 8 4 = some x.k ∧ readWords m 12 x.k = some x.hv := by
  rw [mhBlob, holdsBytes_append, holdsBytes_append, memRead_eq_some_iff, memRead_eq_some_iff, readWords_eq_some_iff,
    and_iff_right x.seed.isLt, and_iff_right hk, and_iff_right hlen, and_assoc, List.length_append, leBytes_length,
    leBytes_length]

/-- Memory holds a HyperLogLog blob exactly if HLL_DES's reads give the sketch's `P` and registers. -/
theorem holdsBytes_hllBlob {m : Memory} {x : Hll} (hlen : x.reg.length = 2 ^ x.p) (hp : x.p < 2 ^ 8) :
    HoldsBytes m 0 (hllBlob x) ↔ memRead m 0 1 = some x.p ∧ Memory.readList m 1 (2 ^ x.p) = some x.reg := by
  rw [hllBlob, holdsBytes_append, memRead_eq_some_iff, readList_eq_some_iff, and_iff_right hp, and_iff_right hlen,
    leBytes_length]

/-! ### What completes OK has passed its checks (60_exceptions.md R271) -/

section

variable {s t : State}

theorem of_require_ok {ok : Bool} {c : ResultCode} {k : StepOutcome} (h : require ok c s k = .next t)
    (ht : t.status.code = .ok) (hc : c ≠ .ok) : ok = true ∧ k = .next t := by
  rcases require_cases ok c s k with ⟨hok, e⟩ | ⟨-, e⟩ <;> rw [e] at h
  · exact ⟨hok, h⟩
  · cases h
    exact absurd ht hc

theorem of_onWritten_next {α : Type} {v : Option α} {k : α → StepOutcome} (h : onWritten v k = .next t) :
    ∃ x, v = some x ∧ k x = .next t := by
  rcases onWritten_cases v k with ⟨x, hx, e⟩ | ⟨-, e⟩ <;> rw [e] at h
  · exact ⟨x, hx, h⟩
  · cases h

end

/-! ### The serializers (R213, R215) -/

section

variable {size : Nat} {bytes : List Byte} {sa : SlotNo} {s : State}

theorem exec_mhSer_of_minhash {m : MinHash} (h : readSlot sa s = .minhash m) :
    exec (.mhSer sa) s = serialize (mhBlobSize m.k) (mhBlob m) s := onMinHash_of_minhash h _

theorem exec_hllSer_of_hll {h : Hll} (hh : readSlot sa s = .hll h) :
    exec (.hllSer sa) s = serialize (hllBlobSize h.p) (hllBlob h) s := onHll_of_hll hh _

theorem serialize_of_gt_limit (h : s.params.blobBytes < bufferLen s) :
    serialize size bytes s = .next (complete .invalidArgument s) := by
  rw [serialize, decide_eq_false (Nat.not_le.2 h), require_false]

variable (hlimit : bufferLen s ≤ s.params.blobBytes)
include hlimit

theorem serialize_of_short (h : bufferLen s < size) :
    serialize size bytes s = .next (complete .bufferTooSmall s) := by
  rw [serialize, decide_eq_true hlimit, require_true, decide_eq_false (Nat.not_le.2 h), require_false]

theorem serialize_of_fits (h : size ≤ bufferLen s) : serialize size bytes s = .next (complete .ok
    (setResult (BitVec.ofNat 32 size) 0 (setBlob (Memory.writeList s.blob 0 bytes) s))) := by
  rw [serialize, decide_eq_true hlimit, require_true, decide_eq_true h, require_true, finish]

/-- Serializing what blob memory already holds leaves every byte as it was. -/
theorem serialize_of_holdsBytes (h : size ≤ bufferLen s) (hbytes : HoldsBytes s.blob 0 bytes) :
    ∃ u, serialize size bytes s = .next u ∧ u.status.code = .ok ∧ u.regs.result = BitVec.ofNat 32 size ∧
      ∀ a, Memory.read u.blob a = Memory.read s.blob a :=
  ⟨_, serialize_of_fits hlimit h, rfl, rfl, read_writeList_of_holdsBytes hbytes⟩

end

/-! ### MH_DES (R214) -/

/-- MH_DES once it has read `k`: the checks on `k`, then the payload. -/
def mhDesPayload (g : Prng) (sa : SlotNo) (k : Nat) (s : State) : StepOutcome :=
  require (decide (k ≠ 0)) .invalidArgument s <|
  require (decide (mhBlobSize k ≤ bufferLen s)) .truncatedBuffer s <|
  require (decide (k ≤ s.params.kmax)) .capacityExceeded s <|
  onWritten (memRead s.blob 0 8) fun seed =>
  onWritten (readWords s.blob 12 k) fun hv =>
    match permGen g (BitVec.ofNat 64 seed) k with
    | none => hang s
    | some perm =>
      finish (setResult (BitVec.ofNat 32 (mhBlobSize k)) 0
        (writeSlot sa (.minhash { seed := BitVec.ofNat 64 seed, k := k, perm := perm, hv := hv }) s))

/-- MH_DES has loaded the signature `m` into slot `sa`. -/
def mhLoaded (sa : SlotNo) (m : MinHash) (s : State) : State :=
  complete .ok (setResult (BitVec.ofNat 32 (mhBlobSize m.k)) 0 (writeSlot sa (.minhash m) s))

section

variable {g : Prng} {sa : SlotNo} {s : State}

theorem mhDesWith_eq : mhDesWith g sa s =
    require (decide (bufferLen s ≤ s.params.blobBytes)) .invalidArgument s
      (require (decide (12 ≤ bufferLen s)) .truncatedBuffer s
        (onWritten (memRead s.blob 8 4) fun k => mhDesPayload g sa k s)) := rfl

theorem mhDesWith_of_gt_limit (h : s.params.blobBytes < bufferLen s) :
    mhDesWith g sa s = .next (complete .invalidArgument s) := by
  rw [mhDesWith_eq, decide_eq_false (Nat.not_le.2 h), require_false]

theorem mhDesWith_of_lt_header (hlimit : bufferLen s ≤ s.params.blobBytes) (h : bufferLen s < 12) :
    mhDesWith g sa s = .next (complete .truncatedBuffer s) := by
  rw [mhDesWith_eq, decide_eq_true hlimit, require_true, decide_eq_false (Nat.not_le.2 h), require_false]

variable {k : Nat}

theorem mhDesWith_of_header (hlimit : bufferLen s ≤ s.params.blobBytes) (hlen : 12 ≤ bufferLen s)
    (hk : memRead s.blob 8 4 = some k) : mhDesWith g sa s = mhDesPayload g sa k s := by
  rw [mhDesWith_eq, decide_eq_true hlimit, require_true, decide_eq_true hlen, require_true, hk, onWritten]

theorem mhDesPayload_of_zero (h : k = 0) : mhDesPayload g sa k s = .next (complete .invalidArgument s) := by
  rw [mhDesPayload, decide_eq_false (not_not_intro h), require_false]

variable (hpos : k ≠ 0)
include hpos

theorem mhDesPayload_of_truncated (h : bufferLen s < mhBlobSize k) :
    mhDesPayload g sa k s = .next (complete .truncatedBuffer s) := by
  rw [mhDesPayload, decide_eq_true hpos, require_true, decide_eq_false (Nat.not_le.2 h), require_false]

variable (hsize : mhBlobSize k ≤ bufferLen s)
include hsize

theorem mhDesPayload_of_gt_kmax (h : s.params.kmax < k) :
    mhDesPayload g sa k s = .next (complete .capacityExceeded s) := by
  rw [mhDesPayload, decide_eq_true hpos, require_true, decide_eq_true hsize, require_true,
    decide_eq_false (Nat.not_le.2 h), require_false]

variable {seed : Nat} {hv : List Word} (hmax : k ≤ s.params.kmax) (hseed : memRead s.blob 0 8 = some seed)
  (hhv : readWords s.blob 12 k = some hv)
include hmax hseed hhv

theorem mhDesPayload_of_hang (h : permGen g (BitVec.ofNat 64 seed) k = none) : mhDesPayload g sa k s = .next s := by
  rw [mhDesPayload, decide_eq_true hpos, require_true, decide_eq_true hsize, require_true, decide_eq_true hmax,
    require_true, hseed, onWritten, hhv, onWritten, h]
  rfl

theorem mhDesPayload_of_generated {ps : List (Word × Word)} (h : permGen g (BitVec.ofNat 64 seed) k = some ps) :
    mhDesPayload g sa k s = .next (mhLoaded sa ⟨BitVec.ofNat 64 seed, k, ps, hv⟩ s) := by
  rw [mhDesPayload, decide_eq_true hpos, require_true, decide_eq_true hsize, require_true, decide_eq_true hmax,
    require_true, hseed, onWritten, hhv, onWritten, h]
  rfl

end

section

variable {g : Prng} {sa : SlotNo} {s t : State} {m : MinHash}

/-- MH_DES loads the signature whose blob the buffer holds, its permutations regenerated. -/
theorem mhDesWith_of_holdsBytes (hm : m.shaped s.params) (hlimit : bufferLen s ≤ s.params.blobBytes)
    (hsize : mhBlobSize m.k ≤ bufferLen s) (hbytes : HoldsBytes s.blob 0 (mhBlob m))
    (hgen : permGen g m.seed m.k = some m.perm) : mhDesWith g sa s = .next (mhLoaded sa m s) := by
  obtain ⟨⟨hpos, hmax⟩, -, hlen⟩ := hm
  have hsize' : 12 + 4 * m.k ≤ bufferLen s := hsize
  have hword : bufferLen s < 2 ^ 32 := s.regs.blobLen.isLt
  obtain ⟨hseed, hk, hhv⟩ := (holdsBytes_mhBlob hlen (by omega)).1 hbytes
  have hseedWord : BitVec.ofNat 64 m.seed.toNat = m.seed := by rw [BitVec.ofNat_toNat, BitVec.setWidth_eq]
  rw [mhDesWith_of_header hlimit (by omega) hk,
    mhDesPayload_of_generated (by omega) hsize hmax hseed hhv (hseedWord.symm ▸ hgen), hseedWord]

/-- Where MH_DES completes OK, it has loaded a signature whose blob the buffer holds. -/
theorem mhDesWith_completes_ok (hbusy : s.status.busy = true) (h : mhDesWith g sa s = .next t)
    (hdone : t.status.busy = false) (hok : t.status.code = .ok) :
    ∃ m, t = mhLoaded sa m s ∧ bufferLen s ≤ s.params.blobBytes ∧ mhBlobSize m.k ≤ bufferLen s ∧
      HoldsBytes s.blob 0 (mhBlob m) := by
  rw [mhDesWith_eq] at h
  obtain ⟨hlimit, h⟩ := of_require_ok h hok nofun
  obtain ⟨-, h⟩ := of_require_ok h hok nofun
  obtain ⟨k, hk, h⟩ := of_onWritten_next h
  rw [mhDesPayload] at h
  obtain ⟨-, h⟩ := of_require_ok h hok nofun
  obtain ⟨hsize, h⟩ := of_require_ok h hok nofun
  obtain ⟨-, h⟩ := of_require_ok h hok nofun
  obtain ⟨seed, hseed, h⟩ := of_onWritten_next h
  obtain ⟨hv, hhv, h⟩ := of_onWritten_next h
  split at h
  · cases h
    cases hbusy.symm.trans hdone
  · rename_i ps _
    cases h
    have hseedWord : (BitVec.ofNat 64 seed).toNat = seed := Nat.mod_eq_of_lt (memRead_eq_some_iff.1 hseed).1
    exact ⟨⟨BitVec.ofNat 64 seed, k, ps, hv⟩, rfl, of_decide_eq_true hlimit, of_decide_eq_true hsize,
      (holdsBytes_mhBlob (readWords_length hhv) (memRead_eq_some_iff.1 hk).1).2 ⟨hseedWord.symm ▸ hseed, hk, hhv⟩⟩

theorem readSlot_mhLoaded (h : sa.val < s.slots.length) : readSlot sa (mhLoaded sa m s) = .minhash m :=
  readSlot_writeSlot_same sa (.minhash m) s h

end

/-! ### HLL_DES (R216) -/

/-- HLL_DES once it has read `P`: the checks on `P`, then the registers. -/
def hllDesPayload (sa : SlotNo) (p : Nat) (s : State) : StepOutcome :=
  require (decide (4 ≤ p) && decide (p ≤ 16)) .invalidArgument s <|
  require (decide (hllBlobSize p ≤ bufferLen s)) .truncatedBuffer s <|
  require (decide (p ≤ s.params.pmax)) .capacityExceeded s <|
  onWritten (Memory.readList s.blob 1 (2 ^ p)) fun reg =>
    finish (setResult (BitVec.ofNat 32 (hllBlobSize p)) 0 (writeSlot sa (.hll { p := p, reg := reg }) s))

/-- HLL_DES has loaded the sketch `h` into slot `sa`. -/
def hllLoaded (sa : SlotNo) (h : Hll) (s : State) : State :=
  complete .ok (setResult (BitVec.ofNat 32 (hllBlobSize h.p)) 0 (writeSlot sa (.hll h) s))

section

variable {sa : SlotNo} {s : State}

theorem exec_hllDes_eq : exec (.hllDes sa) s =
    require (decide (bufferLen s ≤ s.params.blobBytes)) .invalidArgument s
      (require (decide (1 ≤ bufferLen s)) .truncatedBuffer s
        (onWritten (memRead s.blob 0 1) fun p => hllDesPayload sa p s)) := rfl

theorem exec_hllDes_of_gt_limit (h : s.params.blobBytes < bufferLen s) :
    exec (.hllDes sa) s = .next (complete .invalidArgument s) := by
  rw [exec_hllDes_eq, decide_eq_false (Nat.not_le.2 h), require_false]

theorem exec_hllDes_of_empty (h : bufferLen s = 0) : exec (.hllDes sa) s = .next (complete .truncatedBuffer s) := by
  rw [exec_hllDes_eq, h, decide_eq_true (Nat.zero_le _), require_true, decide_eq_false (by omega), require_false]

variable {p : Nat}

theorem exec_hllDes_of_header (hlimit : bufferLen s ≤ s.params.blobBytes) (hlen : 1 ≤ bufferLen s)
    (hp : memRead s.blob 0 1 = some p) : exec (.hllDes sa) s = hllDesPayload sa p s := by
  rw [exec_hllDes_eq, decide_eq_true hlimit, require_true, decide_eq_true hlen, require_true, hp, onWritten]

theorem hllDesPayload_of_out_of_range (h : p < 4 ∨ 16 < p) :
    hllDesPayload sa p s = .next (complete .invalidArgument s) := by
  have hrange : (decide (4 ≤ p) && decide (p ≤ 16)) = false := by
    rw [← Bool.decide_and, decide_eq_false_iff_not]
    omega
  rw [hllDesPayload, hrange, require_false]

variable (hlo : 4 ≤ p) (hhi : p ≤ 16)
include hlo hhi

theorem hllDesPayload_of_truncated (h : bufferLen s < hllBlobSize p) :
    hllDesPayload sa p s = .next (complete .truncatedBuffer s) := by
  rw [hllDesPayload, decide_eq_true hlo, decide_eq_true hhi, Bool.and_self, require_true,
    decide_eq_false (Nat.not_le.2 h), require_false]

variable (hsize : hllBlobSize p ≤ bufferLen s)
include hsize

theorem hllDesPayload_of_gt_pmax (h : s.params.pmax < p) :
    hllDesPayload sa p s = .next (complete .capacityExceeded s) := by
  rw [hllDesPayload, decide_eq_true hlo, decide_eq_true hhi, Bool.and_self, require_true, decide_eq_true hsize,
    require_true, decide_eq_false (Nat.not_le.2 h), require_false]

theorem hllDesPayload_of_read {reg : List Byte} (hmax : p ≤ s.params.pmax)
    (hreg : Memory.readList s.blob 1 (2 ^ p) = some reg) :
    hllDesPayload sa p s = .next (hllLoaded sa ⟨p, reg⟩ s) := by
  rw [hllDesPayload, decide_eq_true hlo, decide_eq_true hhi, Bool.and_self, require_true, decide_eq_true hsize,
    require_true, decide_eq_true hmax, require_true, hreg, onWritten, finish, hllLoaded]

end

section

variable {sa : SlotNo} {s t : State} {h : Hll}

/-- HLL_DES loads the sketch whose blob the buffer holds. -/
theorem exec_hllDes_of_holdsBytes (hh : h.shaped s.params) (hhi : h.p ≤ 16)
    (hlimit : bufferLen s ≤ s.params.blobBytes) (hsize : hllBlobSize h.p ≤ bufferLen s)
    (hbytes : HoldsBytes s.blob 0 (hllBlob h)) : exec (.hllDes sa) s = .next (hllLoaded sa h s) := by
  obtain ⟨⟨hlo, hmax⟩, hlen⟩ := hh
  obtain ⟨hp, hreg⟩ := (holdsBytes_hllBlob hlen (by omega)).1 hbytes
  rw [exec_hllDes_of_header hlimit (Nat.le_of_add_right_le hsize) hp, hllDesPayload_of_read hlo hhi hsize hmax hreg]

/-- Where HLL_DES completes OK, it has loaded a sketch whose blob the buffer holds. -/
theorem exec_hllDes_completes_ok (he : exec (.hllDes sa) s = .next t) (hok : t.status.code = .ok) :
    ∃ h, t = hllLoaded sa h s ∧ bufferLen s ≤ s.params.blobBytes ∧ hllBlobSize h.p ≤ bufferLen s ∧
      HoldsBytes s.blob 0 (hllBlob h) := by
  rw [exec_hllDes_eq] at he
  obtain ⟨hlimit, he⟩ := of_require_ok he hok nofun
  obtain ⟨-, he⟩ := of_require_ok he hok nofun
  obtain ⟨p, hp, he⟩ := of_onWritten_next he
  rw [hllDesPayload] at he
  obtain ⟨-, he⟩ := of_require_ok he hok nofun
  obtain ⟨hsize, he⟩ := of_require_ok he hok nofun
  obtain ⟨-, he⟩ := of_require_ok he hok nofun
  obtain ⟨reg, hreg, he⟩ := of_onWritten_next he
  cases he
  exact ⟨⟨p, reg⟩, rfl, of_decide_eq_true hlimit, of_decide_eq_true hsize,
    (holdsBytes_hllBlob (readList_eq_some_iff.1 hreg).1 (memRead_eq_some_iff.1 hp).1).2 ⟨hp, hreg⟩⟩

theorem readSlot_hllLoaded (hn : sa.val < s.slots.length) : readSlot sa (hllLoaded sa h s) = .hll h :=
  readSlot_writeSlot_same sa (.hll h) s hn

end

/-! ### The obligations -/

/-- Settles O53: the bytes written are the signature's blob, whose parts are the seed, `k` and the hash values. -/
theorem mhSerWritesTheBlob : Obligations.MhSerWritesTheBlob := by
  intro s sa
  refine ⟨fun h => onMinHash_of_not_minhash h _, ?_⟩
  rintro m hm ⟨-, -, hlen⟩ -
  rw [exec_mhSer_of_minhash hm]
  refine ⟨serialize_of_gt_limit, serialize_of_short, fun hlimit hsize => ⟨_, serialize_of_fits hlimit hsize, ?_⟩⟩
  have hword : s.regs.blobLen.toNat < 2 ^ 32 := s.regs.blobLen.isLt
  obtain ⟨hseed, hk, hhv⟩ := (holdsBytes_mhBlob hlen (by omega)).1 (holdsBytes_writeList s.blob 0 (mhBlob m))
  refine ⟨?_, holdsBytes_leBytes.1 (memRead_eq_some_iff.1 hk).2, fun j hj => ?_, fun a ha => ?_⟩
  · simpa only [Nat.zero_add] using holdsBytes_leBytes.1 (memRead_eq_some_iff.1 hseed).2
  · have hwords := holdsBytes_words.1 (readWords_eq_some_iff.1 hhv).2
    exact holdsBytes_leBytes.1 (memRead_word.1 (hwords j (hlen.symm ▸ hj)))
  · have hblob : (mhBlob m).length = 12 + 4 * m.k := mhBlob_length hlen
    rw [Memory.read_writeList, if_neg (by omega)]

/-- Settles O54: after each check that passes the next one decides, and the values read word by word are those that
MH_DES reads in one list. -/
theorem mhDesLoadsTheBlob : Obligations.MhDesLoadsTheBlob := by
  intro s sa
  refine ⟨mhDesWith_of_gt_limit, mhDesWith_of_lt_header, fun hlimit hlen k hk => ?_⟩
  rw [show exec (.mhDes sa) s = mhDesPayload Config.prng sa k s from mhDesWith_of_header hlimit hlen hk]
  refine ⟨mhDesPayload_of_zero, mhDesPayload_of_truncated, mhDesPayload_of_gt_kmax, ?_⟩
  rintro hpos hsize hmax seed hv hseed rfl hwords
  have hhv : readWords s.blob 12 hv.length = some hv := readWords_eq_some_iff.2 ⟨rfl, holdsBytes_words.2 hwords⟩
  cases hgen : permGen Config.prng (BitVec.ofNat 64 seed) hv.length with
  | none => exact mhDesPayload_of_hang hpos hsize hmax hseed hhv hgen
  | some ps => exact mhDesPayload_of_generated hpos hsize hmax hseed hhv hgen

/-- Settles O55: the bytes HLL_SER writes are the sketch's blob, and HLL_DES reads `P` and the registers where that
layout has them. -/
theorem hllSerdesLayout : Obligations.HllSerdesLayout := by
  rintro s sa ⟨-, -, ⟨-, hpmax⟩, -⟩
  refine ⟨fun h => onHll_of_not_hll h _, ?_, exec_hllDes_of_gt_limit, exec_hllDes_of_empty, ?_⟩
  · rintro h hh ⟨⟨-, hmax⟩, hlen⟩
    rw [exec_hllSer_of_hll hh]
    refine ⟨serialize_of_gt_limit, serialize_of_short, fun hlimit hsize => ⟨_, serialize_of_fits hlimit hsize, ?_⟩⟩
    obtain ⟨hp, hreg⟩ := (holdsBytes_hllBlob hlen (by omega)).1 (holdsBytes_writeList s.blob 0 (hllBlob h))
    refine ⟨by simpa using holdsBytes_leBytes.1 (memRead_eq_some_iff.1 hp).2 0 Nat.one_pos,
      ((Memory.readList_eq_some ..).1 hreg).2, fun a ha => ?_⟩
    have hblob : (hllBlob h).length = 1 + 2 ^ h.p := hllBlob_length hlen
    rw [Memory.read_writeList, if_neg (by omega)]
  · intro hlimit hlen b hb
    rw [exec_hllDes_of_header hlimit hlen (memRead_byte.2 hb)]
    refine ⟨hllDesPayload_of_out_of_range, hllDesPayload_of_truncated, hllDesPayload_of_gt_pmax, ?_⟩
    intro hlo hhi hsize hmax reg hreg hall
    exact hllDesPayload_of_read hlo hhi hsize hmax ((Memory.readList_eq_some ..).2 ⟨hreg, hall⟩)

/-- Settles O56: after MH_SER blob memory holds the signature's blob, and MH_DES loads what it holds; after MH_DES it
still holds the blob of what was loaded, so that MH_SER writes bytes over themselves. -/
theorem mhSerdesRoundTrip : Obligations.MhSerdesRoundTrip := by
  refine ⟨fun _ _ => rfl, ?_, ?_⟩
  · intro g s sa sb m _ hsb hm hshape hgen hsize hlimit
    exact ⟨_, _, (exec_mhSer_of_minhash hm).trans (serialize_of_fits hlimit hsize),
      mhDesWith_of_holdsBytes hshape hlimit hsize (holdsBytes_writeList s.blob 0 (mhBlob m)) hgen, rfl,
      readSlot_mhLoaded hsb⟩
  · intro g s t sa hsa hbusy h hdone hok
    obtain ⟨m, rfl, hlimit, hsize, hbytes⟩ := mhDesWith_completes_ok hbusy h hdone hok
    rw [exec_mhSer_of_minhash (readSlot_mhLoaded hsa)]
    exact serialize_of_holdsBytes hlimit hsize hbytes

/-- Settles O57: as for MinHash, HLL_DES loads what HLL_SER left in blob memory, and HLL_SER writes over itself what
HLL_DES loaded. -/
theorem hllSerdesRoundTrip : Obligations.HllSerdesRoundTrip := by
  constructor
  · rintro s sa sb h ⟨-, -, ⟨-, hpmax⟩, -⟩ hsb hh hshape hsize hlimit
    exact ⟨_, _, (exec_hllSer_of_hll hh).trans (serialize_of_fits hlimit hsize),
      exec_hllDes_of_holdsBytes hshape (hshape.1.2.trans hpmax) hlimit hsize
        (holdsBytes_writeList s.blob 0 (hllBlob h)), rfl, readSlot_hllLoaded hsb⟩
  · intro s t sa hsa he hok
    obtain ⟨h, rfl, hlimit, hsize, hbytes⟩ := exec_hllDes_completes_ok he hok
    rw [exec_hllSer_of_hll (readSlot_hllLoaded hsa)]
    exact serialize_of_holdsBytes hlimit hsize hbytes

end Sys2Proof.Proofs
end

section
/-! PROOFS. The control commands (47_control.md) and what a command that ends with an error leaves
(60_exceptions.md). -/

namespace Sys2Proof.Proofs

open Sys2Proof Sys2Proof.Machine Sys2Proof.Claim

/-! ### Control commands (R230 to R233) -/

section

variable (sa : SlotNo) (s : State)

theorem exec_nop : exec .nop s = .next (complete .ok s) := rfl

theorem exec_clrstat : exec .clrstat s = .next (complete .ok (clearAccumulated s)) := rfl

theorem exec_free : exec (.free sa) s = .next (complete .ok (writeSlot sa .empty s)) := rfl

theorem exec_info : exec (.info sa) s = .next (complete .ok (setResult (BitVec.ofNat 32 (slotInfo (readSlot sa s)).1)
    (BitVec.ofNat 32 (slotInfo (readSlot sa s)).2) s)) := rfl

end

/-! ### Errors (R272) -/

section

variable {s t : State}

/-- `t` is `s` but for STATUS, the pending command and the race it noted. -/
def ChangesOnlyStatus (s t : State) : Prop := t = { s with status := t.status, pending := t.pending, raced := t.raced }

theorem complete_changesOnlyStatus (c : ResultCode) (s : State) : ChangesOnlyStatus s (complete c s) := rfl

/-- A command ends with a code other than OK by an error or by the hang: every other end completes OK. -/
theorem CommandEnds.changesOnlyStatus {i : Instr} (h : CommandEnds i s (.next t)) (hcode : t.status.code ≠ .ok) :
    ChangesOnlyStatus s t := by
  cases h with
  | hung => rfl
  | raised => exact complete_changesOnlyStatus _ s
  | _ => exact absurd rfl hcode

end

/-! ### The obligations -/

/-- Settles O58: each command's own completion; CLRSTAT's OVR and counter are what `clearAccumulated` leaves, and the
size and kind INFO reports are read off the slot's kind. -/
theorem controlCommands : Obligations.ControlCommands := by
  refine fun s sa => ⟨exec_nop s, ⟨_, _, exec_clrstat s, fun hraced => ?_⟩, exec_free sa s, fun v0 v1 h => ?_⟩
  · simp [hraced]
  · rw [exec_info]
    rcases h with ⟨hs, rfl, rfl⟩ | ⟨m, hs, rfl, rfl⟩ | ⟨m, hs, rfl, rfl⟩ | ⟨m, hs, rfl, rfl⟩ | ⟨m, hs, rfl, rfl⟩ <;>
      rw [hs] <;> rfl

/-- Settles O17: an Illegal word completes, and a command that ends with an error has written nothing. -/
theorem errorsChangeOnlyStatus : Obligations.ErrorsChangeOnlyStatus := by
  intro s t w h hcode
  cases hd : decode s.params.nslot w with
  | error e =>
    rw [runCommand_illegal hd] at h
    cases h
    exact complete_changesOnlyStatus _ s
  | ok i =>
    rw [runCommand_ok hd] at h
    exact (h ▸ exec_ends i s : CommandEnds i s (.next t)).changesOnlyStatus hcode

end Sys2Proof.Proofs
end

section
/-! PROOFS. The host's estimators (48_host_estimators.md): the regimes of the count, its sign, and the union of two
sketches. -/

namespace Sys2Proof.Proofs

open Sys2Proof Sys2Proof.Machine Sys2Proof.Claim Sys2Proof.Machine.Estimate

/-! ### alpha and the raw estimate (R240, R241) -/

theorem alpha_pos (m : ℕ) : 0 < alpha m := by
  unfold alpha
  split_ifs <;> positivity

theorem alpha_le_one (m : ℕ) : alpha m ≤ 1 := by
  have hm : (0 : ℝ) ≤ 1.079 / m := by positivity
  unfold alpha
  split_ifs
  · norm_num
  · norm_num
  · norm_num
  · rw [div_le_one (by linarith)]
    linarith

theorem alpha_two_pow (p : Nat) : alpha (2 ^ p) = alphaOf p := by
  have hpow {q : Nat} : 2 ^ p = 2 ^ q ↔ p = q := Nat.pow_right_inj (le_refl 2)
  unfold alpha alphaOf
  rw [show 16 = 2 ^ 4 from rfl, show 32 = 2 ^ 5 from rfl, show 64 = 2 ^ 6 from rfl, Nat.cast_pow]
  simp only [hpow, Nat.cast_ofNat]

theorem map_range_getD {α : Type} (l : List α) (d : α) : (List.range l.length).map (fun j => l.getD j d) = l := by
  refine List.ext_getElem (by simp) fun j _ hj => ?_
  rw [List.getElem_map, List.getElem_range, List.getD_eq_getElem _ _ hj]

section

variable {h : Hll} (hlen : h.reg.length = 2 ^ h.p)
include hlen

/-- The obligation's sum over bucket numbers is the model's over the list. -/
theorem rawEstimate_eq_rawOf : rawEstimate h.reg = rawOf h := by
  have hsum : (h.reg.map fun r => ((2 : ℝ) ^ r.toNat)⁻¹).sum =
      ∑ j ∈ Finset.range (2 ^ h.p), 1 / (2 : ℝ) ^ (h.reg.getD j 0).toNat := by
    rw [← hlen, Finset.sum_range, ← Fin.sum_univ_fun_getElem]
    refine Finset.sum_congr rfl fun j _ => ?_
    rw [List.getD_eq_getElem _ _ j.isLt, one_div]
  rw [rawEstimate, rawOf, hsum, hlen, alpha_two_pow, Nat.cast_pow, Nat.cast_ofNat]

theorem zeroRegisters_eq_zerosOf : zeroRegisters h.reg = zerosOf h := by
  conv_lhs => rw [zeroRegisters, ← map_range_getD h.reg 0, List.countP_map, List.countP_eq_length_filter,
    length_filter_range, hlen]
  simp [zerosOf]

end

/-! ### The regimes of the count (R241) -/

section

variable {reg : List Byte}

theorem rawEstimate_pos (hne : reg ≠ []) : 0 < rawEstimate reg := by
  have hlen : 0 < reg.length := List.length_pos_iff.2 hne
  have hsum : 0 < (reg.map fun r => ((2 : ℝ) ^ r.toNat)⁻¹).sum :=
    List.sum_pos _ (List.forall_mem_map.2 fun r _ => by positivity) (by simpa using hne)
  have halpha := alpha_pos reg.length
  unfold rawEstimate
  positivity

/-- The raw estimate of `n` zero registers. -/
theorem rawEstimate_replicate (n : Nat) : rawEstimate (List.replicate n 0) = alpha n * n := by
  have hsum : ((List.replicate n (0 : Byte)).map fun r => ((2 : ℝ) ^ r.toNat)⁻¹).sum = n := by simp
  rw [rawEstimate, hsum, List.length_replicate, pow_two]
  rcases eq_or_ne (n : ℝ) 0 with h0 | h0
  · simp [h0]
  · field_simp

theorem countRegs_of_zeros (he : rawEstimate reg ≤ 2.5 * reg.length) (hv : 0 < zeroRegisters reg) :
    countRegs reg = reg.length * Real.log (reg.length / zeroRegisters reg) :=
  if_pos ⟨he, hv⟩

theorem countRegs_of_no_zeros (he : rawEstimate reg ≤ 2.5 * reg.length) (hv : zeroRegisters reg = 0) :
    countRegs reg = rawEstimate reg :=
  (if_neg fun h => by omega).trans (if_pos he)

theorem countRegs_of_middle (hlo : 2.5 * reg.length < rawEstimate reg) (hhi : rawEstimate reg < 2 ^ 32 / 30) :
    countRegs reg = rawEstimate reg :=
  (if_neg fun h => hlo.not_ge h.1).trans ((if_neg hlo.not_ge).trans (if_pos hhi))

theorem countRegs_of_large (hlo : 2.5 * reg.length < rawEstimate reg) (hmid : 2 ^ 32 / 30 ≤ rawEstimate reg)
    (hhi : rawEstimate reg < 2 ^ 32) : countRegs reg = -(2 ^ 32) * Real.log (1 - rawEstimate reg / 2 ^ 32) :=
  (if_neg fun h => hlo.not_ge h.1).trans ((if_neg hlo.not_ge).trans ((if_neg hmid.not_gt).trans (if_pos hhi)))

theorem zeroRegisters_lt_length (h : ∃ r ∈ reg, r ≠ 0) : zeroRegisters reg < reg.length := by
  simpa [zeroRegisters] using h

/-- Below `2^32` the count of a sketch that is not empty is positive, in each regime. -/
theorem countRegs_pos (h : ∃ r ∈ reg, r ≠ 0) (hlimit : rawEstimate reg < 2 ^ 32) : 0 < countRegs reg := by
  have hne : reg ≠ [] := by
    obtain ⟨r, hr, -⟩ := h
    exact List.ne_nil_of_mem hr
  have hraw := rawEstimate_pos hne
  rcases le_or_gt (rawEstimate reg) (2.5 * reg.length) with hlo | hlo
  · rcases Nat.eq_zero_or_pos (zeroRegisters reg) with hv | hv
    · rwa [countRegs_of_no_zeros hlo hv]
    · have hlen : (0 : ℝ) < reg.length := Nat.cast_pos.2 (List.length_pos_iff.2 hne)
      have hratio : 1 < (reg.length : ℝ) / zeroRegisters reg :=
        (one_lt_div (Nat.cast_pos.2 hv)).2 (Nat.cast_lt.2 (zeroRegisters_lt_length h))
      rw [countRegs_of_zeros hlo hv]
      exact mul_pos hlen (Real.log_pos hratio)
  · rcases lt_or_ge (rawEstimate reg) (2 ^ 32 / 30) with hmid | hmid
    · rwa [countRegs_of_middle hlo hmid]
    · have hfraction : rawEstimate reg / 2 ^ 32 < 1 := (div_lt_one (by norm_num)).2 hlimit
      have hpositive : 0 < rawEstimate reg / 2 ^ 32 := by positivity
      rw [countRegs_of_large hlo hmid hlimit]
      exact mul_pos_of_neg_of_neg (by norm_num) (Real.log_neg (by linarith) (by linarith))

/-- The empty sketch counts 0: all of its registers are zero, and `ln 1 = 0`. -/
theorem countRegs_replicate {n : Nat} (hn : 0 < n) : countRegs (List.replicate n 0) = 0 := by
  have hzeros : zeroRegisters (List.replicate n 0) = n := by simp [zeroRegisters, List.countP_replicate]
  have hraw : rawEstimate (List.replicate n 0) ≤ 2.5 * (List.replicate n (0 : Byte)).length := by
    rw [rawEstimate_replicate, List.length_replicate]
    exact mul_le_mul_of_nonneg_right ((alpha_le_one n).trans (by norm_num)) (Nat.cast_nonneg n)
  rw [countRegs_of_zeros hraw (by omega), hzeros, List.length_replicate, div_self (Nat.cast_ne_zero.2 hn.ne'),
    Real.log_one, mul_zero]

theorem countRegs_eq_zero_iff (hne : reg ≠ []) (hlimit : rawEstimate reg < 2 ^ 32) :
    countRegs reg = 0 ↔ ∀ r ∈ reg, r = 0 := by
  constructor
  · intro h0 r hr
    by_contra hr0
    exact (countRegs_pos ⟨r, hr, hr0⟩ hlimit).ne' h0
  · intro h
    rw [List.eq_replicate_of_mem h]
    exact countRegs_replicate (List.length_pos_iff.2 hne)

end

/-! ### The union of two sketches (R243) -/

theorem unionCount_pair_of_eq {a b : Hll} (h : a.p = b.p) :
    unionCount [a, b] = .ok (countRegs (List.zipWith umax a.reg b.reg)) := by
  simp [unionCount, unionRegisters, h]

theorem unionCount_pair_of_ne {a b : Hll} (h : a.p ≠ b.p) : unionCount [a, b] = .error .incompatibleSketch := by
  simp [unionCount, h.symm]

theorem count_freshHll (p : Nat) : count (freshHll p) = 0 := countRegs_replicate (Nat.two_pow_pos p)

theorem unionCount_freshHll (p : Nat) : unionCount [freshHll p, freshHll p] = .ok 0 := by
  have hreg : List.zipWith umax (freshHll p).reg (freshHll p).reg = (freshHll p).reg := by simp [freshHll, umax]
  rw [unionCount_pair_of_eq rfl, hreg]
  exact congrArg _ (count_freshHll p)

/-! ### The obligations -/

/-- Settles O59: HLL_MERGE stores the registers that the union counts, and both check that the precisions agree. -/
theorem unionCountIsCountAfterMerge : Obligations.UnionCountIsCountAfterMerge := by
  intro s t sa sb a b hsa ha hb he
  by_cases hp : a.p = b.p
  · rw [exec_hllMerge_of_compatible ha hb hp] at he
    cases he
    rw [unionCount_pair_of_eq hp]
    exact ⟨fun _ => ⟨_, readSlot_writeSlot_same sa _ s hsa, rfl⟩, iff_of_false nofun nofun⟩
  · rw [exec_hllMerge_of_incompatible ha hb hp] at he
    cases he
    exact ⟨nofun, iff_of_true rfl (unionCount_pair_of_ne hp)⟩

/-- Settles O60: the regimes of `countRegs` with the obligation's own E and V, its sign below `2^32`, and the union of
two empty sketches, which is empty. -/
theorem emptySketchesCountZero : Obligations.EmptySketchesCountZero := by
  refine ⟨fun h _ _ hlen => ?_, fun p _ _ => ⟨count_freshHll p, ?_, ?_⟩⟩
  · have hne : h.reg ≠ [] := List.length_pos_iff.1 (hlen ▸ Nat.two_pow_pos h.p)
    have hm : (h.reg.length : ℝ) = 2 ^ h.p := by rw [hlen, Nat.cast_pow, Nat.cast_ofNat]
    rw [← rawEstimate_eq_rawOf hlen, ← zeroRegisters_eq_zerosOf hlen, ← hm]
    exact ⟨countRegs_of_zeros, countRegs_of_no_zeros, countRegs_of_middle, countRegs_of_large,
      fun hlimit => ⟨countRegs_eq_zero_iff hne hlimit, fun hr => countRegs_pos hr hlimit⟩⟩
  · rw [jaccard, unionCount_freshHll]
    exact congrArg _ (if_pos rfl)
  · rw [inclusion, unionCount_freshHll]
    exact congrArg _ (if_pos rfl)

end Sys2Proof.Proofs
end

section
/-! PROOFS. Hazards (70_reset_and_hazards.md): what an access does while BUSY = 1, when a pending command gets its
step, and what a host that polls sees. -/

namespace Sys2Proof.Proofs

open Sys2Proof Sys2Proof.Machine Sys2Proof.Claim

/-! ### Reads while BUSY = 1 (R310, 20_memory.md R63, R71) -/

section

variable {s : State} (hbusy : s.status.busy = true)
include hbusy

theorem openRead_busy (v : Word) : openRead v s = (Config.freeWord s.draws, { s with draws := s.draws + 1 }) := by
  rw [openRead, if_pos hbusy]

theorem blobByte_busy {a : Nat} (hlimit : a < s.params.blobBytes) (hwritten : (Memory.read s.blob a).isSome = true)
    (free : Byte) : blobByte s a free = some free := by
  obtain ⟨b, hb⟩ := Option.isSome_iff_exists.1 hwritten
  rw [blobByte, if_neg (Nat.not_le.2 hlimit), hb]
  simp only [hbusy, if_true]

/-- A read through the blob window gives the free value's bytes below the limit and 0 in the others. -/
theorem hostRead_blob_busy {off : BitVec 20} {w : Width} {o : Nat} (ho : off.toNat - blobBase = o)
    (hlegal : legal off w) (hblob : blobBase ≤ off.toNat)
    (hwritten : ∀ n < min w.bytes (s.params.blobBytes - o), (Memory.read s.blob (o + n)).isSome = true) :
    hostRead off w s = .next (record (.read off w)
      (.data (BitVec.ofNat 32 ((Config.freeWord s.draws).toNat % 2 ^ (8 * min w.bytes (s.params.blobBytes - o)))))
      { s with draws := s.draws + 1 }) := by
  have hvalue : (Config.freeWord s.draws).toNat % 2 ^ (8 * min w.bytes (s.params.blobBytes - o)) < 2 ^ (8 * w.bytes) :=
    Nat.lt_of_lt_of_le (Nat.mod_lt _ (Nat.two_pow_pos _)) (Nat.pow_le_pow_right (by omega) (by omega))
  rw [hostRead_blob hlegal hblob hvalue fun i hi => ?_, if_pos hbusy]
  rw [byte_of_mod, ho]
  split
  · rename_i hkept
    exact blobByte_busy hbusy (by omega) (hwritten i hkept) _
  · exact blobByte_beyond (by omega) _

end

/-! ### Runs -/

section

variable {s t u : State}

theorem runsTo_zero : runsTo s 0 t ↔ s = t := ⟨fun h => by injection h, fun h => congrArg _ h⟩

theorem runsTo_succ {n : Nat} : runsTo s (n + 1) t ↔ ∃ u, step s = .next u ∧ runsTo u n t := by
  unfold runsTo
  simp only [Host.Core.run]
  show _ ↔ ∃ u, Sys2Proof.core.step s = .next u ∧ Sys2Proof.core.run n u = .next t
  cases Sys2Proof.core.step s <;> simp

theorem runsTo_trans {m n : Nat} (hu : runsTo s m u) (ht : runsTo u n t) : runsTo s (m + n) t := by
  induction m generalizing s with
  | zero =>
    obtain rfl := runsTo_zero.1 hu
    rwa [Nat.zero_add]
  | succ m ih =>
    obtain ⟨v, hv, hu⟩ := runsTo_succ.1 hu
    rw [Nat.add_right_comm]
    exact runsTo_succ.2 ⟨v, hv, ih hu⟩

theorem runsTo_step {n : Nat} (hu : runsTo s n u) (ht : step u = .next t) : runsTo s (n + 1) t :=
  runsTo_trans hu (runsTo_succ.2 ⟨t, ht, runsTo_zero.2 rfl⟩)

/-- A run each of whose states can step gets as far as one likes. -/
theorem exists_runsTo {n : Nat} (h : ∀ m < n, ∀ u, runsTo s m u → ∃ v, step u = .next v) : ∃ t, runsTo s n t := by
  induction n with
  | zero => exact ⟨s, runsTo_zero.2 rfl⟩
  | succ n ih =>
    obtain ⟨u, hu⟩ := ih fun m hm => h m (by omega)
    obtain ⟨t, ht⟩ := h n (by omega) u hu
    exact ⟨t, runsTo_step hu ht⟩

/-! ### The schedule (20_memory.md R69, log 4) -/

theorem eq_host_of_ne_engine {a : Agent} (h : a ≠ .engine) : a = .host := by
  cases a with
  | host => rfl
  | engine => exact absurd rfl h

theorem eq_engine_of_ne_host {a : Agent} (h : a ≠ .host) : a = .engine := by
  cases a with
  | engine => rfl
  | host => exact absurd rfl h

theorem hostRead_sched {off : BitVec 20} {w : Width} (h : hostRead off w s = .next t) :
    t.host.sched = s.host.sched := by
  obtain ⟨r, ht, -⟩ := readsHaveNoSideEffect s t off w h
  rw [ht]

theorem writeRegister_host (off : Nat) (v : Word) (s : State) : (writeRegister off v s).host = s.host := by
  unfold writeRegister
  split <;> rfl

theorem busWrite_host (off : BitVec 20) (w : Width) (v : Word) (s : State) : (busWrite off w v s).host = s.host := by
  unfold busWrite
  split
  · rfl
  · split
    · exact writeRegister_host _ v s
    · rw [writeBlob, setBlob_host]

theorem hostWrite_sched {off : BitVec 20} {w : Width} {v : Word} (h : hostWrite off w v s = .next t) :
    t.host.sched = s.host.sched := by
  unfold hostWrite at h
  split at h
  · cases h
    rw [record_host, busWrite_host]
  · cases h
    rfl

theorem hostTurn_sched (h : hostTurn s = .next t) : t.host.sched = s.host.sched := by
  unfold hostTurn at h
  split at h
  · cases h
    rfl
  · exact (hostRead_sched h :)
  · exact (hostWrite_sched h :)
  · split at h
    · exact hostRead_sched h
    · exact (hostRead_sched h :)

theorem engineTurn_host (h : engineTurn s = .next t) : t.host = s.host := by
  unfold engineTurn at h
  split at h
  · cases h
    rfl
  · obtain ⟨-, -, hhost⟩ := runCommand_keepsOperands h
    exact hhost

/-- Every step uses up one place of the schedule. -/
theorem step_sched (h : step s = .next t) : t.host.sched = s.host.sched.tail := by
  unfold step at h
  split at h
  · rw [engineTurn_host h, popTurn_host]
  · exact hostTurn_sched h

/-- Agent `a`'s next turn: where the other agent's turns keep `P`, and `a` moves once the schedule is used up, the run
comes to `a`'s turn after at most as many steps as the schedule has places, and `P` holds until then. -/
theorem exists_turn {P : State → Prop} {a : Agent}
    (hkeep : ∀ u v, P u → nextAgent u ≠ a → step u = .next v → P v)
    (hlast : ∀ u, P u → u.host.sched = [] → nextAgent u = a) (hs : P s) :
    ∃ n ≤ s.host.sched.length, ∀ m ≤ n, ∀ u, runsTo s m u → P u ∧ (nextAgent u = a ↔ m = n) := by
  induction hsched : s.host.sched generalizing s with
  | nil =>
    refine ⟨0, Nat.le_refl _, fun m hm u hu => ?_⟩
    obtain rfl : m = 0 := by omega
    obtain rfl := runsTo_zero.1 hu
    exact ⟨hs, iff_of_true (hlast s hs hsched) rfl⟩
  | cons b rest ih =>
    by_cases hturn : nextAgent s = a
    · refine ⟨0, Nat.zero_le _, fun m hm u hu => ?_⟩
      obtain rfl : m = 0 := by omega
      obtain rfl := runsTo_zero.1 hu
      exact ⟨hs, iff_of_true hturn rfl⟩
    · obtain ⟨n, hn, hrest⟩ : ∃ n ≤ rest.length, ∀ v, step s = .next v → ∀ m ≤ n, ∀ u, runsTo v m u →
          P u ∧ (nextAgent u = a ↔ m = n) := by
        by_cases hstep : ∃ v, step s = .next v
        · obtain ⟨v, hv⟩ := hstep
          obtain ⟨n, hn, h⟩ := ih (hkeep s v hs hturn hv) (by rw [step_sched hv, hsched, List.tail_cons])
          refine ⟨n, hn, fun v' hv' => ?_⟩
          obtain rfl : v = v' := by injection hv.symm.trans hv'
          exact h
        · exact ⟨0, Nat.zero_le _, fun v hv => absurd ⟨v, hv⟩ hstep⟩
      refine ⟨n + 1, Nat.succ_le_succ hn, fun m hm u hu => ?_⟩
      cases m with
      | zero =>
        obtain rfl := runsTo_zero.1 hu
        exact ⟨hs, iff_of_false hturn (by omega)⟩
      | succ m =>
        obtain ⟨v, hv, hu⟩ := runsTo_succ.1 hu
        rw [Nat.succ_inj]
        exact hrest v hv m (by omega) u hu

end

/-! ### The host's turns while a command is pending (R310) -/

section

variable {s t u : State}

/-- `t` is `s` but for OVR, the race noted with it, the free values drawn and the host's side. -/
def WaitsWith (s t : State) : Prop := ∃ ovr raced draws host,
  t = { s with status := { s.status with ovr := ovr }, raced := raced, draws := draws, host := host }

theorem WaitsWith.refl (s : State) : WaitsWith s s := ⟨_, _, _, _, rfl⟩

theorem WaitsWith.trans : WaitsWith s t → WaitsWith t u → WaitsWith s u := by
  rintro ⟨_, _, _, _, rfl⟩ ⟨_, _, _, _, rfl⟩
  exact ⟨_, _, _, _, rfl⟩

theorem hostRead_waits {off : BitVec 20} {w : Width} (h : hostRead off w s = .next t) : WaitsWith s t := by
  obtain ⟨draws, host, rfl⟩ := hostRead_frame h
  exact ⟨_, _, _, _, rfl⟩

theorem hostWrite_waits {off : BitVec 20} {w : Width} {v : Word} (hbusy : s.status.busy = true)
    (h : hostWrite off w v s = .next t) : WaitsWith s t := by
  by_cases hlegal : legal off w
  · rw [hostWrite_busy (legalAccess_iff.2 hlegal) hbusy] at h
    cases h
    exact ⟨_, _, _, _, rfl⟩
  · rw [hostWrite_illegal hlegal] at h
    cases h
    exact ⟨_, _, _, _, rfl⟩

theorem setProg_waits (prog : List HostOp) (s : State) : WaitsWith s (setProg prog s) := ⟨_, _, _, _, rfl⟩

theorem hostTurn_waits (hbusy : s.status.busy = true) (h : hostTurn s = .next t) : WaitsWith s t := by
  unfold hostTurn at h
  split at h
  · cases h
    exact .refl s
  · exact (setProg_waits _ s).trans (hostRead_waits h)
  · rename_i rest _
    exact (setProg_waits rest s).trans (hostWrite_waits (s := setProg rest s) hbusy h)
  · rw [if_pos hbusy] at h
    exact hostRead_waits h

/-- While BUSY = 1 a step that is not the engine's leaves the pending command and all that it reads. -/
theorem step_waits (hbusy : s.status.busy = true) (hturn : nextAgent s ≠ .engine) (h : step s = .next t) :
    WaitsWith s t := by
  rw [step_host (eq_host_of_ne_engine hturn)] at h
  exact WaitsWith.trans ⟨_, _, _, _, rfl⟩ (hostTurn_waits (s := popTurn s) hbusy h)

end

/-! ### A host that polls (30_encoding.md R99) -/

section

variable {s t : State} {h : HostSide}

/-- `u` is `s` but for the host's schedule and record. -/
def SameButTurns (s u : State) : Prop := ∃ h, h.prog = s.host.prog ∧ u = withHost h s

/-- Where the other agent's turns change only the schedule and the record, the run comes to agent `a`'s turn with the
host's program and the rest of the machine as they are. -/
theorem exists_turn_withHost {a : Agent}
    (hkeep : ∀ h, h.prog = s.host.prog → nextAgent (withHost h s) ≠ a →
      ∃ h', h'.prog = s.host.prog ∧ step (withHost h s) = .next (withHost h' s))
    (hlast : ∀ h, h.sched = [] → nextAgent (withHost h s) = a) :
    ∃ n h, h.prog = s.host.prog ∧ runsTo s n (withHost h s) ∧ nextAgent (withHost h s) = a := by
  obtain ⟨n, -, hn⟩ := exists_turn (s := s) (P := SameButTurns s)
    (fun u v hu hturn hv => by
      obtain ⟨h, hprog, rfl⟩ := hu
      obtain ⟨h', hprog', hstep⟩ := hkeep h hprog hturn
      obtain rfl : withHost h' s = v := by injection hstep.symm.trans hv
      exact ⟨h', hprog', rfl⟩)
    (fun u hu hsched => by
      obtain ⟨h, -, rfl⟩ := hu
      exact hlast h hsched)
    ⟨s.host, rfl, rfl⟩
  obtain ⟨t, ht⟩ := exists_runsTo fun m hm u hu => by
    obtain ⟨⟨h, hprog, rfl⟩, hturn⟩ := hn m (Nat.le_of_lt hm) u hu
    obtain ⟨h', -, hstep⟩ := hkeep h hprog fun ha => absurd (hturn.1 ha) (Nat.ne_of_lt hm)
    exact ⟨_, hstep⟩
  obtain ⟨⟨h, hprog, rfl⟩, hturn⟩ := hn n (Nat.le_refl n) t ht
  exact ⟨n, h, hprog, ht, hturn.2 rfl⟩

/-- An idle block lets the host make its next access after finitely many turns of the engine that do nothing. -/
theorem exists_host_turn (hidle : s.pending = none) :
    ∃ n h, h.prog = s.host.prog ∧ runsTo s n (withHost h s) ∧ nextAgent (withHost h s) = .host := by
  refine exists_turn_withHost (fun h hprog hturn => ?_) fun h hsched => ?_
  · refine ⟨{ h with sched := h.sched.tail }, hprog, ?_⟩
    rw [step_engine (eq_engine_of_ne_host hturn), engineTurn_idle (s := popTurn (withHost h s)) hidle]
    rfl
  · rw [nextAgent, show (withHost h s).host.sched = [] from hsched, show (withHost h s).pending = none from hidle]
    rfl

/-- While a host polls, the pending command gets its step after finitely many reads of STATUS. -/
theorem exists_engine_turn_polling {w : Word} {rest : List HostOp} (hpending : s.pending = some w)
    (hbusy : s.status.busy = true) (hpoll : s.host.prog = .poll :: rest) :
    ∃ n h, h.prog = .poll :: rest ∧ runsTo s n (withHost h s) ∧ nextAgent (withHost h s) = .engine := by
  rw [← hpoll]
  refine exists_turn_withHost (fun h hprog hturn => ?_) fun h hsched => ?_
  · rw [step_host (eq_host_of_ne_engine hturn), hostTurn_poll (s := popTurn (withHost h s)) (hprog.trans hpoll),
      if_pos (show (popTurn (withHost h s)).status.busy = true from hbusy)]
    exact ⟨(record (.read statusOffset .word) (.data (statusWord s.status)) (popTurn (withHost h s))).host, hprog, rfl⟩
  · exact (nextAgent_of_no_sched hsched).2 (by rw [show (withHost h s).pending = s.pending from rfl, hpending]; nofun)

/-- A command that leaves BUSY has completed: nothing is pending. -/
theorem runCommand_pending_eq_none {w : Word} (hrun : runCommand w s = .next t) (hbusy : s.status.busy = true)
    (hdone : t.status.busy = false) : t.pending = none := by
  cases hd : decode s.params.nslot w with
  | error e =>
    rw [runCommand_illegal hd] at hrun
    cases hrun
    rfl
  | ok i =>
    rw [runCommand_ok hd] at hrun
    rcases (hrun ▸ exec_ends i s : CommandEnds i s (.next t)).hangs_or_completes with ⟨-, rfl⟩ | ⟨c, u, rfl, -⟩
    · exact absurd hbusy (by simp [hdone])
    · rfl

/-- The idle host's turn issues the word it writes to CMD (R24). -/
theorem step_issues {w : Word} {rest : List HostOp} (hturn : nextAgent s = .host) (hidle : s.status.busy = false)
    (hprog : s.host.prog = .access (.write 0x010 .word w) :: rest) :
    ∃ h, h.prog = rest ∧ step s = .next (withHost h (acceptCommand w s)) := by
  rw [step_host hturn, hostTurn_write (s := popTurn s) hprog,
    hostWrite_register (s := setProg rest (popTurn s)) (by decide) (by decide) hidle]
  exact ⟨(record (.write 0x010 .word w) .done (setProg rest (popTurn s))).host, rfl, rfl⟩

/-- The engine's turn runs the pending command whatever the host's side is (20_memory.md R70). -/
theorem step_runs {w : Word} (hturn : nextAgent (withHost h s) = .engine) (hpending : s.pending = some w)
    (hrun : runCommand w s = .next t) :
    ∃ h', h'.prog = h.prog ∧ step (withHost h s) = .next (withHost h' t) := by
  refine ⟨{ h with sched := h.sched.tail }, rfl, ?_⟩
  rw [step_engine hturn, engineTurn_pending (s := popTurn (withHost h s)) hpending]
  exact (commandsIgnoreTheHostSide s w { h with sched := h.sched.tail }).trans (by rw [hrun]; rfl)

/-- The idle host's turn ends its poll loop with the STATUS it reads (30_encoding.md R99). -/
theorem step_leaves_poll {rest : List HostOp} (hturn : nextAgent s = .host) (hidle : s.status.busy = false)
    (hprog : s.host.prog = .poll :: rest) :
    ∃ h, h.prog = rest ∧ h.log.head? = some ⟨.read 0x014 .word, .data (statusWord s.status)⟩ ∧
      step s = .next (withHost h s) := by
  rw [step_host hturn, hostTurn_poll (s := popTurn s) hprog, if_neg (by simp [hidle])]
  exact ⟨(record (.read 0x014 .word) (.data (statusWord s.status)) (setProg rest (popTurn s))).host, rfl, rfl, rfl⟩

end

/-! ### The obligations -/

/-- Settles O10: the writes and the reads while BUSY = 1, by the window the offset lies in. -/
theorem busyHazard : Obligations.BusyHazard := by
  intro s hbusy reads
  have hread {off : BitVec 20} (hlow : off.toNat < blobBase) (halign : off.toNat % 4 = 0) {v : Word}
      (hv : readRegister off.toNat s = (v, s)) : reads off v := by
    show hostRead off .word s = _
    rw [hostRead_register hlow halign, hv]
  refine ⟨fun off w v hlegal => hostWrite_busy (legalAccess_iff.2 hlegal) hbusy v, ?_,
    fun off hreserved hlow halign => hread hlow halign (readRegister_reserved hreserved s), fun off hoff => ?_,
    fun off w hlegal hblob => hostRead_blob_busy hbusy rfl hlegal hblob⟩
  · refine ⟨hread ?_ ?_ rfl, hread ?_ ?_ rfl, hread ?_ ?_ rfl, hread ?_ ?_ rfl, hread ?_ ?_ rfl, hread ?_ ?_ rfl,
      hread ?_ ?_ rfl, hread ?_ ?_ rfl, hread ?_ ?_ rfl, hread ?_ ?_ rfl, hread ?_ ?_ rfl⟩ <;> decide
  · rcases hoff with rfl | rfl
    · exact (hostRead_register (by decide) (by decide)).trans (by
        rw [show readRegister (0x02C : BitVec 20).toNat s = openRead s.regs.result s from rfl, openRead_busy hbusy])
    · exact (hostRead_register (by decide) (by decide)).trans (by
        rw [show readRegister (0x030 : BitVec 20).toNat s = openRead s.regs.resultHi s from rfl, openRead_busy hbusy])

/-- Settles O27: until the engine's turn every state of the run waits with what the command reads. -/
theorem pendingCommandGetsItsStep : Obligations.PendingCommandGetsItsStep := by
  intro s w hpending hbusy
  obtain ⟨n, hn, hrun⟩ := exists_turn (s := s) (P := WaitsWith s) (a := .engine)
    (fun u v hu hturn hv => hu.trans (step_waits (by obtain ⟨_, _, _, _, rfl⟩ := hu; exact hbusy) hturn hv))
    (fun u hu hsched => by
      obtain ⟨_, _, _, _, rfl⟩ := hu
      exact (nextAgent_of_no_sched hsched).2 (by simp [hpending]))
    (.refl s)
  refine ⟨n, hn, fun m hm u hu => ?_, fun t ht => ?_⟩
  · obtain ⟨-, hturn⟩ := hrun m (Nat.le_of_lt hm) u hu
    exact eq_host_of_ne_engine fun hagent => absurd (hturn.1 hagent) (Nat.ne_of_lt hm)
  · obtain ⟨⟨_, _, _, _, rfl⟩, hturn⟩ := hrun n (Nat.le_refl n) t ht
    exact ⟨hturn.2 rfl, hpending, hbusy, rfl, rfl, rfl, rfl⟩

/-- Settles O28: the run is the idle engine's turns, the CMD write, the reads of STATUS while BUSY = 1, the command's
step, the idle engine's turns, and the read that ends the poll. -/
theorem polledCommandRunsAtItsWrite : Obligations.PolledCommandRunsAtItsWrite := by
  intro s t w rest hpending hbusy hprog hrun hdone
  replace hrun : runCommand w (acceptCommand w s) = .next t := hrun
  obtain ⟨n₁, h₁, hprog₁, hrun₁, hturn₁⟩ := exists_host_turn hpending
  obtain ⟨h₂, hprog₂, hstep₂⟩ := step_issues hturn₁ hbusy (hprog₁.trans hprog)
  obtain ⟨n₃, h₃, hprog₃, hrun₃, hturn₃⟩ :=
    exists_engine_turn_polling (s := withHost h₂ (acceptCommand w s)) rfl rfl hprog₂
  obtain ⟨h₄, hprog₄, hstep₄⟩ := step_runs (s := acceptCommand w s) hturn₃ rfl hrun
  have hpending₄ : t.pending = none := runCommand_pending_eq_none hrun rfl hdone
  obtain ⟨n₅, h₅, hprog₅, hrun₅, hturn₅⟩ := exists_host_turn (s := withHost h₄ t) hpending₄
  obtain ⟨h₆, hprog₆, hlog₆, hstep₆⟩ :=
    step_leaves_poll hturn₅ hdone (hprog₅.trans (hprog₄.trans hprog₃))
  exact ⟨_, _, runsTo_step (runsTo_trans (runsTo_step (runsTo_trans (runsTo_step hrun₁ hstep₂) hrun₃) hstep₄) hrun₅)
    hstep₆, hprog₆, rfl, hlog₆⟩

end Sys2Proof.Proofs
end
